-- ==== Sys2Proof/Word.lean ====
section
/-! DEFINITION. The word types and the plain data types every layer shares: bytes and words, the view
slots, channel letters and channel-order strings, the view descriptor, and the operands of one call of
the row reader. -/

namespace Sys2Proof

/-- A byte is 8 bits (00_scope.md R6), bit 0 its least significant (R8). -/
abbrev Byte := BitVec 8

/-- A host register is 32 bits (00_scope.md R6). -/
abbrev Word := BitVec 32

/-- The three slots of the view descriptor file (10_state.md R31). -/
inductive Slot where
  | pal
  | col
  | msk
  deriving DecidableEq, Repr, Inhabited

/-- The letters of channel-order strings (30_encoding.md R103). -/
inductive Channel where
  | r
  | g
  | b
  | a
  | c
  deriving DecidableEq, Repr, Inhabited

/-- The four channel-order strings the block uses: "BGRA", "BGR", "C", "A" (30_encoding.md R103). -/
inductive Fmt where
  | bgra
  | bgr
  | c
  | a
  deriving DecidableEq, Repr, Inhabited

/-- A view descriptor (10_state.md R31). Its numbers are naturals with no width (00_scope.md R7). -/
structure View where
  valid : Bool
  off : Nat
  width : Nat
  height : Nat
  depth : Nat
  fmt : Fmt
  stride : Nat
  size : Nat
  deriving DecidableEq, Repr, Inhabited

/-- The operands of one `Sample(v, x, y, ch)` (41_sample.md R150), the view named by its slot. -/
structure SampleCall where
  slot : Slot
  x : Nat
  y : Nat
  ch : Channel
  deriving DecidableEq, Repr, Inhabited

end Sys2Proof
end

