-- ==== Sys2Proof/Syntax.lean ====
section
/-! DEFINITION. The operations of the block, one constructor per row of spec/opcode_table.json
(30_encoding.md R105 to R108, R111, R113). -/

namespace Sys2Proof

/-- One operation of the block with its operands. -/
inductive Instr where
  /-- DEC.P1 (43_composite.md R200); operands headerSize and colorsUsed of the header (30_encoding.md R91). -/
  | decP1 (headerSize colorsUsed : Word)
  /-- DEC.P2 (R201). -/
  | decP2 (headerSize colorsUsed : Word)
  /-- DEC.P4 (R202). -/
  | decP4 (headerSize colorsUsed : Word)
  /-- DEC.P8 (R203). -/
  | decP8 (headerSize colorsUsed : Word)
  /-- DEC.T24 (R204); colorsUsed is 0 in this mode, or the header selects no mode (30_encoding.md R106). -/
  | decT24 (headerSize : Word)
  /-- DEC.T32 (R205); colorsUsed is 0 in this mode. -/
  | decT32 (headerSize : Word)
  /-- SMP.1 (41_sample.md R151): the sample of the view in `slot` at (x, y), channel ch. -/
  | smp1 (slot : Slot) (x y : Nat) (ch : Channel)
  /-- SMP.2 (R152). -/
  | smp2 (slot : Slot) (x y : Nat) (ch : Channel)
  /-- SMP.4 (R153). -/
  | smp4 (slot : Slot) (x y : Nat) (ch : Channel)
  /-- SMP.B8 (R154). -/
  | smpB8 (slot : Slot) (x y : Nat) (ch : Channel)
  /-- SMP.B16 (R155). -/
  | smpB16 (slot : Slot) (x y : Nat) (ch : Channel)
  /-- SMP.B24 (R156). -/
  | smpB24 (slot : Slot) (x y : Nat) (ch : Channel)
  /-- SMP.B32 (R157). -/
  | smpB32 (slot : Slot) (x y : Nat) (ch : Channel)
  /-- HDR.FETCH (42_select.md R170). -/
  | hdrFetch
  /-- SELECT (42_select.md R172). -/
  | select
  /-- VIEW.MAKE slot, off, width, height, depth, fmt (40_view.md R130). -/
  | viewMake (slot : Slot) (off width height depth : Nat) (fmt : Fmt)
  /-- PIX.PAL X, Y (43_composite.md R196). -/
  | pixPal (x y : Nat)
  /-- PIX.T24 X, Y (R197). -/
  | pixT24 (x y : Nat)
  /-- PIX.T32 X, Y (R198). -/
  | pixT32 (x y : Nat)
  /-- START (44_host_commands.md R220). -/
  | start
  /-- CLEAR (44_host_commands.md R221). -/
  | clear
  deriving DecidableEq, Repr

end Sys2Proof
end

