-- ==== Sys2Proof/WellFormed.lean ====
section
/-! DEFINITION. Which operand values an operation may have (40_view.md R130, 10_state.md R30, R33,
41_sample.md R150, R155). -/

namespace Sys2Proof

/-- The depths a view may have (10_state.md R31, 40_view.md R130). -/
def legalDepth (d : Nat) : Bool := [1, 2, 4, 8, 16, 24, 32].contains d

/-- The (slot, depth, fmt) combinations the block builds (10_state.md R33). -/
def admittedView (slot : Slot) (depth : Nat) (fmt : Fmt) : Bool :=
  match slot, fmt with
  | .pal, .bgra => depth == 32
  | .col, .c => [1, 2, 4, 8].contains depth
  | .col, .bgr => depth == 24
  | .col, .bgra => depth == 32
  | .msk, .a => depth == 1
  | _, _ => false

/-- The channels sampled of a slot at a depth (10_state.md R33); depth 16 has no admitted format, and
a format of at most 2 letters keeps it in bounds (41_sample.md R155), so any one-letter format's
channel is let through. -/
def admittedSample (slot : Slot) (depth : Nat) (ch : Channel) : Bool :=
  match slot, ch with
  | .pal, .r | .pal, .g | .pal, .b => depth == 32
  | .pal, _ => false
  | .col, .c => [1, 2, 4, 8, 16].contains depth
  | .col, .a => depth == 16 || depth == 32
  | .col, _ => depth == 24 || depth == 32
  | .msk, .a => depth == 1 || depth == 16
  | .msk, .c => depth == 16
  | .msk, _ => false

/-- Coordinates are naturals below 2^32 (10_state.md R30; every width and height is a u32 or 1). -/
def coordinate (n : Nat) : Bool := n < 2 ^ 32

/-- The checks on an operation's operands. -/
def Instr.wellFormed : Instr → Bool
  | .decP1 _ _ => true
  | .decP2 _ _ => true
  | .decP4 _ _ => true
  | .decP8 _ _ => true
  | .decT24 _ => true
  | .decT32 _ => true
  | .smp1 slot x y ch => admittedSample slot 1 ch && coordinate x && coordinate y
  | .smp2 slot x y ch => admittedSample slot 2 ch && coordinate x && coordinate y
  | .smp4 slot x y ch => admittedSample slot 4 ch && coordinate x && coordinate y
  | .smpB8 slot x y ch => admittedSample slot 8 ch && coordinate x && coordinate y
  | .smpB16 slot x y ch => admittedSample slot 16 ch && coordinate x && coordinate y
  | .smpB24 slot x y ch => admittedSample slot 24 ch && coordinate x && coordinate y
  | .smpB32 slot x y ch => admittedSample slot 32 ch && coordinate x && coordinate y
  | .hdrFetch => true
  | .select => true
  | .viewMake slot _ width height depth fmt =>
      legalDepth depth && admittedView slot depth fmt && coordinate width && coordinate height
  | .pixPal x y => coordinate x && coordinate y
  | .pixT24 x y => coordinate x && coordinate y
  | .pixT32 x y => coordinate x && coordinate y
  | .start => true
  | .clear => true

end Sys2Proof
end

