-- ==== Sys2Proof/Decode.lean ====
section
/-! DEFINITION. The three encodings that select an operation (30_encoding.md R105 to R107, R111): the
DIB header, the depth field of a view descriptor, the CTRL word; their decoder, total on any bytes and
rejecting by name; and the encoder. The SEQ operations have no encoding (R108). -/

namespace Sys2Proof

/-- A little-endian natural, least significant byte first (20_memory.md R61, R62). -/
def leNat : List Byte → Nat
  | [] => 0
  | b :: bs => b.toNat + 256 * leNat bs

/-- The n low bytes of a natural, least significant first. -/
def leBytes : Nat → Nat → List Byte
  | 0, _ => []
  | n + 1, v => BitVec.ofNat 8 v :: leBytes n (v / 256)

/-- The little-endian field of `n` bytes at offset `off` of a byte string. -/
def headerField (bytes : List Byte) (off n : Nat) : Nat := leNat ((bytes.drop off).take n)

/-- `NCOLORS` from the declared count and the bit depth (42_select.md R171). -/
def paletteCount (bitcount clrused : Nat) : Nat :=
  if clrused = 0 ∧ bitcount ≤ 8 then 2 ^ bitcount else clrused

/-- How many header bytes the block reads: the last field ends at 36 (30_encoding.md R91). -/
def headerBytes : Nat := 36

/-- What is given to the decoder. -/
inductive Encoding where
  /-- format DIBHDR: the first bytes of the payload (30_encoding.md R91) -/
  | header (bytes : List Byte)
  /-- format VIEWDESC: the depth field of the called view's descriptor, and the call (R107) -/
  | viewDesc (depth : Byte) (call : SampleCall)
  /-- format CTRLW: the word written to register 0 (R111) -/
  | ctrl (w : Word)
  deriving DecidableEq, Repr

/-- Why an encoding selects no operation. -/
inductive DecodeError where
  /-- fewer bytes than the 36 the block reads -/
  | headerTooShort (length : Nat)
  /-- a bit depth not admitted on the path that NCOLORS selects (30_encoding.md R106, R109) -/
  | unsupportedColorDepth (bitcount : Nat)
  /-- a depth field that selects no sample mode (30_encoding.md R107, 41_sample.md R150) -/
  | noSampleMode (depth : Nat)
  /-- a CTRL word with neither START nor CLEAR set (44_host_commands.md R222) -/
  | noCommand (w : Word)
  deriving DecidableEq, Repr

/-- The decode mode a header selects (30_encoding.md R106). -/
def decodeHeader (bytes : List Byte) : Except DecodeError Instr :=
  if bytes.length < headerBytes then .error (.headerTooShort bytes.length)
  else
    let size := BitVec.ofNat 32 (headerField bytes 0 4)
    let bitcount := headerField bytes 14 2
    let clrused := headerField bytes 32 4
    if paletteCount bitcount clrused = 0 then
      if bitcount = 24 then .ok (.decT24 size)
      else if bitcount = 32 then .ok (.decT32 size)
      else .error (.unsupportedColorDepth bitcount)
    else
      if bitcount = 1 then .ok (.decP1 size (BitVec.ofNat 32 clrused))
      else if bitcount = 2 then .ok (.decP2 size (BitVec.ofNat 32 clrused))
      else if bitcount = 4 then .ok (.decP4 size (BitVec.ofNat 32 clrused))
      else if bitcount = 8 then .ok (.decP8 size (BitVec.ofNat 32 clrused))
      else .error (.unsupportedColorDepth bitcount)

/-- The sample mode a descriptor's depth selects (30_encoding.md R107, 41_sample.md R150). -/
def decodeSample (depth : Nat) (k : SampleCall) : Except DecodeError Instr :=
  if depth = 1 then .ok (.smp1 k.slot k.x k.y k.ch)
  else if depth = 2 then .ok (.smp2 k.slot k.x k.y k.ch)
  else if depth = 4 then .ok (.smp4 k.slot k.x k.y k.ch)
  else if depth = 8 then .ok (.smpB8 k.slot k.x k.y k.ch)
  else if depth = 16 then .ok (.smpB16 k.slot k.x k.y k.ch)
  else if depth = 24 then .ok (.smpB24 k.slot k.x k.y k.ch)
  else if depth = 32 then .ok (.smpB32 k.slot k.x k.y k.ch)
  else .error (.noSampleMode depth)

/-- The command a CTRL word issues: bit 0 is START, bit 1 CLEAR, both together START, bits 31:2 are
ignored (30_encoding.md R111, 44_host_commands.md R222). -/
def decodeCtrl (w : Word) : Except DecodeError Instr :=
  if w.getLsbD 0 then .ok .start
  else if w.getLsbD 1 then .ok .clear
  else .error (.noCommand w)

/-- The decoder. -/
def decode : Encoding → Except DecodeError Instr
  | .header bytes => decodeHeader bytes
  | .viewDesc depth call => decodeSample depth.toNat call
  | .ctrl w => decodeCtrl w

/-- The 36 header bytes with the three fields the block reads and 0 elsewhere (30_encoding.md R91). -/
def encodeHeader (size : Word) (bitcount : Nat) (clrused : Word) : List Byte :=
  leBytes 4 size.toNat ++ List.replicate 10 0 ++ leBytes 2 bitcount ++ List.replicate 16 0
    ++ leBytes 4 clrused.toNat

/-- The encoder; `none` for the SEQ operations, which no encoded value selects (30_encoding.md R108). -/
def encode : Instr → Option Encoding
  | .decP1 size clrused => some (.header (encodeHeader size 1 clrused))
  | .decP2 size clrused => some (.header (encodeHeader size 2 clrused))
  | .decP4 size clrused => some (.header (encodeHeader size 4 clrused))
  | .decP8 size clrused => some (.header (encodeHeader size 8 clrused))
  | .decT24 size => some (.header (encodeHeader size 24 0))
  | .decT32 size => some (.header (encodeHeader size 32 0))
  | .smp1 slot x y ch => some (.viewDesc 1 { slot, x, y, ch })
  | .smp2 slot x y ch => some (.viewDesc 2 { slot, x, y, ch })
  | .smp4 slot x y ch => some (.viewDesc 4 { slot, x, y, ch })
  | .smpB8 slot x y ch => some (.viewDesc 8 { slot, x, y, ch })
  | .smpB16 slot x y ch => some (.viewDesc 16 { slot, x, y, ch })
  | .smpB24 slot x y ch => some (.viewDesc 24 { slot, x, y, ch })
  | .smpB32 slot x y ch => some (.viewDesc 32 { slot, x, y, ch })
  | .hdrFetch => none
  | .select => none
  | .viewMake _ _ _ _ _ _ => none
  | .pixPal _ _ => none
  | .pixT24 _ _ => none
  | .pixT32 _ _ => none
  | .start => some (.ctrl 1)
  | .clear => some (.ctrl 2)

/-- The row reader's call that a bare VIEWDESC word stands for: every operand at its zero, the colour
slot and the channel of a one-letter format (log 8). -/
def tableCall : SampleCall := { slot := .col, x := 0, y := 0, ch := .c }

/-- The encoding an opcode-table word of `nbits` bits stands for: 16 bits are the header's bitcount
field with every other header byte 0, 8 bits a descriptor's depth field, 32 bits a CTRL word (log 8). -/
def tableEncoding (nbits w : Nat) : Option Encoding :=
  if nbits = 16 then some (.header (encodeHeader 0 (w % 2 ^ 16) 0))
  else if nbits = 8 then some (.viewDesc (BitVec.ofNat 8 w) tableCall)
  else if nbits = 32 then some (.ctrl (BitVec.ofNat 32 w))
  else none

/-- What the decoder reads from an opcode-table word. -/
def decodeTableWord (nbits w : Nat) : Option Instr :=
  match tableEncoding nbits w with
  | none => none
  | some e =>
    match decode e with
    | .ok i => some i
    | .error _ => none

end Sys2Proof
end

