-- ==== Sys2Proof/Config.lean ====
section
/-! DEFINITION. What the spec leaves to the surroundings: the free values (constants with no body, so
that no proof can know one) and the byte an unlisted memory address reads as. -/

namespace Sys2Proof

/-- What an unlisted address of SRC or OUT reads as (log 1, DESIGN CHOICE, unsafe: the spec gives no
contents for a byte nobody has placed). -/
def Config.unlistedByte : Byte := 0

/-- The n-th free word. It stands for "any value (a fresh draw at each read)" of
93_implementation_defined.md U5, U6, U7 and 10_state.md R38, R39 (log 3, log 4). -/
opaque Config.freeWord : Nat → Word

/-- The n-th free view descriptor: the fields of an invalid descriptor after reset are unspecified
(10_state.md R38, log 3). -/
opaque Config.freeView : Nat → View

end Sys2Proof
end

