-- ==== Sys2Proof/Machine/State.lean ====
section
/-! DEFINITION. The machine's state as plain data (10_state.md R20), its stops, and the state after reset
(10_state.md R38). -/

namespace Sys2Proof.Machine

/-- A byte space as (address, byte) cells, in the canonical form `Memory.wf`. -/
abbrev Memory := List Host.Cell

/-- The canonical form: addresses strictly rising, and no cell equal to what an unlisted address reads as. -/
abbrev Memory.wf (m : Memory) : Prop :=
  m.Pairwise (fun p q => p.1 < q.1) ∧ ∀ c ∈ m, c.2 ≠ Config.unlistedByte

/-- The nine values of PHASE (10_state.md R30). -/
inductive Phase where
  | idle
  | hdr
  | sel
  | vpal
  | vcol
  | vmsk
  | pix
  | done
  | fault
  deriving DecidableEq, Repr

/-- The values of STATUS.ERR: no fault, or one of the four (10_state.md R23, 60_exceptions.md R230). -/
inductive ErrCode where
  | none
  | outOfBounds
  | unsupportedColorDepth
  | truncatedData
  | indexRange
  deriving DecidableEq, Repr

/-- The values of STATUS.PATH (10_state.md R23). -/
inductive Path where
  | none
  | palette
  | trueColour
  deriving DecidableEq, Repr

/-- One access of the host, or an external event (00_scope.md R14, 70_reset_and_hazards.md R260, R264). -/
inductive HostAccess where
  /-- a write of register n (10_state.md R21) -/
  | writeReg (n : BitVec 4) (v : Word)
  /-- a read of register n -/
  | readReg (n : BitVec 4)
  /-- a write of one byte of SRC -/
  | writeSrc (a : Word) (b : Byte)
  /-- a read of one byte of OUT -/
  | readOut (a : Nat)
  /-- the reset input -/
  | reset
  /-- the host lets the block take one step -/
  | yield
  deriving DecidableEq, Repr

/-- Which of the two views of an operation the step takes (00_scope.md R15; the model's own, log 6). -/
inductive Grain where
  /-- the sequencer's single steps (43_composite.md R191) -/
  | sequencer
  /-- a legal decode mode as one step (43_composite.md R190) -/
  | operation
  deriving DecidableEq, Repr

/-- Why the model stops. None is a fault of the spec: those are taken as next states. -/
inductive Fault where
  /-- The block would read SRC at or past LEN, which it never does (00_scope.md R16). Raised by the
  one-byte read under Sample. Safe: the model stops (log 13). -/
  | sourceAddressOutsideWindow
  /-- A byte of OUT at or past W x H x 4 is written by the block or read by the host in DONE; it does not
  exist (10_state.md R35). Safe: the model stops (log 13). -/
  | outputAddressAbsent
  /-- The host writes SRC at 2^32 - 1, past every possible window (10_state.md R25, R34). Safe (log 13). -/
  | sourceAddressAbsent
  deriving DecidableEq, Repr

/-- Why the model refuses. -/
inductive Refusal where
  /-- An operation with no meaning yet; raised by exec's refused arms only. Safe. -/
  | notModelled (mnemonic : String)
  /-- Sample of a view that is not valid (41_sample.md R161). Raised by the row reader. Safe (log 11). -/
  | sampleViewInvalid
  /-- Sample with x or y outside the view (R161). Raised by the row reader. Safe (log 11). -/
  | sampleOutsideGrid
  /-- Sample of a channel letter that is not in the view's format (R161). Raised by the row reader. Safe (log 11). -/
  | sampleChannelNotInFormat
  /-- A sample mode on a view of another depth; the depth field chooses the mode (R150). Safe (log 11). -/
  | sampleDepthMismatch
  /-- A call of the row reader on a view whose depth selects no sample mode (R150). Safe (log 11). -/
  | noSampleMode (depth : Nat)
  /-- A pixel body at coordinates outside the picture: its operands are X below W and Y below H
  (43_composite.md R196 to R198). Safe (log 11). -/
  | pixelOutsideImage
  /-- The host writes a byte of the running window while BUSY; the model gives the host no such move
  (70_reset_and_hazards.md R265, 93_implementation_defined.md U9). Unsafe: what is proved holds for hosts
  that keep SRC stable (log 12). -/
  | hostWritesSourceWhileBusy
  deriving DecidableEq, Repr

/-- Everything the spec gives one instance of the block (10_state.md R20), then the model's own fields. -/
structure State where
  /-- pc.PHASE (R30) -/
  phase : Phase
  /-- pc.Y -/
  y : Nat
  /-- pc.X -/
  x : Nat
  /-- STATUS.ERR (R23) -/
  err : ErrCode
  /-- STATUS.ERRVIEW -/
  errView : Option Slot
  /-- STATUS.PATH -/
  path : Path
  /-- ERRINFO (R24) -/
  errInfo : Word
  /-- SRC_LEN (R25) -/
  srcLen : Word
  /-- CFG_W (R26) -/
  cfgW : Word
  /-- CFG_H (R27) -/
  cfgH : Word
  /-- HDR_SIZE (R28) -/
  hdrSize : Word
  /-- HDR_BITCOUNT (R28) -/
  hdrBitcount : Word
  /-- HDR_CLRUSED (R28) -/
  hdrClrused : Word
  /-- NCOLORS (R28) -/
  nColors : Word
  /-- L_LEN (R29) -/
  lLen : Word
  /-- L_W (R29) -/
  lW : Word
  /-- L_H (R29) -/
  lH : Word
  /-- V[PAL] (R31) -/
  vPal : View
  /-- V[COL] (R31) -/
  vCol : View
  /-- V[MSK] (R31) -/
  vMsk : View
  /-- SRC (R34) -/
  src : Memory
  /-- OUT (R35) -/
  out : Memory
  /-- the model's own: the host's pending accesses, oldest first (log 5) -/
  inbox : List HostAccess
  /-- the model's own: what the host's last read answered (log 5) -/
  hostData : Word
  /-- the model's own: which view of an operation the step takes (log 6) -/
  grain : Grain
  /-- the model's own: a pending call of the row reader (log 7) -/
  call : Option SampleCall
  /-- the model's own: the value the last SMP operation returned (log 7) -/
  sampled : Byte
  /-- the model's own: how many free values have been drawn (log 4) -/
  draws : Nat
  deriving DecidableEq, Repr

/-- An invalid view descriptor, its unspecified fields as log 2 names them (DESIGN CHOICE, unsafe). -/
def invalidView : View :=
  { valid := false, off := 0, width := 0, height := 0, depth := 1, fmt := .c, stride := 0, size := 0 }

/-- The machine after reset: idle, no fault, no valid view (10_state.md R38, 70_reset_and_hazards.md R261).
Registers that R38 leaves unspecified hold 0 (log 2, DESIGN CHOICE, unsafe). -/
def State.reset : State :=
  { phase := .idle, y := 0, x := 0
    err := .none, errView := none, path := .none, errInfo := 0
    srcLen := 0, cfgW := 0, cfgH := 0
    hdrSize := 0, hdrBitcount := 0, hdrClrused := 0, nColors := 0
    lLen := 0, lW := 0, lH := 0
    vPal := invalidView, vCol := invalidView, vMsk := invalidView
    src := [], out := []
    inbox := [], hostData := 0, grain := .sequencer, call := none, sampled := 0, draws := 0 }

end Sys2Proof.Machine
end

