-- ==== Sys2Proof/Machine/Operands.lean ====
section
/-! DEFINITION. Operand assembly (30_encoding.md R104): the stride aligner, view sizes and ends, row and
sample addresses, the vertical flip, the output address. All arithmetic is exact (00_scope.md R7). -/

namespace Sys2Proof.Machine

/-- `ceil_div(a, b)` (00_scope.md R9). -/
def ceilDiv (a b : Nat) : Nat := (a + b - 1) / b

/-- `align4(n)`: the least multiple of 4 not below n (00_scope.md R9). -/
def align4 (n : Nat) : Nat := ceilDiv n 4 * 4

/-- `Stride(width, depth)` (40_view.md R131). -/
def stride (width depth : Nat) : Nat := align4 (ceilDiv (width * depth) 8)

/-- `Size(width, height, depth)` (40_view.md R132). -/
def viewSize (width height depth : Nat) : Nat := stride width depth * height

/-- The descriptor VIEW.MAKE builds (40_view.md R130). -/
def mkView (off width height depth : Nat) (fmt : Fmt) : View :=
  { valid := true, off, width, height, depth, fmt
    stride := stride width depth, size := viewSize width height depth }

/-- `End(v) = v.off + v.size` (40_view.md R135). -/
def viewEnd (v : View) : Nat := v.off + v.size

/-- `RowBase(v, y)` (40_view.md R134). -/
def rowBase (v : View) (y : Nat) : Nat := v.off + y * v.stride

/-- The letters of a channel-order string, in order (30_encoding.md R103). -/
def fmtLetters : Fmt → List Channel
  | .bgra => [.b, .g, .r, .a]
  | .bgr => [.b, .g, .r]
  | .c => [.c]
  | .a => [.a]

/-- `idx(fmt, ch)` (30_encoding.md R103); asked only of a letter in the string. -/
def channelIdx (fmt : Fmt) (ch : Channel) : Nat := (fmtLetters fmt).findIdx (· == ch)

/-- The byte of SRC that covers pixel x of row y at a depth below 8 (41_sample.md R151 to R153). -/
def subByteAddr (v : View) (x y perByte : Nat) : Nat := rowBase v y + x / perByte

/-- The byte of SRC that holds a channel at a whole-byte depth (41_sample.md R158). -/
def wholeByteAddr (v : View) (x y depth : Nat) (ch : Channel) : Nat :=
  rowBase v y + x * (depth / 8) + channelIdx v.fmt ch

/-- The field of `width` bits of a byte whose lowest bit is at `shift`: a logical right shift and a mask
(41_sample.md R151 to R153, R159). -/
def bitField (b : Byte) (shift width : Nat) : Byte := (b >>> shift) &&& BitVec.ofNat 8 (2 ^ width - 1)

/-- The stored row that output row Y comes from (43_composite.md R194). -/
def sourceRow (h y : Nat) : Nat := h - 1 - y

/-- The address in OUT of the first byte of output pixel (X, Y) (43_composite.md R199, 20_memory.md R72). -/
def outAddr (w x y : Nat) : Nat := (y * w + x) * 4

/-- The channel-order string of the colour view on the true-colour path (43_composite.md R190, R193). -/
def trueColourFmt (depth : Nat) : Fmt := if depth = 32 then .bgra else .bgr

/-- LEN (10_state.md R29). -/
def len (s : State) : Nat := s.lLen.toNat

/-- W (10_state.md R29). -/
def imgW (s : State) : Nat := s.lW.toNat

/-- H (10_state.md R29). -/
def imgH (s : State) : Nat := s.lH.toNat

/-- The number of bytes of OUT, W x H x 4 (10_state.md R35). -/
def outSize (s : State) : Nat := imgW s * imgH s * 4

end Sys2Proof.Machine
end

