-- ==== Sys2Proof/Machine/Flags.lean ====
section
/-! DEFINITION. The STATUS word and what it is computed from (10_state.md R23, R30, 30_encoding.md R112),
and the level outputs (60_exceptions.md R236). -/

namespace Sys2Proof.Machine

/-- The block is BUSY in the six phases between START and the end (10_state.md R30). -/
def busy (s : State) : Bool :=
  match s.phase with
  | .hdr | .sel | .vpal | .vcol | .vmsk | .pix => true
  | .idle | .done | .fault => false

/-- STATUS.STATE from PHASE (10_state.md R23, R30). -/
def stateCode : Phase → BitVec 2
  | .idle => 0
  | .hdr | .sel | .vpal | .vcol | .vmsk | .pix => 1
  | .done => 2
  | .fault => 3

/-- STATUS.ERR (10_state.md R23, 60_exceptions.md R230). -/
def errCodeBits : ErrCode → BitVec 4
  | .none => 0
  | .outOfBounds => 1
  | .unsupportedColorDepth => 2
  | .truncatedData => 3
  | .indexRange => 4

/-- STATUS.ERRVIEW (10_state.md R23). -/
def errViewBits : Option Slot → BitVec 2
  | none => 0
  | some .pal => 1
  | some .col => 2
  | some .msk => 3

/-- STATUS.PATH (10_state.md R23). -/
def pathBits : Path → BitVec 2
  | .none => 0
  | .palette => 1
  | .trueColour => 2

/-- The STATUS word with the given PATH bits: STATE 1:0, ERR 7:4, ERRVIEW 9:8, PATH 11:10, the rest 0
(10_state.md R23). -/
def statusWith (s : State) (path : BitVec 2) : Word :=
  (0 : BitVec 20) ++ path ++ errViewBits s.errView ++ errCodeBits s.err ++ (0 : BitVec 2)
    ++ stateCode s.phase

/-- The STATUS word where every field is specified. -/
def statusWord (s : State) : Word := statusWith s (pathBits s.path)

/-- The output `busy` (60_exceptions.md R236). -/
def busyOut (s : State) : Bool := busy s

/-- The output `done`. -/
def doneOut (s : State) : Bool := s.phase == .done

/-- The output `fault`. -/
def faultOut (s : State) : Bool := s.phase == .fault

end Sys2Proof.Machine
end

