-- ==== Sys2Proof/Machine/Ops.lean ====
section
/-! DEFINITION. The shared operations: what a computation can end in (`Flow`), the two byte spaces, the
view slots, pc and fault entry. -/

namespace Sys2Proof.Machine

/-- What a part of an operation ends in: a value, a fault of the spec already entered ("nothing after a
raise is executed", 00_scope.md R10), or a stop of the model. -/
inductive Flow (α : Type) where
  | ok (a : α)
  | raised (s : State)
  | fault (f : Fault)
  | refused (r : Refusal)
  deriving DecidableEq, Repr

/-- Go on with the value, or end as the first part ended. -/
def Flow.andThen {α β : Type} (m : Flow α) (k : α → Flow β) : Flow β :=
  match m with
  | .ok a => k a
  | .raised s => .raised s
  | .fault f => .fault f
  | .refused r => .refused r

/-- The outcome of a whole operation: a raised fault is a next state. -/
def Flow.outcome : Flow State → Host.Outcome State Fault Refusal
  | .ok s => .next s
  | .raised s => .next s
  | .fault f => .fault f
  | .refused r => .refused r

/-- The byte a memory reads at an address. -/
def Memory.get : Memory → Nat → Byte
  | [], _ => Config.unlistedByte
  | (k, v) :: rest, a => if a = k then v else Memory.get rest a

/-- Put a cell before the rest, or nothing where the byte is what an unlisted address reads as. -/
def Memory.cell (a : Nat) (b : Byte) (rest : Memory) : Memory :=
  if b = Config.unlistedByte then rest else (a, b) :: rest

/-- Write one byte, keeping the canonical form. -/
def Memory.set : Memory → Nat → Byte → Memory
  | [], a, b => Memory.cell a b []
  | (k, v) :: rest, a, b =>
    if a < k then Memory.cell a b ((k, v) :: rest)
    else if a = k then Memory.cell a b rest
    else (k, v) :: Memory.set rest a b

/-- One byte of the source window (00_scope.md R10: `SRC[a]` is written only where `a < LEN`). -/
def readSrc (a : Nat) (s : State) : Flow Byte :=
  if a < len s then .ok (s.src.get a) else .fault .sourceAddressOutsideWindow

/-- Set pc to a phase where Y and X do not matter; `-` is held as 0 (10_state.md R30; log 10). -/
def goto (p : Phase) (s : State) : State := { s with phase := p, y := 0, x := 0 }

/-- Set pc to `(P_PIX, y, x)` (10_state.md R30). -/
def gotoPixel (y x : Nat) (s : State) : State := { s with phase := .pix, y := y, x := x }

/-- TAKING A FAULT (60_exceptions.md R238): ERR, ERRVIEW (0 unless TruncatedData), ERRINFO, and
`pc <- (P_FAULT, -, -)`. ERRINFO is 32 bits and `info` is below 2^32 in every case (log 19). -/
def enterFault (code : ErrCode) (view : Option Slot) (info : Nat) (s : State) : State :=
  goto .fault
    { s with
      err := code
      errView := if code = .truncatedData then view else none
      errInfo := BitVec.ofNat 32 info }

/-- `raise F(view, info)`: the step that raises performs none of its own writes, so `s` is the state
before them (60_exceptions.md R238, R239; log 9). -/
def raise {α : Type} (code : ErrCode) (view : Option Slot) (info : Nat) (s : State) : Flow α :=
  .raised (enterFault code view info s)

/-- LEAVING A FAULT: there is no return into the operation (60_exceptions.md R240). What START and CLEAR
share: STATUS's stored fields and ERRINFO become 0 (44_host_commands.md R220, R221). -/
def clearStatus (s : State) : State :=
  { s with err := .none, errView := none, path := .none, errInfo := 0 }

/-- Copy the operand registers into the latches (10_state.md R29). -/
def latchOperands (s : State) : State := { s with lLen := s.srcLen, lW := s.cfgW, lH := s.cfgH }

/-- Write NCOLORS and STATUS.PATH (42_select.md R172). -/
def setSelection (n : Nat) (p : Path) (s : State) : State := { s with nColors := BitVec.ofNat 32 n, path := p }

/-- Replace the contents of OUT. -/
def setOut (m : Memory) (s : State) : State := { s with out := m }

/-- The pending host accesses that are left (log 5). -/
def setInbox (rest : List HostAccess) (s : State) : State := { s with inbox := rest }

/-- The pending call of the row reader is taken (log 7). -/
def takeCall (s : State) : State := { s with call := none }

/-- Keep the value a sample operation returned (log 7). -/
def keepSample (b : Byte) (s : State) : State := { s with sampled := b }

/-- `MemRead(a, n)`: little-endian, the whole access checked against LEN (20_memory.md R61). -/
def memRead (a n : Nat) (s : State) : Flow Nat :=
  if a + n > len s then raise .outOfBounds none a s
  else .ok (leNat ((List.range n).map fun k => s.src.get (a + k)))

/-- `MemWrite(a, 1, v)`: one byte of OUT, which has W x H x 4 bytes (20_memory.md R72, 10_state.md R35). -/
def memWrite (a : Nat) (b : Byte) (s : State) : Flow State :=
  if a < outSize s then .ok (setOut (s.out.set a b) s) else .fault .outputAddressAbsent

/-- The descriptor in a slot (10_state.md R31). -/
def viewOf (slot : Slot) (s : State) : View :=
  match slot with
  | .pal => s.vPal
  | .col => s.vCol
  | .msk => s.vMsk

/-- Put a descriptor into a slot. -/
def setView (slot : Slot) (v : View) (s : State) : State :=
  match slot with
  | .pal => { s with vPal := v }
  | .col => { s with vCol := v }
  | .msk => { s with vMsk := v }

/-- Set the three `valid` bits to 0 (10_state.md R31, 44_host_commands.md R220). -/
def invalidateViews (s : State) : State :=
  { s with
    vPal := { s.vPal with valid := false }
    vCol := { s.vCol with valid := false }
    vMsk := { s.vMsk with valid := false } }

/-- Write the three header latches; HDR_BITCOUNT is zero-extended (42_select.md R170). -/
def latchHeader (size bitcount clrused : Nat) (s : State) : State :=
  { s with
    hdrSize := BitVec.ofNat 32 size
    hdrBitcount := BitVec.ofNat 32 bitcount
    hdrClrused := BitVec.ofNat 32 clrused }

/-- The operation has ended well: `P_DONE` (43_composite.md R209). -/
def finish (s : State) : State := goto .done s

/-- After the last view: the first pixel, or `P_DONE` at once where W x H = 0 (43_composite.md R191, R212). -/
def startPixels (s : State) : State :=
  if imgW s * imgH s > 0 then gotoPixel 0 0 s else finish s

/-- After pixel (X, Y): the next in row-major order, or `P_DONE` (43_composite.md R191, R206). -/
def advancePixel (x y : Nat) (s : State) : State :=
  if x + 1 < imgW s then gotoPixel y (x + 1) s
  else if y + 1 < imgH s then gotoPixel (y + 1) 0 s
  else finish s

/-- The next free word (log 4). -/
def freeWord (s : State) : Word := Config.freeWord s.draws

end Sys2Proof.Machine
end

