-- ==== Sys2Proof/Machine/Sample.lean ====
section
/-! DEFINITION. The row reader: `Sample` and the seven sample modes (41_sample.md). -/

namespace Sys2Proof.Machine

/-- The preconditions of `Sample`, which are part of its meaning (41_sample.md R150, R161): a valid view,
of the mode's depth, x and y in its grid, and a channel of its format. Outside them it has no value and
the model refuses (log 11). -/
def sampleGuard (v : View) (depth x y : Nat) (ch : Channel) : Option Refusal :=
  if v.valid = false then some .sampleViewInvalid
  else if v.depth ≠ depth then some .sampleDepthMismatch
  else if ¬(x < v.width ∧ y < v.height) then some .sampleOutsideGrid
  else if ch ∉ fmtLetters v.fmt then some .sampleChannelNotInFormat
  else none

/-- Refuse outside the preconditions, else read. -/
def guarded (v : View) (depth x y : Nat) (ch : Channel) (m : Flow Byte) : Flow Byte :=
  match sampleGuard v depth x y ch with
  | some r => .refused r
  | none => m

/-- A sample at a depth below 8: one bit-field of the covering byte, the smallest x in the most
significant bits (20_memory.md R63, 41_sample.md R162). -/
def subByteSample (v : View) (depth x y : Nat) (ch : Channel) (s : State) : Flow Byte :=
  guarded v depth x y ch
    ((readSrc (subByteAddr v x y (8 / depth)) s).andThen fun b =>
      .ok (bitField b (8 - depth - x % (8 / depth) * depth) depth))

/-- A sample at a whole-byte depth: the channel's byte (41_sample.md R158). -/
def wholeByteSample (v : View) (depth x y : Nat) (ch : Channel) (s : State) : Flow Byte :=
  guarded v depth x y ch (readSrc (wholeByteAddr v x y depth ch) s)

/-- SMP.1 (41_sample.md R151). -/
def smp1 (v : View) (x y : Nat) (ch : Channel) (s : State) : Flow Byte := subByteSample v 1 x y ch s

/-- SMP.2 (41_sample.md R152). -/
def smp2 (v : View) (x y : Nat) (ch : Channel) (s : State) : Flow Byte := subByteSample v 2 x y ch s

/-- SMP.4 (41_sample.md R153). -/
def smp4 (v : View) (x y : Nat) (ch : Channel) (s : State) : Flow Byte := subByteSample v 4 x y ch s

/-- SMP.B8 (41_sample.md R154). -/
def smpB8 (v : View) (x y : Nat) (ch : Channel) (s : State) : Flow Byte := wholeByteSample v 8 x y ch s

/-- SMP.B16 (41_sample.md R155). -/
def smpB16 (v : View) (x y : Nat) (ch : Channel) (s : State) : Flow Byte := wholeByteSample v 16 x y ch s

/-- SMP.B24 (41_sample.md R156). -/
def smpB24 (v : View) (x y : Nat) (ch : Channel) (s : State) : Flow Byte := wholeByteSample v 24 x y ch s

/-- SMP.B32 (41_sample.md R157). -/
def smpB32 (v : View) (x y : Nat) (ch : Channel) (s : State) : Flow Byte := wholeByteSample v 32 x y ch s

/-- `Sample(v, x, y, ch)`: the mode is chosen by the view's depth (41_sample.md R150). -/
def sample (v : View) (x y : Nat) (ch : Channel) (s : State) : Flow Byte :=
  match v.depth with
  | 1 => smp1 v x y ch s
  | 2 => smp2 v x y ch s
  | 4 => smp4 v x y ch s
  | 8 => smpB8 v x y ch s
  | 16 => smpB16 v x y ch s
  | 24 => smpB24 v x y ch s
  | 32 => smpB32 v x y ch s
  | d => .refused (.noSampleMode d)

/-- A sample operation writes no state of the spec's (41_sample.md R150); the value it returns is kept in
the model's own `sampled` (log 7). -/
def returnSample (m : Flow Byte) (s : State) : Host.Outcome State Fault Refusal :=
  (m.andThen fun b => .ok (keepSample b s)).outcome

/-- SMP.1 as an operation of its own (41_sample.md R151). -/
def execSmp1 (slot : Slot) (x y : Nat) (ch : Channel) (s : State) : Host.Outcome State Fault Refusal :=
  returnSample (smp1 (viewOf slot s) x y ch s) s

/-- SMP.2 as an operation of its own (41_sample.md R152). -/
def execSmp2 (slot : Slot) (x y : Nat) (ch : Channel) (s : State) : Host.Outcome State Fault Refusal :=
  returnSample (smp2 (viewOf slot s) x y ch s) s

/-- SMP.4 as an operation of its own (41_sample.md R153). -/
def execSmp4 (slot : Slot) (x y : Nat) (ch : Channel) (s : State) : Host.Outcome State Fault Refusal :=
  returnSample (smp4 (viewOf slot s) x y ch s) s

/-- SMP.B8 as an operation of its own (41_sample.md R154). -/
def execSmpB8 (slot : Slot) (x y : Nat) (ch : Channel) (s : State) : Host.Outcome State Fault Refusal :=
  returnSample (smpB8 (viewOf slot s) x y ch s) s

/-- SMP.B16 as an operation of its own (41_sample.md R155). -/
def execSmpB16 (slot : Slot) (x y : Nat) (ch : Channel) (s : State) : Host.Outcome State Fault Refusal :=
  returnSample (smpB16 (viewOf slot s) x y ch s) s

/-- SMP.B24 as an operation of its own (41_sample.md R156). -/
def execSmpB24 (slot : Slot) (x y : Nat) (ch : Channel) (s : State) : Host.Outcome State Fault Refusal :=
  returnSample (smpB24 (viewOf slot s) x y ch s) s

/-- SMP.B32 as an operation of its own (41_sample.md R157). -/
def execSmpB32 (slot : Slot) (x y : Nat) (ch : Channel) (s : State) : Host.Outcome State Fault Refusal :=
  returnSample (smpB32 (viewOf slot s) x y ch s) s

end Sys2Proof.Machine
end

