-- ==== Sys2Proof/Machine/Select.lean ====
section
/-! DEFINITION. HDR.FETCH and SELECT (42_select.md). -/

namespace Sys2Proof.Machine

/-- The three header reads in the order written, then the latches (42_select.md R170). The first read that
does not fit raises, and then none is latched (60_exceptions.md R239; log 9). -/
def fetchHeader (s : State) : Flow State :=
  (memRead 0 4 s).andThen fun size =>
  (memRead 14 2 s).andThen fun bitcount =>
  (memRead 32 4 s).andThen fun clrused =>
  .ok (latchHeader size bitcount clrused s)

/-- HDR.FETCH (42_select.md R170). -/
def execHdrFetch (s : State) : Host.Outcome State Fault Refusal :=
  ((fetchHeader s).andThen fun t => .ok (goto .sel t)).outcome

/-- The depths the palette path admits (42_select.md R173). -/
def paletteDepth (d : Nat) : Bool := [1, 2, 4, 8].contains d

/-- The depths the true-colour path admits (42_select.md R173). -/
def trueColourDepth (d : Nat) : Bool := [24, 32].contains d

/-- Derive NCOLORS, choose the path, admit or reject the depth (42_select.md R171 to R174). -/
def selectPath (s : State) : Flow State :=
  let bitcount := s.hdrBitcount.toNat
  let n := paletteCount bitcount s.hdrClrused.toNat
  if n ≠ 0 then
    if paletteDepth bitcount then .ok (setSelection n .palette s)
    else raise .unsupportedColorDepth none bitcount s
  else
    if trueColourDepth bitcount then .ok (setSelection n .trueColour s)
    else raise .unsupportedColorDepth none bitcount s

/-- Where the sequencer goes after SELECT (42_select.md R172, 43_composite.md R191). -/
def afterSelect (s : State) : State :=
  if s.path = .palette then goto .vpal s else goto .vcol s

/-- SELECT (42_select.md R172). -/
def execSelect (s : State) : Host.Outcome State Fault Refusal :=
  ((selectPath s).andThen fun t => .ok (afterSelect t)).outcome

end Sys2Proof.Machine
end

