-- ==== Sys2Proof/Machine/View.lean ====
section
/-! DEFINITION. VIEW.MAKE (40_view.md). -/

namespace Sys2Proof.Machine

/-- The construction of one view: TruncatedData where `off + size > LEN`, else the descriptor is written
(40_view.md R130, R133). -/
def makeView (slot : Slot) (off width height depth : Nat) (fmt : Fmt) (s : State) : Flow State :=
  if off + viewSize width height depth > len s then raise .truncatedData (some slot) off s
  else .ok (setView slot (mkView off width height depth fmt) s)

/-- Where the sequencer goes after the view of a slot (43_composite.md R191). -/
def afterView (slot : Slot) (s : State) : State :=
  match slot with
  | .pal => goto .vcol s
  | .col => if s.path = .palette ∨ s.hdrBitcount.toNat = 24 then goto .vmsk s else startPixels s
  | .msk => startPixels s

/-- VIEW.MAKE (40_view.md R130) as the sequencer's step (43_composite.md R191). -/
def execViewMake (slot : Slot) (off width height depth : Nat) (fmt : Fmt) (s : State) :
    Host.Outcome State Fault Refusal :=
  ((makeView slot off width height depth fmt s).andThen fun t => .ok (afterView slot t)).outcome

end Sys2Proof.Machine
end

