-- ==== Sys2Proof/Machine/Composite.lean ====
section
/-! DEFINITION. The colour and alpha compositor: the per-pixel bodies PIX.PAL, PIX.T24, PIX.T32 and the
six decode modes DEC.* (43_composite.md). -/

namespace Sys2Proof.Machine

/-- `AlphaFromMask(m)`: mask bit 1 is transparent, 0 opaque (43_composite.md R195; log 14). -/
def alphaFromMask (m : Byte) : Byte := if m = 1 then 0 else 255

/-- `Emit(X, Y, r, g, b, a)`: four bytes of OUT (43_composite.md R199). -/
def emit (x y : Nat) (r g b a : Byte) (s : State) : Flow State :=
  let o := outAddr (imgW s) x y
  (memWrite o r s).andThen fun s1 =>
  (memWrite (o + 1) g s1).andThen fun s2 =>
  (memWrite (o + 2) b s2).andThen fun s3 =>
  memWrite (o + 3) a s3

/-- The operands of a pixel body are X below W and Y below H (43_composite.md R196 to R198; log 11). -/
def onImage (x y : Nat) (s : State) (m : Flow State) : Flow State :=
  if x < imgW s ∧ y < imgH s then m else .refused .pixelOutsideImage

/-- PIX.PAL's body (43_composite.md R196, with the index check of R208). -/
def palettePixel (x y : Nat) (s : State) : Flow State :=
  onImage x y s <|
    let sy := sourceRow (imgH s) y
    (sample s.vCol x sy .c s).andThen fun i =>
    if i.toNat ≥ s.nColors.toNat then raise .indexRange none i.toNat s
    else
      (sample s.vPal i.toNat 0 .r s).andThen fun r =>
      (sample s.vPal i.toNat 0 .g s).andThen fun g =>
      (sample s.vPal i.toNat 0 .b s).andThen fun b =>
      (sample s.vMsk x sy .a s).andThen fun m =>
      emit x y r g b (alphaFromMask m) s

/-- PIX.T24's body (43_composite.md R197). -/
def trueColour24Pixel (x y : Nat) (s : State) : Flow State :=
  onImage x y s <|
    let sy := sourceRow (imgH s) y
    (sample s.vCol x sy .r s).andThen fun r =>
    (sample s.vCol x sy .g s).andThen fun g =>
    (sample s.vCol x sy .b s).andThen fun b =>
    (sample s.vMsk x sy .a s).andThen fun m =>
    emit x y r g b (alphaFromMask m) s

/-- PIX.T32's body (43_composite.md R198). -/
def trueColour32Pixel (x y : Nat) (s : State) : Flow State :=
  onImage x y s <|
    let sy := sourceRow (imgH s) y
    (sample s.vCol x sy .r s).andThen fun r =>
    (sample s.vCol x sy .g s).andThen fun g =>
    (sample s.vCol x sy .b s).andThen fun b =>
    (sample s.vCol x sy .a s).andThen fun a =>
    emit x y r g b a s

/-- PIX.PAL X, Y as the sequencer's step (43_composite.md R191, R196). -/
def execPixPal (x y : Nat) (s : State) : Host.Outcome State Fault Refusal :=
  ((palettePixel x y s).andThen fun t => .ok (advancePixel x y t)).outcome

/-- PIX.T24 X, Y as the sequencer's step (43_composite.md R191, R197). -/
def execPixT24 (x y : Nat) (s : State) : Host.Outcome State Fault Refusal :=
  ((trueColour24Pixel x y s).andThen fun t => .ok (advancePixel x y t)).outcome

/-- PIX.T32 X, Y as the sequencer's step (43_composite.md R191, R198). -/
def execPixT32 (x y : Nat) (s : State) : Host.Outcome State Fault Refusal :=
  ((trueColour32Pixel x y s).andThen fun t => .ok (advancePixel x y t)).outcome

/-- The inner loop of R190: `n` pixels of row y from x on, X ascending (43_composite.md R190, R206). -/
def rowLoop (body : Nat → Nat → State → Flow State) (y : Nat) : Nat → Nat → State → Flow State
  | 0, _, s => .ok s
  | n + 1, x, s => (body x y s).andThen fun t => rowLoop body y n (x + 1) t

/-- The outer loop of R190: `n` rows of `w` pixels from row y on, Y ascending. -/
def imageLoop (body : Nat → Nat → State → Flow State) (w : Nat) : Nat → Nat → State → Flow State
  | 0, _, s => .ok s
  | n + 1, y, s => (rowLoop body y w 0 s).andThen fun t => imageLoop body w n (y + 1) t

/-- All pixels, Y from 0 to H - 1 and in each row X from 0 to W - 1, then DONE (43_composite.md R190, R209). -/
def produce (body : Nat → Nat → State → Flow State) (s : State) : Flow State :=
  (imageLoop body (imgW s) (imgH s) 0 s).andThen fun t => .ok (finish t)

/-- The palette path of Decode at a depth: the header is latched, SELECT, the three views end to end, all
pixels (43_composite.md R190, R192, R200 to R203). -/
def decodePalette (depth : Nat) (size clrused : Word) (s : State) : Flow State :=
  (selectPath (latchHeader size.toNat depth clrused.toNat s)).andThen fun s1 =>
  (makeView .pal s1.hdrSize.toNat s1.nColors.toNat 1 32 .bgra s1).andThen fun s2 =>
  (makeView .col (viewEnd s2.vPal) (imgW s2) (imgH s2) depth .c s2).andThen fun s3 =>
  (makeView .msk (viewEnd s3.vCol) (imgW s3) (imgH s3) 1 .a s3).andThen fun s4 =>
  produce palettePixel s4

/-- DEC.P1 (43_composite.md R200). -/
def execDecP1 (size clrused : Word) (s : State) : Host.Outcome State Fault Refusal :=
  (decodePalette 1 size clrused s).outcome

/-- DEC.P2 (43_composite.md R201). -/
def execDecP2 (size clrused : Word) (s : State) : Host.Outcome State Fault Refusal :=
  (decodePalette 2 size clrused s).outcome

/-- DEC.P4 (43_composite.md R202). -/
def execDecP4 (size clrused : Word) (s : State) : Host.Outcome State Fault Refusal :=
  (decodePalette 4 size clrused s).outcome

/-- DEC.P8 (43_composite.md R203). -/
def execDecP8 (size clrused : Word) (s : State) : Host.Outcome State Fault Refusal :=
  (decodePalette 8 size clrused s).outcome

/-- DEC.T24: colour view and mask view, no palette (43_composite.md R190, R193, R204). -/
def execDecT24 (size : Word) (s : State) : Host.Outcome State Fault Refusal :=
  ((selectPath (latchHeader size.toNat 24 0 s)).andThen fun s1 =>
    (makeView .col s1.hdrSize.toNat (imgW s1) (imgH s1) 24 .bgr s1).andThen fun s2 =>
    (makeView .msk (viewEnd s2.vCol) (imgW s2) (imgH s2) 1 .a s2).andThen fun s3 =>
    produce trueColour24Pixel s3).outcome

/-- DEC.T32: the colour view only; no mask is built or read (43_composite.md R190, R193, R205). -/
def execDecT32 (size : Word) (s : State) : Host.Outcome State Fault Refusal :=
  ((selectPath (latchHeader size.toNat 32 0 s)).andThen fun s1 =>
    (makeView .col s1.hdrSize.toNat (imgW s1) (imgH s1) 32 .bgra s1).andThen fun s2 =>
    produce trueColour32Pixel s2).outcome

end Sys2Proof.Machine
end

