-- ==== Sys2Proof/Machine/HostPort.lean ====
section
/-! DEFINITION. The host's side: the commands START and CLEAR (44_host_commands.md), register and memory
accesses (10_state.md R21), and the reset input (70_reset_and_hazards.md R260 to R262). -/

namespace Sys2Proof.Machine

/-- START: ignored while BUSY, else the operands are latched, the views invalidated, STATUS and ERRINFO
cleared, and the header fetch is pending (44_host_commands.md R220, R223). -/
def execStart (s : State) : Host.Outcome State Fault Refusal :=
  if busy s then .next s
  else .next (goto .hdr (clearStatus (invalidateViews (latchOperands s))))

/-- CLEAR: ignored while BUSY, else STATUS and ERRINFO become 0 and the block is idle
(44_host_commands.md R221, R223). -/
def execClear (s : State) : Host.Outcome State Fault Refusal :=
  if busy s then .next s else .next (goto .idle (clearStatus s))

/-- Keep the answer of a read. -/
def answer (w : Word) (s : State) : State := { s with hostData := w }

/-- The answer is a fresh free word (10_state.md R39; log 4). -/
def answerFree (s : State) : State := { s with hostData := freeWord s, draws := s.draws + 1 }

/-- STATUS's PATH is not specified in BUSY and FAULT (10_state.md R23). -/
def pathUnspecified (s : State) : Bool := busy s || s.phase == .fault

/-- The answer is STATUS; where PATH is not specified, its two bits are free (10_state.md R23; log 4). -/
def answerStatus (s : State) : State :=
  if pathUnspecified s then
    { s with hostData := statusWith s ((freeWord s).setWidth 2), draws := s.draws + 1 }
  else answer (statusWord s) s

/-- A read-back register: its value in DONE, a free value in any other state (10_state.md R28, R39). -/
def answerReadBack (w : Word) (s : State) : State :=
  if s.phase = .done then answer w s else answerFree s

/-- A host read of a register (10_state.md R21). -/
def readReg (n : BitVec 4) (s : State) : State :=
  match n.toNat with
  | 0 => answer 0 s
  | 1 => answerStatus s
  | 2 => answer s.errInfo s
  | 3 => answer s.srcLen s
  | 4 => answer s.cfgW s
  | 5 => answer s.cfgH s
  | 6 => answerReadBack s.hdrSize s
  | 7 => answerReadBack s.hdrBitcount s
  | 8 => answerReadBack s.hdrClrused s
  | 9 => answerReadBack s.nColors s
  | _ => answer 0 s

/-- A host write of a register other than CTRL: the three operand registers take it, in any state; it is
ignored elsewhere (10_state.md R21, 44_host_commands.md R223). -/
def writeOperand (n : BitVec 4) (v : Word) (s : State) : State :=
  match n.toNat with
  | 3 => { s with srcLen := v }
  | 4 => { s with cfgW := v }
  | 5 => { s with cfgH := v }
  | _ => s

/-- A host write of one byte of SRC (10_state.md R34). While BUSY the running window may not change
(70_reset_and_hazards.md R265; log 12); no window holds the address 2^32 - 1 (log 13). -/
def writeSrc (a : Word) (b : Byte) (s : State) : Host.Outcome State Fault Refusal :=
  if a.toNat + 1 ≥ 2 ^ 32 then .fault .sourceAddressAbsent
  else if busy s ∧ a.toNat < len s then .refused .hostWritesSourceWhileBusy
  else .next { s with src := s.src.set a.toNat b }

/-- A host read of one byte of OUT: the byte in DONE, a free value in any other state (10_state.md R35,
R39); in DONE an address past W x H x 4 does not exist (log 13). -/
def readOut (a : Nat) (s : State) : Host.Outcome State Fault Refusal :=
  if s.phase = .done then
    if a < outSize s then .next (answer ((s.out.get a).setWidth 32) s) else .fault .outputAddressAbsent
  else .next { s with hostData := ((freeWord s).setWidth 8).setWidth 32, draws := s.draws + 1 }

/-- The reset input, in any state: idle, STATUS and ERRINFO 0, no valid view; every register that R38
leaves unspecified takes a free value (10_state.md R38, 70_reset_and_hazards.md R260 to R262; log 3). SRC is
the host's; OUT keeps bytes that nobody may read before the next DONE. -/
def resetEvent (s : State) : State :=
  let k := s.draws
  goto .idle (invalidateViews (clearStatus
    { s with
      srcLen := Config.freeWord k
      cfgW := Config.freeWord (k + 1)
      cfgH := Config.freeWord (k + 2)
      hdrSize := Config.freeWord (k + 3)
      hdrBitcount := Config.freeWord (k + 4)
      hdrClrused := Config.freeWord (k + 5)
      nColors := Config.freeWord (k + 6)
      lLen := Config.freeWord (k + 7)
      lW := Config.freeWord (k + 8)
      lH := Config.freeWord (k + 9)
      vPal := Config.freeView (k + 10)
      vCol := Config.freeView (k + 11)
      vMsk := Config.freeView (k + 12)
      draws := k + 13 }))

/-- The effect of a host access that issues no command (a CTRL write that issues one is an operation, and a
`yield` is the block's step: Machine/Fetch.lean). -/
def hostAccess (a : HostAccess) (s : State) : Host.Outcome State Fault Refusal :=
  match a with
  | .writeReg n v => .next (writeOperand n v s)
  | .readReg n => .next (readReg n s)
  | .writeSrc a b => writeSrc a b s
  | .readOut a => readOut a s
  | .reset => .next (resetEvent s)
  | .yield => .next s

end Sys2Proof.Machine
end

