-- ==== Sys2Proof/Machine/Dispatch.lean ====
section
/-! DEFINITION. exec: one arm per operation. -/

namespace Sys2Proof.Machine

def exec (i : Instr) (s : State) : Host.Outcome State Fault Refusal :=
  match i with
  | .decP1 size clrused => Sys2Proof.Machine.execDecP1 size clrused s
  | .decP2 size clrused => Sys2Proof.Machine.execDecP2 size clrused s
  | .decP4 size clrused => Sys2Proof.Machine.execDecP4 size clrused s
  | .decP8 size clrused => Sys2Proof.Machine.execDecP8 size clrused s
  | .decT24 size => Sys2Proof.Machine.execDecT24 size s
  | .decT32 size => Sys2Proof.Machine.execDecT32 size s
  | .smp1 slot x y ch => Sys2Proof.Machine.execSmp1 slot x y ch s
  | .smp2 slot x y ch => Sys2Proof.Machine.execSmp2 slot x y ch s
  | .smp4 slot x y ch => Sys2Proof.Machine.execSmp4 slot x y ch s
  | .smpB8 slot x y ch => Sys2Proof.Machine.execSmpB8 slot x y ch s
  | .smpB16 slot x y ch => Sys2Proof.Machine.execSmpB16 slot x y ch s
  | .smpB24 slot x y ch => Sys2Proof.Machine.execSmpB24 slot x y ch s
  | .smpB32 slot x y ch => Sys2Proof.Machine.execSmpB32 slot x y ch s
  | .hdrFetch => Sys2Proof.Machine.execHdrFetch s
  | .select => Sys2Proof.Machine.execSelect s
  | .viewMake slot off width height depth fmt => Sys2Proof.Machine.execViewMake slot off width height depth fmt s
  | .pixPal x y => Sys2Proof.Machine.execPixPal x y s
  | .pixT24 x y => Sys2Proof.Machine.execPixT24 x y s
  | .pixT32 x y => Sys2Proof.Machine.execPixT32 x y s
  | .start => Sys2Proof.Machine.execStart s
  | .clear => Sys2Proof.Machine.execClear s

end Sys2Proof.Machine
end

