-- ==== Sys2Proof/Machine/Fetch.lean ====
section
/-! DEFINITION. Which operation comes next: the host's pending access first, then a pending call of the row
reader, then the sequencer (43_composite.md R191, 44_host_commands.md R222, 30_encoding.md R105 to R108). -/

namespace Sys2Proof.Machine

/-- What the next step is. Each carries the state with its request taken out of the queue. -/
inductive Fetched where
  /-- run an operation -/
  | run (i : Instr) (s : State)
  /-- a host access that issues no command -/
  | host (a : HostAccess) (s : State)
  /-- nothing moves: the block waits for the host (43_composite.md R191) -/
  | wait (s : State)
  /-- the call selects no operation -/
  | reject (r : Refusal)
  deriving DecidableEq, Repr

/-- The first bytes of the payload, as the header fetch sees them. -/
def headerWindow (s : State) : List Byte := (List.range headerBytes).map fun a => s.src.get a

/-- The decode mode the header selects, where the whole header lies in the window (30_encoding.md R106). -/
def headerMode (s : State) : Option Instr :=
  if len s < headerBytes then none
  else
    match decode (.header (headerWindow s)) with
    | .ok i => some i
    | .error _ => none

/-- The operation that P_HDR runs: HDR.FETCH; in the big-step view the whole decode mode where the header
selects one (00_scope.md R15; log 6). A header that selects none goes on with HDR.FETCH and SELECT, which
raise the fault. -/
def headerOperation (s : State) : Instr :=
  match s.grain with
  | .sequencer => .hdrFetch
  | .operation =>
    match headerMode s with
    | some i => i
    | none => .hdrFetch

/-- The VIEW.MAKE of P_VCOL (43_composite.md R190, R192, R193). -/
def colourView (s : State) : Instr :=
  if s.path = .palette then
    .viewMake .col (viewEnd s.vPal) (imgW s) (imgH s) s.hdrBitcount.toNat .c
  else
    .viewMake .col s.hdrSize.toNat (imgW s) (imgH s) s.hdrBitcount.toNat
      (trueColourFmt s.hdrBitcount.toNat)

/-- The pixel body of the path (43_composite.md R190). -/
def pixelOperation (s : State) : Instr :=
  if s.path = .palette then .pixPal s.x s.y
  else if s.hdrBitcount.toNat = 24 then .pixT24 s.x s.y
  else .pixT32 s.x s.y

/-- The operation the sequencer invokes, by phase; none in P_IDLE, P_DONE, P_FAULT (43_composite.md R191). -/
def sequencer (s : State) : Option Instr :=
  match s.phase with
  | .idle => none
  | .hdr => some (headerOperation s)
  | .sel => some .select
  | .vpal => some (.viewMake .pal s.hdrSize.toNat s.nColors.toNat 1 32 .bgra)
  | .vcol => some (colourView s)
  | .vmsk => some (.viewMake .msk (viewEnd s.vCol) (imgW s) (imgH s) 1 .a)
  | .pix => some (pixelOperation s)
  | .done => none
  | .fault => none

/-- The block's own next step: a pending call of the row reader (log 7), else the sequencer's. -/
def fetchBlock (s : State) : Fetched :=
  match s.call with
  | some k =>
    match decodeSample (viewOf k.slot s).depth k with
    | .ok i => .run i (takeCall s)
    | .error _ => .reject (.noSampleMode (viewOf k.slot s).depth)
  | none =>
    match sequencer s with
    | some i => .run i s
    | none => .wait s

/-- A host write of register 0 issues the command its word encodes, if any (30_encoding.md R111). -/
def fetchCtrl (v : Word) (s : State) : Fetched :=
  match decode (.ctrl v) with
  | .ok i => .run i s
  | .error _ => .wait s

/-- The next step: the oldest pending host access, one a step, or the block's own step (log 5). -/
def fetch (s : State) : Fetched :=
  match s.inbox with
  | [] => fetchBlock s
  | a :: rest =>
    match a with
    | .yield => fetchBlock (setInbox rest s)
    | .writeReg n v =>
      if n = 0 then fetchCtrl v (setInbox rest s)
      else .host (.writeReg n v) (setInbox rest s)
    | .readReg n => .host (.readReg n) (setInbox rest s)
    | .writeSrc addr b => .host (.writeSrc addr b) (setInbox rest s)
    | .readOut addr => .host (.readOut addr) (setInbox rest s)
    | .reset => .host .reset (setInbox rest s)

/-- Write consecutive bytes of a memory. -/
def setBytes (m : Memory) (a : Nat) : List Byte → Memory
  | [] => m
  | b :: bs => setBytes (m.set a b) (a + 1) bs

/-- The view a bare VIEWDESC word describes: one pixel at offset 0 (log 8). -/
def tableView (depth : Nat) : View := mkView 0 1 1 depth .c

/-- A window long enough for the longest palette a bare bitcount word selects, 256 entries of 4 bytes
(log 8). -/
def tableWindow : Nat := 1024

/-- At least n bytes of window. -/
def atLeast (n : Nat) (w : Word) : Word := if w.toNat < n then BitVec.ofNat 32 n else w

/-- Place an encoding where the next step fetches it (log 8): a CTRL word as the host's pending write; a
header in SRC with the header fetch pending in the big-step view; a depth field in the called slot's
descriptor with the call pending. -/
def placeEncoding (e : Encoding) (s : State) : State :=
  match e with
  | .ctrl w => { s with inbox := .writeReg 0 w :: s.inbox }
  | .header bytes =>
    { s with
      inbox := [], call := none, grain := .operation, phase := .hdr
      lLen := atLeast (max bytes.length tableWindow) s.lLen
      src := setBytes s.src 0 bytes }
  | .viewDesc depth k =>
    { setView k.slot (tableView depth.toNat) s with
      inbox := [], call := some k, lLen := atLeast 4 s.lLen }

/-- Place an opcode-table word (log 8); a width that is no encoding's places nothing. -/
def placeWord (s : State) (nbits w : Nat) : State :=
  match tableEncoding nbits w with
  | some e => placeEncoding e s
  | none => s

end Sys2Proof.Machine
end

