-- ==== Sys2Proof/Machine/Step.lean ====
section
/-! DEFINITION. One step of the machine (43_composite.md R191), and the placing of an opcode-table word. -/

namespace Sys2Proof.Machine

/-- Do what was fetched: the operation, the host access, or nothing. -/
def runFetched (f : Fetched) : Host.Outcome State Fault Refusal :=
  match f with
  | .run i t => exec i t
  | .host a t => hostAccess a t
  | .wait t => .next t
  | .reject r => .refused r

/-- One step: fetch, then do what was fetched. -/
def step (s : State) : Host.Outcome State Fault Refusal := runFetched (fetch s)

/-- The state with an opcode-table word where the next step fetches it (log 8). -/
def State.withFetchWord (s : State) (nbits w : Nat) : State := placeWord s nbits w

end Sys2Proof.Machine
end

