-- ==== Sys2Proof/Safety.lean ====
section
/-! DEFINITION. What every reachable state looks like: the invariant `BlockInv`, in five parts, each from the
rules it cites. -/

namespace Sys2Proof.Machine

/-- The palette view of the running operation (43_composite.md R192). -/
def paletteView (s : State) : View := mkView s.hdrSize.toNat s.nColors.toNat 1 32 .bgra

/-- The colour view of the running operation (43_composite.md R192, R193). -/
def colourPlane (s : State) : View :=
  if s.path = .palette then
    mkView (viewEnd (paletteView s)) (imgW s) (imgH s) s.hdrBitcount.toNat .c
  else
    mkView s.hdrSize.toNat (imgW s) (imgH s) s.hdrBitcount.toNat (trueColourFmt s.hdrBitcount.toNat)

/-- The mask view of the running operation (43_composite.md R192, R193). -/
def maskPlane (s : State) : View := mkView (viewEnd (colourPlane s)) (imgW s) (imgH s) 1 .a

/-- The modes with a mask view: the palette path and depth 24 (40_view.md R136). -/
def hasMask (s : State) : Prop := s.path = .palette ∨ s.hdrBitcount.toNat = 24

/-- The phases after SELECT has admitted the header, up to DONE. -/
def selected (p : Phase) : Bool :=
  match p with
  | .vpal | .vcol | .vmsk | .pix | .done => true
  | .idle | .hdr | .sel | .fault => false

/-- Both memories are in canonical form. -/
def MemoryOk (s : State) : Prop := s.src.wf ∧ s.out.wf

/-- STATUS and ERRINFO (10_state.md R23, R24): no fault is recorded outside FAULT, one is in FAULT, ERRVIEW
goes with TruncatedData, PATH is 0 until SELECT, palette in P_VPAL, and a path in DONE. -/
def StatusOk (s : State) : Prop :=
  (s.phase ≠ .fault → s.err = .none ∧ s.errInfo = 0) ∧
  (s.phase = .fault → s.err ≠ .none) ∧
  (s.errView ≠ none ↔ s.err = .truncatedData) ∧
  (s.phase = .idle ∨ s.phase = .hdr ∨ s.phase = .sel → s.path = .none) ∧
  (s.phase = .vpal → s.path = .palette) ∧
  (selected s.phase → s.path ≠ .none)

/-- The header latches: HDR_BITCOUNT is below 2^16 once fetched (10_state.md R28); once selected, NCOLORS is
the derived count and the path admits the depth (42_select.md R171 to R174). -/
def HeaderOk (s : State) : Prop :=
  (s.phase = .sel ∨ selected s.phase → s.hdrBitcount.toNat < 2 ^ 16) ∧
  (selected s.phase →
    s.nColors.toNat = paletteCount s.hdrBitcount.toNat s.hdrClrused.toNat ∧
    (s.path = .palette → s.nColors.toNat ≠ 0 ∧ paletteDepth s.hdrBitcount.toNat) ∧
    (s.path = .trueColour → s.nColors.toNat = 0 ∧ trueColourDepth s.hdrBitcount.toNat))

/-- A valid descriptor lies inside the window, has the stride and size of its dimensions, and is one of the
admitted combinations (10_state.md R31, R33). -/
def ViewsOk (s : State) : Prop :=
  ∀ slot, (viewOf slot s).valid = true →
    let v := viewOf slot s
    v = mkView v.off v.width v.height v.depth v.fmt ∧ v.off + v.size ≤ len s ∧
    admittedView slot v.depth v.fmt = true

/-- pc and the views agree (43_composite.md R191 to R193): Y and X are in the picture in P_PIX, and each phase
has exactly the views that were built before it. -/
def PcOk (s : State) : Prop :=
  (s.phase = .pix → s.y < imgH s ∧ s.x < imgW s) ∧
  (s.phase = .hdr ∨ s.phase = .sel ∨ s.phase = .vpal →
    s.vPal.valid = false ∧ s.vCol.valid = false ∧ s.vMsk.valid = false) ∧
  (s.phase = .vcol → s.vCol.valid = false ∧ s.vMsk.valid = false) ∧
  (s.phase = .vmsk → hasMask s ∧ s.vMsk.valid = false) ∧
  (s.phase = .vcol ∨ s.phase = .vmsk ∨ s.phase = .pix ∨ s.phase = .done →
    (s.path = .palette → s.vPal = paletteView s) ∧ (s.path ≠ .palette → s.vPal.valid = false)) ∧
  (s.phase = .vmsk ∨ s.phase = .pix ∨ s.phase = .done → s.vCol = colourPlane s) ∧
  (s.phase = .pix ∨ s.phase = .done →
    (hasMask s → s.vMsk = maskPlane s) ∧ (¬hasMask s → s.vMsk.valid = false))

/-- The invariant that every step keeps. -/
structure BlockInv (s : State) : Prop where
  memory : MemoryOk s
  status : StatusOk s
  header : HeaderOk s
  views : ViewsOk s
  pc : PcOk s

end Sys2Proof.Machine
end

