-- ==== Sys2Proof/Certificates/Slice0/Obligations.lean ====
section
/-! DEFINITION. The statements for the provers: what the rules of the spec say of the operations, of the
sequencer, of the host's accesses and of whole operations. -/

namespace Sys2Proof.Machine

/-! ### Terms of the statements, written as the rules write them -/

/-- `SRC[a]` as a natural. -/
def srcByte (s : State) (a : Nat) : Nat := (s.src.get a).toNat

/-- The u16 at a, little-endian (20_memory.md R62). -/
def le16 (s : State) (a : Nat) : Nat := srcByte s a + 256 * srcByte s (a + 1)

/-- The u32 at a, little-endian (20_memory.md R62). -/
def le32 (s : State) (a : Nat) : Nat :=
  srcByte s a + 256 * srcByte s (a + 1) + 65536 * srcByte s (a + 2) + 16777216 * srcByte s (a + 3)

/-- The third expression of `Stride` in 40_view.md R131. -/
def rowBytes (width depth : Nat) : Nat := (width * depth + 31) / 32 * 4

/-- The lane that pixel x of stored row sy has at a depth of 1, 2, 4 or 8 in a plane of width W that starts at
off: the one formula of 41_sample.md R162. -/
def laneAt (s : State) (depth off x sy : Nat) : Nat :=
  srcByte s (off + sy * rowBytes (imgW s) depth + x / (8 / depth))
    / 2 ^ (8 - depth - x % (8 / depth) * depth) % 2 ^ depth

/-- The alpha of a mask bit (43_composite.md R195). -/
def alphaOfBit (m : Nat) : Nat := if m = 1 then 0 else 255

/-- The four bytes of output pixel (x, y) are r, g, b, a (30_encoding.md R102, 20_memory.md R72). -/
def PixelIs (t : State) (x y r g b a : Nat) : Prop :=
  let o := (y * imgW t + x) * 4
  (t.out.get o).toNat = r ∧ (t.out.get (o + 1)).toNat = g ∧ (t.out.get (o + 2)).toNat = b ∧
  (t.out.get (o + 3)).toNat = a

/-- Output pixel (x, y) of t is the palette path's, from the bytes of s (43_composite.md R196). -/
def PalettePixelIs (s t : State) (depth palOff colOff mskOff x y : Nat) : Prop :=
  let sy := imgH s - 1 - y
  let i := laneAt s depth colOff x sy
  PixelIs t x y (srcByte s (palOff + 4 * i + 2)) (srcByte s (palOff + 4 * i + 1)) (srcByte s (palOff + 4 * i))
    (alphaOfBit (laneAt s 1 mskOff x sy))

/-- Output pixel (x, y) of t is depth 24's, from the bytes of s (43_composite.md R197). -/
def Pixel24Is (s t : State) (colOff mskOff x y : Nat) : Prop :=
  let sy := imgH s - 1 - y
  let p := colOff + sy * rowBytes (imgW s) 24 + 3 * x
  PixelIs t x y (srcByte s (p + 2)) (srcByte s (p + 1)) (srcByte s p) (alphaOfBit (laneAt s 1 mskOff x sy))

/-- Output pixel (x, y) of t is depth 32's, from the bytes of s (43_composite.md R198). -/
def Pixel32Is (s t : State) (colOff x y : Nat) : Prop :=
  let p := colOff + (imgH s - 1 - y) * (4 * imgW s) + 4 * x
  PixelIs t x y (srcByte s (p + 2)) (srcByte s (p + 1)) (srcByte s p) (srcByte s (p + 3))

/-- Every byte of both memories reads as before. -/
def SameBytes (s t : State) : Prop := ∀ a, t.src.get a = s.src.get a ∧ t.out.get a = s.out.get a

/-- Every byte of SRC, and every byte of OUT outside the four of pixel (x, y), reads as before. -/
def SameBytesButPixel (s t : State) (x y : Nat) : Prop :=
  (∀ a, t.src.get a = s.src.get a) ∧
  ∀ a, ¬(outAddr (imgW s) x y ≤ a ∧ a < outAddr (imgW s) x y + 4) → t.out.get a = s.out.get a

/-- Every byte of SRC, and every byte of OUT outside the operation's W x H x 4, reads as before. -/
def SameBytesButPicture (s t : State) : Prop :=
  (∀ a, t.src.get a = s.src.get a) ∧ ∀ a, imgW s * imgH s * 4 ≤ a → t.out.get a = s.out.get a

/-- The depth of a decode mode on the palette path, with its operation. -/
def paletteMode (depth : Nat) (size clrused : Word) (i : Instr) : Prop :=
  (depth = 1 ∧ i = .decP1 size clrused) ∨ (depth = 2 ∧ i = .decP2 size clrused) ∨
  (depth = 4 ∧ i = .decP4 size clrused) ∨ (depth = 8 ∧ i = .decP8 size clrused)

/-- The six decode modes. -/
def decodeMode (i : Instr) : Prop :=
  (∃ d size clrused, paletteMode d size clrused i) ∨ (∃ size, i = .decT24 size) ∨ ∃ size, i = .decT32 size

/-- Where the colour plane of the palette path starts (43_composite.md R192). -/
def palColOff (size clrused : Word) (depth : Nat) : Nat := size.toNat + 4 * paletteCount depth clrused.toNat

/-- Where the plane after a colour plane starts (40_view.md R135). -/
def planeEnd (s : State) (off depth : Nat) : Nat := off + rowBytes (imgW s) depth * imgH s

/-- A view that lies in the window with the stride and size of its dimensions (10_state.md R31). -/
def ViewReady (s : State) (v : View) (depth : Nat) : Prop :=
  v = mkView v.off v.width v.height depth v.fmt ∧ v.off + v.size ≤ len s

/-- The fields of a STATUS word but PATH are those of the state, in the numbers of 10_state.md R23 and R30 and
60_exceptions.md R230. -/
def StatusFields (s : State) (w : Word) : Prop :=
  let n := w.toNat
  (s.phase = .idle → n % 4 = 0) ∧ (s.phase ∈ [.hdr, .sel, .vpal, .vcol, .vmsk, .pix] → n % 4 = 1) ∧
  (s.phase = .done → n % 4 = 2) ∧ (s.phase = .fault → n % 4 = 3) ∧ n / 4 % 4 = 0 ∧
  (s.err = .none → n / 16 % 16 = 0) ∧ (s.err = .outOfBounds → n / 16 % 16 = 1) ∧
  (s.err = .unsupportedColorDepth → n / 16 % 16 = 2) ∧ (s.err = .truncatedData → n / 16 % 16 = 3) ∧
  (s.err = .indexRange → n / 16 % 16 = 4) ∧
  (s.errView = none → n / 256 % 4 = 0) ∧ (s.errView = some .pal → n / 256 % 4 = 1) ∧
  (s.errView = some .col → n / 256 % 4 = 2) ∧ (s.errView = some .msk → n / 256 % 4 = 3) ∧ n / 4096 = 0

/-- Apply a function to the next state of an outcome. -/
def onNext (f : State → State) : Host.Outcome State Fault Refusal → Host.Outcome State Fault Refusal
  | .next t => .next (f t)
  | .fault r => .fault r
  | .refused r => .refused r

/-- The pixel after (x, y) in row-major order, or the end (43_composite.md R191). -/
def NextPixel (s t : State) (x y : Nat) : Prop :=
  (x + 1 < imgW s → t.phase = .pix ∧ t.y = y ∧ t.x = x + 1) ∧
  (x + 1 = imgW s → y + 1 < imgH s → t.phase = .pix ∧ t.y = y + 1 ∧ t.x = 0) ∧
  (x + 1 = imgW s → y + 1 = imgH s → t.phase = .done)

/-- After the last view (43_composite.md R191): the first pixel, or the end where W x H = 0. -/
def FirstPixel (s t : State) : Prop :=
  (imgW s * imgH s > 0 → t.phase = .pix ∧ t.y = 0 ∧ t.x = 0) ∧ (imgW s * imgH s = 0 → t.phase = .done)

end Sys2Proof.Machine

open Sys2Proof Sys2Proof.Machine

/-! ### Reset and the invariant -/

/-- 70_reset_and_hazards.md R261, 10_state.md R38, 60_exceptions.md R236: after reset the block is idle, STATUS
and ERRINFO read 0, no view is valid, the outputs are low, and it starts nothing by itself: with no host access
pending it stays as it is. The values R38 leaves unspecified (log 2) are not part of the statement. -/
def Obligations.ResetLeavesIdleNoFaultNoView : Prop :=
  State.reset.phase = .idle ∧ statusWord State.reset = 0 ∧ State.reset.errInfo = 0 ∧
  (∀ k, (viewOf k State.reset).valid = false) ∧
  busyOut State.reset = false ∧ doneOut State.reset = false ∧ faultOut State.reset = false ∧
  step State.reset = .next State.reset

/-- The invariant holds at reset. -/
def Obligations.InvHoldsAtReset : Prop := BlockInv State.reset

/-- Every step keeps the invariant, whatever moves: the block, the host, or the reset input. -/
def Obligations.StepKeepsInv : Prop := ∀ s t, BlockInv s → step s = .next t → BlockInv t

/-! ### Decoding -/

/-- A step runs the decoded operation. 30_encoding.md R111, 44_host_commands.md R222: a CTRL write runs its command;
that it waits in the inbox, one access a step, is the model's choice (log 5). 30_encoding.md R107: a pending call runs
the sample mode of the view's depth; a Sample as a step of its own is the model's choice (log 7), since
44_host_commands.md R224 gives nobody such a command. 30_encoding.md R106, 00_scope.md R15: in P_HDR the header's
decode mode runs as one step; that State.grain asks for it is the model's choice (log 6). 43_composite.md R191: in
every other case the step runs what the sequencer invokes. Around exec the step takes the request out. -/
def Obligations.StepRunsDecodedOperation : Prop :=
  (∀ s w rest i, s.inbox = .writeReg 0 w :: rest → decode (.ctrl w) = .ok i →
    step s = exec i { s with inbox := rest }) ∧
  (∀ s k i, s.inbox = [] → s.call = some k → (viewOf k.slot s).depth < 256 →
    decode (.viewDesc (BitVec.ofNat 8 (viewOf k.slot s).depth) k) = .ok i → step s = exec i { s with call := none }) ∧
  (∀ s i, s.inbox = [] → s.call = none → s.phase = .hdr → s.grain = .operation → 36 ≤ len s →
    decode (.header ((List.range 36).map fun a => s.src.get a)) = .ok i → step s = exec i s) ∧
  (∀ s i, s.inbox = [] → s.call = none → sequencer s = some i → step s = exec i s)

/-- Words written out from the spec's encodings decode to what they stand for: the headers of programs P1, P3 and
P7a (95_test_vectors.md), a depth field of 2, and CTRL words (30_encoding.md R106, R107, R111). -/
def Obligations.WrittenWordsDecode : Prop :=
  decode (.header [0x28, 0, 0, 0, 2, 0, 0, 0, 4, 0, 0, 0, 1, 0, 4, 0, 0, 0, 0, 0, 0, 0, 0, 0, 0, 0, 0, 0, 0, 0,
    0, 0, 0, 0, 0, 0]) = .ok (.decP4 40 0) ∧
  decode (.header [0x28, 0, 0, 0, 2, 0, 0, 0, 4, 0, 0, 0, 1, 0, 0x18, 0, 0, 0, 0, 0, 0, 0, 0, 0, 0, 0, 0, 0, 0,
    0, 0, 0, 0, 0, 0, 0]) = .ok (.decT24 40) ∧
  decode (.header [0x28, 0, 0, 0, 2, 0, 0, 0, 2, 0, 0, 0, 1, 0, 8, 0, 0, 0, 0, 0, 0, 0, 0, 0, 0, 0, 0, 0, 0, 0,
    0, 0, 2, 0, 0, 0]) = .ok (.decP8 40 2) ∧
  decode (.viewDesc 2 { slot := .col, x := 3, y := 0, ch := .c }) = .ok (.smp2 .col 3 0 .c) ∧
  decode (.ctrl 0x00000001) = .ok .start ∧ decode (.ctrl 0x00000002) = .ok .clear ∧
  decode (.ctrl 0x00000003) = .ok .start

/-- Decode and encode agree: every operation that has an encoding is decoded from it, with every operand, and the
operations without one are those the sequencer invokes (30_encoding.md R105 to R108). -/
def Obligations.DecodeOfEncodeIsTheOperation : Prop :=
  ∀ i, i.wellFormed = true →
    (∀ e, encode i = some e → decode e = .ok i) ∧
    (encode i = none ↔ i = .hdrFetch ∨ i = .select ∨ (∃ k o w h d f, i = .viewMake k o w h d f) ∨
      (∃ x y, i = .pixPal x y) ∨ (∃ x y, i = .pixT24 x y) ∨ ∃ x y, i = .pixT32 x y)

/-- 30_encoding.md R106: which decode mode a header of at least 36 bytes selects, by bitcount and colorsUsed, and
that every other pair selects none. -/
def Obligations.HeaderSelectsModeByTable : Prop :=
  ∀ bytes : List Byte, 36 ≤ bytes.length →
    let byte (a : Nat) : Nat := (bytes.getD a 0).toNat
    let size := byte 0 + 256 * byte 1 + 65536 * byte 2 + 16777216 * byte 3
    let bitcount := byte 14 + 256 * byte 15
    let clrused := byte 32 + 256 * byte 33 + 65536 * byte 34 + 16777216 * byte 35
    let hs := BitVec.ofNat 32 size
    let cu := BitVec.ofNat 32 clrused
    (bitcount = 1 → decode (.header bytes) = .ok (.decP1 hs cu)) ∧
    (bitcount = 2 → decode (.header bytes) = .ok (.decP2 hs cu)) ∧
    (bitcount = 4 → decode (.header bytes) = .ok (.decP4 hs cu)) ∧
    (bitcount = 8 → decode (.header bytes) = .ok (.decP8 hs cu)) ∧
    (bitcount = 24 → clrused = 0 → decode (.header bytes) = .ok (.decT24 hs)) ∧
    (bitcount = 32 → clrused = 0 → decode (.header bytes) = .ok (.decT32 hs)) ∧
    ((bitcount = 24 ∨ bitcount = 32) → clrused ≠ 0 →
      decode (.header bytes) = .error (.unsupportedColorDepth bitcount)) ∧
    (bitcount ∉ [1, 2, 4, 8, 24, 32] → decode (.header bytes) = .error (.unsupportedColorDepth bitcount))

/-- 30_encoding.md R92: HDR.FETCH answers alike on two windows that agree on bytes 0 to 3, 14, 15 and 32 to 35,
whatever the other bytes hold. -/
def Obligations.HeaderFetchReadsThreeFieldsOnly : Prop :=
  ∀ s m, (∀ a ∈ [0, 1, 2, 3, 14, 15, 32, 33, 34, 35], Memory.get m a = s.src.get a) →
    exec .hdrFetch { s with src := m } = onNext (fun t => { t with src := m }) (exec .hdrFetch s)

/-! ### Host commands -/

/-- 44_host_commands.md R222: a CTRL write with bit 0 set is START whatever bit 1 and bits 31:2 hold, one with bit
1 alone is CLEAR, and one with neither does nothing. -/
def Obligations.CtrlWordSelectsCommand : Prop :=
  ∀ s w rest, s.inbox = .writeReg 0 w :: rest →
    (w.getLsbD 0 = true → step s = exec .start { s with inbox := rest }) ∧
    (w.getLsbD 0 = false → w.getLsbD 1 = true → step s = exec .clear { s with inbox := rest }) ∧
    (w.getLsbD 0 = false → w.getLsbD 1 = false → step s = .next { s with inbox := rest })

/-- 44_host_commands.md R220: START outside BUSY latches the operands, invalidates the views, clears STATUS's fields
and ERRINFO and sets pc to P_HDR, so STATUS reads BUSY; nothing else changes. -/
def Obligations.StartLatchesOperands : Prop :=
  ∀ s, s.phase = .idle ∨ s.phase = .done ∨ s.phase = .fault →
    ∃ t, exec .start s = .next t ∧ statusWord t = 1 ∧ SameBytes s t ∧
      t = { s with
        lLen := s.srcLen, lW := s.cfgW, lH := s.cfgH
        vPal := { s.vPal with valid := false }, vCol := { s.vCol with valid := false }
        vMsk := { s.vMsk with valid := false }
        err := .none, errView := none, path := .none, errInfo := 0
        phase := .hdr, y := t.y, x := t.x }

/-- 44_host_commands.md R221: CLEAR outside BUSY sets STATUS and ERRINFO to 0 and pc to P_IDLE; nothing else
changes. -/
def Obligations.ClearReturnsToIdle : Prop :=
  ∀ s, s.phase = .idle ∨ s.phase = .done ∨ s.phase = .fault →
    ∃ t, exec .clear s = .next t ∧ statusWord t = 0 ∧ t.errInfo = 0 ∧ SameBytes s t ∧
      t = { s with
        err := .none, errView := none, path := .none, errInfo := 0, phase := .idle, y := t.y, x := t.x }

/-- 44_host_commands.md R223: while BUSY both commands are ignored, and a write of SRC_LEN, CFG_W or CFG_H reaches
its register but not the latches. -/
def Obligations.BusyIgnoresCommands : Prop :=
  ∀ s, busy s = true →
    exec .start s = .next s ∧ exec .clear s = .next s ∧
    (∀ w rest, s.inbox = .writeReg 3 w :: rest → step s = .next { s with srcLen := w, inbox := rest }) ∧
    (∀ w rest, s.inbox = .writeReg 4 w :: rest → step s = .next { s with cfgW := w, inbox := rest }) ∧
    (∀ w rest, s.inbox = .writeReg 5 w :: rest → step s = .next { s with cfgH := w, inbox := rest })

/-! ### Header fetch and selection -/

/-- 42_select.md R170: with LEN at least 36, HDR.FETCH latches the three little-endian fields, HDR_BITCOUNT
zero-extended, and goes to P_SEL; nothing else changes. -/
def Obligations.HdrFetchLatchesFields : Prop :=
  ∀ s, 36 ≤ len s →
    ∃ t, exec .hdrFetch s = .next t ∧
      t.hdrSize.toNat = le32 s 0 ∧ t.hdrBitcount.toNat = le16 s 14 ∧ t.hdrClrused.toNat = le32 s 32 ∧
      t.phase = .sel ∧ SameBytes s t ∧
      t = { s with
        hdrSize := t.hdrSize, hdrBitcount := t.hdrBitcount, hdrClrused := t.hdrClrused
        phase := .sel, y := t.y, x := t.x }

/-- 60_exceptions.md R231, 42_select.md R170: with LEN below 36, HDR.FETCH ends in OutOfBounds with the offset of
the first read that does not fit, 0, 14 or 32; nothing else changes. That a fetch which fails at its second or third
read latches none of the three fields, although R170 writes each before the next read, is the model's reading of
60_exceptions.md R239 (log 9). -/
def Obligations.HdrFetchShortWindowOutOfBounds : Prop :=
  ∀ s, len s < 36 →
    ∃ t, exec .hdrFetch s = .next t ∧ t.phase = .fault ∧ t.err = .outOfBounds ∧ t.errView = none ∧
      (len s < 4 → t.errInfo = 0) ∧ (4 ≤ len s → len s < 16 → t.errInfo = 14) ∧
      (16 ≤ len s → t.errInfo = 32) ∧ SameBytes s t ∧
      t = { s with
        phase := .fault, y := t.y, x := t.x, err := t.err, errView := t.errView, errInfo := t.errInfo }

/-- 42_select.md R171 to R174: SELECT admits bitcount 1, 2, 4, 8 with any colorsUsed on the palette path and 24, 32
with colorsUsed 0 on the true-colour path, derives NCOLORS (R171), and goes to the path's first view; every other
pair ends in UnsupportedColorDepth with the declared bitcount. Nothing else changes; that NCOLORS too is unchanged
there, although R172 assigns it before the check and R177 lists it, is the model's reading of 60_exceptions.md R239
(log 9). -/
def Obligations.SelectAdmitsOrFaults : Prop :=
  ∀ s,
    let b := s.hdrBitcount.toNat
    let c := s.hdrClrused.toNat
    (b ∈ [1, 2, 4, 8] → ∃ t, exec .select s = .next t ∧
      t.nColors.toNat = (if c = 0 then 2 ^ b else c) ∧ SameBytes s t ∧
      t = { s with nColors := t.nColors, path := .palette, phase := .vpal, y := t.y, x := t.x }) ∧
    (b ∈ [24, 32] → c = 0 → ∃ t, exec .select s = .next t ∧ SameBytes s t ∧
      t = { s with nColors := 0, path := .trueColour, phase := .vcol, y := t.y, x := t.x }) ∧
    (b ∉ [1, 2, 4, 8, 24, 32] ∨ (b ∈ [24, 32] ∧ c ≠ 0) → ∃ t, exec .select s = .next t ∧
      t.errInfo.toNat = b ∧ SameBytes s t ∧
      t = { s with
        phase := .fault, y := t.y, x := t.x, err := .unsupportedColorDepth, errView := none
        errInfo := t.errInfo })

/-! ### Views -/

/-- 40_view.md R130 to R133: VIEW.MAKE compares off + Stride x height with LEN exactly. Where it fits, the slot gets
the descriptor and pc moves on as 43_composite.md R191 says; where it does not, TruncatedData with the slot and off.
Nothing else changes. -/
def Obligations.ViewMakeBuildsOrTruncates : Prop :=
  ∀ s k off w h d f,
    (off + rowBytes w d * h ≤ len s →
      ∃ t, exec (.viewMake k off w h d f) s = .next t ∧
        viewOf k t = { valid := true, off := off, width := w, height := h, depth := d, fmt := f
                       stride := rowBytes w d, size := rowBytes w d * h } ∧
        (∀ l, l ≠ k → viewOf l t = viewOf l s) ∧
        (k = .pal → t.phase = .vcol) ∧
        (k = .col → (s.path = .palette ∨ s.hdrBitcount.toNat = 24) → t.phase = .vmsk) ∧
        (k = .col → ¬(s.path = .palette ∨ s.hdrBitcount.toNat = 24) → FirstPixel s t) ∧
        (k = .msk → FirstPixel s t) ∧ SameBytes s t ∧
        t = { s with
          vPal := t.vPal, vCol := t.vCol, vMsk := t.vMsk, phase := t.phase, y := t.y, x := t.x }) ∧
    (len s < off + rowBytes w d * h →
      ∃ t, exec (.viewMake k off w h d f) s = .next t ∧ t.errInfo = BitVec.ofNat 32 off ∧ SameBytes s t ∧
        t = { s with
          phase := .fault, y := t.y, x := t.x, err := .truncatedData, errView := some k
          errInfo := t.errInfo })

/-- 40_view.md R131, R138: the three expressions of Stride are equal, it is a multiple of 4, at least the row's
bytes and less than 4 above them, 0 at width 0 and monotone in the width; the closed forms at the block's depths. -/
def Obligations.StrideFacts : Prop :=
  ∀ w d,
    stride w d = ((w * d + 7) / 8 + 3) / 4 * 4 ∧ stride w d = (w * d + 31) / 32 * 4 ∧
    stride w d % 4 = 0 ∧ ceilDiv (w * d) 8 ≤ stride w d ∧ stride w d < ceilDiv (w * d) 8 + 4 ∧
    stride 0 d = 0 ∧ (∀ v, w ≤ v → stride w d ≤ stride v d) ∧
    stride w 1 = (w + 31) / 32 * 4 ∧ stride w 2 = (w + 15) / 16 * 4 ∧ stride w 4 = (w + 7) / 8 * 4 ∧
    stride w 8 = (w + 3) / 4 * 4 ∧ stride w 24 = (3 * w + 3) / 4 * 4 ∧ stride w 32 = 4 * w

/-- 10_state.md R32: a descriptor that is valid does not change, whatever step is taken, but that a CTRL write with
START or the reset input may make it invalid. -/
def Obligations.ValidViewIsImmutable : Prop :=
  ∀ s t k, BlockInv s → step s = .next t → (viewOf k s).valid = true →
    viewOf k t = viewOf k s ∨
    ((viewOf k t).valid = false ∧ ∃ rest,
      s.inbox = .reset :: rest ∨ ∃ w : Word, w.getLsbD 0 = true ∧ s.inbox = .writeReg 0 w :: rest)

/-! ### Samples -/

/-- 41_sample.md R151 to R153: inside a view of the window, SMP.1, SMP.2 and SMP.4 return the pixel's bit-field of
the covering byte, smallest x in the most significant bits, as an unsigned value. Of the state, only the model's own
`sampled` changes (log 7). -/
def Obligations.SubByteSampleIsBitField : Prop :=
  ∀ s k x y ch, (viewOf k s).valid = true → x < (viewOf k s).width → y < (viewOf k s).height →
    ch ∈ fmtLetters (viewOf k s).fmt →
    let row := (viewOf k s).off + y * (viewOf k s).stride
    (ViewReady s (viewOf k s) 1 → ∃ t, exec (.smp1 k x y ch) s = .next t ∧
      t.sampled.toNat = srcByte s (row + x / 8) / 2 ^ (7 - x % 8) % 2 ∧ SameBytes s t ∧
      t = { s with sampled := t.sampled }) ∧
    (ViewReady s (viewOf k s) 2 → ∃ t, exec (.smp2 k x y ch) s = .next t ∧
      t.sampled.toNat = srcByte s (row + x / 4) / 2 ^ (6 - x % 4 * 2) % 4 ∧ SameBytes s t ∧
      t = { s with sampled := t.sampled }) ∧
    (ViewReady s (viewOf k s) 4 → ∃ t, exec (.smp4 k x y ch) s = .next t ∧
      t.sampled.toNat = srcByte s (row + x / 2) / 2 ^ (4 - x % 2 * 4) % 16 ∧ SameBytes s t ∧
      t = { s with sampled := t.sampled })

/-- 41_sample.md R154 to R158: inside a view of the window, SMP.B8, SMP.B16, SMP.B24 and SMP.B32 return the
channel's byte, at x times the pixel's bytes plus the channel's position; the format has no more letters than the
pixel has bytes (10_state.md R33, R155). Of the state, only the model's own `sampled` changes (log 7). -/
def Obligations.WholeByteSampleIsChannelByte : Prop :=
  ∀ s k x y ch, (viewOf k s).valid = true → x < (viewOf k s).width → y < (viewOf k s).height →
    ch ∈ fmtLetters (viewOf k s).fmt →
    let row := (viewOf k s).off + y * (viewOf k s).stride
    let letters := (fmtLetters (viewOf k s).fmt).length
    let i := channelIdx (viewOf k s).fmt ch
    (ViewReady s (viewOf k s) 8 → letters ≤ 1 → ∃ t, exec (.smpB8 k x y ch) s = .next t ∧
      t.sampled = s.src.get (row + x + i) ∧ SameBytes s t ∧ t = { s with sampled := t.sampled }) ∧
    (ViewReady s (viewOf k s) 16 → letters ≤ 2 → ∃ t, exec (.smpB16 k x y ch) s = .next t ∧
      t.sampled = s.src.get (row + 2 * x + i) ∧ SameBytes s t ∧ t = { s with sampled := t.sampled }) ∧
    (ViewReady s (viewOf k s) 24 → letters ≤ 3 → ∃ t, exec (.smpB24 k x y ch) s = .next t ∧
      t.sampled = s.src.get (row + 3 * x + i) ∧ SameBytes s t ∧ t = { s with sampled := t.sampled }) ∧
    (ViewReady s (viewOf k s) 32 → letters ≤ 4 → ∃ t, exec (.smpB32 k x y ch) s = .next t ∧
      t.sampled = s.src.get (row + 4 * x + i) ∧ SameBytes s t ∧ t = { s with sampled := t.sampled })

/-- 41_sample.md R161, R150: Sample has no value outside its preconditions (an invalid view, x or y outside the
grid, a channel not in the format) and each mode is for one depth: elsewhere every sample mode refuses, and a call on
a view of a depth with no mode is refused (the refusals' names are the model's, log 11). -/
def Obligations.SampleRefusesOutsidePreconditions : Prop :=
  (∀ s k x y ch, ∀ p ∈ [(1, Instr.smp1 k x y ch), (2, .smp2 k x y ch), (4, .smp4 k x y ch), (8, .smpB8 k x y ch),
      (16, .smpB16 k x y ch), (24, .smpB24 k x y ch), (32, .smpB32 k x y ch)],
    ((viewOf k s).valid = false → exec p.2 s = .refused .sampleViewInvalid) ∧
    ((viewOf k s).valid = true → (viewOf k s).depth ≠ p.1 → exec p.2 s = .refused .sampleDepthMismatch) ∧
    ((viewOf k s).valid = true → (viewOf k s).depth = p.1 → (viewOf k s).width ≤ x ∨ (viewOf k s).height ≤ y →
      exec p.2 s = .refused .sampleOutsideGrid) ∧
    ((viewOf k s).valid = true → (viewOf k s).depth = p.1 → x < (viewOf k s).width → y < (viewOf k s).height →
      ch ∉ fmtLetters (viewOf k s).fmt → exec p.2 s = .refused .sampleChannelNotInFormat)) ∧
  ∀ s k, s.inbox = [] → s.call = some k → (viewOf k.slot s).depth ∉ [1, 2, 4, 8, 16, 24, 32] →
    step s = .refused (.noSampleMode (viewOf k.slot s).depth)

/-- 00_scope.md R16: a sample whose byte lies at or beyond LEN is never read: the model stops there by name (log 13).
No state that meets the invariant has such a view (BlockStepNeverStops). -/
def Obligations.SampleStopsAtWindowEnd : Prop :=
  ∀ s k x y ch, (viewOf k s).valid = true → x < (viewOf k s).width → y < (viewOf k s).height →
    ch ∈ fmtLetters (viewOf k s).fmt →
    let row := (viewOf k s).off + y * (viewOf k s).stride
    let i := channelIdx (viewOf k s).fmt ch
    let d := (viewOf k s).depth
    (d = 1 → len s ≤ row + x / 8 → exec (.smp1 k x y ch) s = .fault .sourceAddressOutsideWindow) ∧
    (d = 2 → len s ≤ row + x / 4 → exec (.smp2 k x y ch) s = .fault .sourceAddressOutsideWindow) ∧
    (d = 4 → len s ≤ row + x / 2 → exec (.smp4 k x y ch) s = .fault .sourceAddressOutsideWindow) ∧
    (d = 8 → len s ≤ row + x + i → exec (.smpB8 k x y ch) s = .fault .sourceAddressOutsideWindow) ∧
    (d = 16 → len s ≤ row + 2 * x + i → exec (.smpB16 k x y ch) s = .fault .sourceAddressOutsideWindow) ∧
    (d = 24 → len s ≤ row + 3 * x + i → exec (.smpB24 k x y ch) s = .fault .sourceAddressOutsideWindow) ∧
    (d = 32 → len s ≤ row + 4 * x + i → exec (.smpB32 k x y ch) s = .fault .sourceAddressOutsideWindow)

/-! ### The per-pixel bodies -/

/-- 43_composite.md R196, R194, R195, R199: in P_PIX on the palette path, PIX.PAL at a pixel whose index is below
NCOLORS writes the entry's R, G, B and the mask's alpha, reading stored row H - 1 - Y, and goes to the next pixel;
no other byte and no other register changes. -/
def Obligations.PixPalWritesPaletteColour : Prop :=
  ∀ s x y, BlockInv s → s.phase = .pix → s.path = .palette → x < imgW s → y < imgH s →
    let d := s.hdrBitcount.toNat
    let colOff := s.hdrSize.toNat + 4 * s.nColors.toNat
    laneAt s d colOff x (imgH s - 1 - y) < s.nColors.toNat →
    ∃ t, exec (.pixPal x y) s = .next t ∧
      PalettePixelIs s t d s.hdrSize.toNat colOff (planeEnd s colOff d) x y ∧ NextPixel s t x y ∧
      SameBytesButPixel s t x y ∧
      t = { s with out := t.out, phase := t.phase, y := t.y, x := t.x }

/-- 43_composite.md R208, 60_exceptions.md R234: an index that is not below NCOLORS ends PIX.PAL in IndexRange with
the index; no byte is written and no other register changes. -/
def Obligations.PixPalIndexRange : Prop :=
  ∀ s x y, BlockInv s → s.phase = .pix → s.path = .palette → x < imgW s → y < imgH s →
    let i := laneAt s s.hdrBitcount.toNat (s.hdrSize.toNat + 4 * s.nColors.toNat) x (imgH s - 1 - y)
    s.nColors.toNat ≤ i →
    ∃ t, exec (.pixPal x y) s = .next t ∧ t.errInfo.toNat = i ∧ SameBytes s t ∧
      t = { s with
        phase := .fault, y := t.y, x := t.x, err := .indexRange, errView := none, errInfo := t.errInfo }

/-- 43_composite.md R197, R194, R195, R199: in P_PIX at depth 24, PIX.T24 writes the stored R, G, B of row H - 1 - Y
and the mask's alpha, and goes to the next pixel; no other byte and no other register changes. -/
def Obligations.PixT24WritesColourAndMask : Prop :=
  ∀ s x y, BlockInv s → s.phase = .pix → s.path = .trueColour → s.hdrBitcount.toNat = 24 →
    x < imgW s → y < imgH s →
    ∃ t, exec (.pixT24 x y) s = .next t ∧
      Pixel24Is s t s.hdrSize.toNat (planeEnd s s.hdrSize.toNat 24) x y ∧ NextPixel s t x y ∧
      SameBytesButPixel s t x y ∧
      t = { s with out := t.out, phase := t.phase, y := t.y, x := t.x }

/-- 43_composite.md R198, R194, R199: in P_PIX at depth 32, PIX.T32 writes the stored R, G, B and A of row H - 1 - Y,
and goes to the next pixel; no other byte and no other register changes. -/
def Obligations.PixT32CopiesColourAndAlpha : Prop :=
  ∀ s x y, BlockInv s → s.phase = .pix → s.path = .trueColour → s.hdrBitcount.toNat = 32 →
    x < imgW s → y < imgH s →
    ∃ t, exec (.pixT32 x y) s = .next t ∧
      Pixel32Is s t s.hdrSize.toNat x y ∧ NextPixel s t x y ∧ SameBytesButPixel s t x y ∧
      t = { s with out := t.out, phase := t.phase, y := t.y, x := t.x }

/-- 43_composite.md R196 to R198: a pixel body's operands are X below W and Y below H; outside the picture the model
refuses (log 11). -/
def Obligations.PixelOutsidePictureRefused : Prop :=
  ∀ s x y, imgW s ≤ x ∨ imgH s ≤ y →
    exec (.pixPal x y) s = .refused .pixelOutsideImage ∧ exec (.pixT24 x y) s = .refused .pixelOutsideImage ∧
    exec (.pixT32 x y) s = .refused .pixelOutsideImage

/-! ### The decode modes -/

/-- 43_composite.md R200 to R203, R210 (c): DEC.P1, DEC.P2, DEC.P4, DEC.P8 on a payload that holds all three views
and whose indices are all below NCOLORS end in DONE with every pixel of OUT the palette's colour and the mask's
alpha; no other byte and no other register changes. The premise on OUT is the canonical form every step keeps. -/
def Obligations.PaletteModesProduceThePicture : Prop :=
  ∀ s d size clrused i, paletteMode d size clrused i → s.out.wf →
    let n := paletteCount d clrused.toNat
    let colOff := palColOff size clrused d
    let mskOff := planeEnd s colOff d
    planeEnd s mskOff 1 ≤ len s →
    (∀ x y, x < imgW s → y < imgH s → laneAt s d colOff x (imgH s - 1 - y) < n) →
    ∃ t, exec i s = .next t ∧
      (∀ x y, x < imgW s → y < imgH s → PalettePixelIs s t d size.toNat colOff mskOff x y) ∧
      SameBytesButPicture s t ∧
      t = { s with
        phase := .done, y := t.y, x := t.x, path := .palette
        hdrSize := size, hdrBitcount := BitVec.ofNat 32 d, hdrClrused := clrused, nColors := BitVec.ofNat 32 n
        vPal := mkView size.toNat n 1 32 .bgra
        vCol := mkView colOff (imgW s) (imgH s) d .c
        vMsk := mkView mskOff (imgW s) (imgH s) 1 .a
        out := t.out }

/-- 43_composite.md R204, R210 (b): DEC.T24 on a payload that holds both views ends in DONE with every pixel the
stored colour and the mask's alpha. -/
def Obligations.T24ProducesThePicture : Prop :=
  ∀ s size, s.out.wf →
    let mskOff := planeEnd s size.toNat 24
    planeEnd s mskOff 1 ≤ len s →
    ∃ t, exec (.decT24 size) s = .next t ∧
      (∀ x y, x < imgW s → y < imgH s → Pixel24Is s t size.toNat mskOff x y) ∧ SameBytesButPicture s t ∧
      t = { s with
        phase := .done, y := t.y, x := t.x, path := .trueColour
        hdrSize := size, hdrBitcount := 24, hdrClrused := 0, nColors := 0
        vCol := mkView size.toNat (imgW s) (imgH s) 24 .bgr
        vMsk := mkView mskOff (imgW s) (imgH s) 1 .a
        out := t.out }

/-- 43_composite.md R205, R210 (a): DEC.T32 on a payload of at least headerSize + 4 x W x H bytes ends in DONE with
every pixel's four bytes the stored ones, the first and third exchanged. -/
def Obligations.T32ProducesThePicture : Prop :=
  ∀ s size, s.out.wf → size.toNat + 4 * imgW s * imgH s ≤ len s →
    ∃ t, exec (.decT32 size) s = .next t ∧
      (∀ x y, x < imgW s → y < imgH s → Pixel32Is s t size.toNat x y) ∧ SameBytesButPicture s t ∧
      t = { s with
        phase := .done, y := t.y, x := t.x, path := .trueColour
        hdrSize := size, hdrBitcount := 32, hdrClrused := 0, nColors := 0
        vCol := mkView size.toNat (imgW s) (imgH s) 32 .bgra
        out := t.out }

/-- 60_exceptions.md R233, R237: a decode mode whose payload is too short ends in TruncatedData for the first view
that does not fit, PAL before COL before MSK, with that view's offset, and no byte of OUT is written. -/
def Obligations.TruncationNamesFirstView : Prop :=
  (∀ s d size clrused i, paletteMode d size clrused i →
    let colOff := palColOff size clrused d
    let mskOff := planeEnd s colOff d
    (len s < colOff → ∃ t, exec i s = .next t ∧ SameBytes s t ∧ t.phase = .fault ∧ t.err = .truncatedData ∧
      t.errView = some .pal ∧ t.errInfo.toNat = size.toNat) ∧
    (colOff ≤ len s → len s < mskOff → ∃ t, exec i s = .next t ∧ SameBytes s t ∧ t.phase = .fault ∧
      t.err = .truncatedData ∧ t.errView = some .col ∧ t.errInfo.toNat = colOff) ∧
    (mskOff ≤ len s → len s < planeEnd s mskOff 1 → ∃ t, exec i s = .next t ∧ SameBytes s t ∧
      t.phase = .fault ∧ t.err = .truncatedData ∧ t.errView = some .msk ∧ t.errInfo.toNat = mskOff)) ∧
  (∀ s size,
    let mskOff := planeEnd s size.toNat 24
    (len s < mskOff → ∃ t, exec (.decT24 size) s = .next t ∧ SameBytes s t ∧ t.phase = .fault ∧
      t.err = .truncatedData ∧ t.errView = some .col ∧ t.errInfo.toNat = size.toNat) ∧
    (mskOff ≤ len s → len s < planeEnd s mskOff 1 → ∃ t, exec (.decT24 size) s = .next t ∧ SameBytes s t ∧
      t.phase = .fault ∧ t.err = .truncatedData ∧ t.errView = some .msk ∧ t.errInfo.toNat = mskOff)) ∧
  (∀ s size, len s < size.toNat + 4 * imgW s * imgH s → ∃ t, exec (.decT32 size) s = .next t ∧ SameBytes s t ∧
    t.phase = .fault ∧ t.err = .truncatedData ∧ t.errView = some .col ∧ t.errInfo.toNat = size.toNat)

/-- 60_exceptions.md R237, R239: where some index is not below NCOLORS, a palette mode ends in IndexRange at the
first such pixel in row-major output order, with its index; the pixels before it are written and no byte from its
address on is. -/
def Obligations.IndexRangeAtFirstOffendingPixel : Prop :=
  ∀ s d size clrused i x0 y0, paletteMode d size clrused i → s.out.wf →
    let n := paletteCount d clrused.toNat
    let colOff := palColOff size clrused d
    let mskOff := planeEnd s colOff d
    planeEnd s mskOff 1 ≤ len s → x0 < imgW s → y0 < imgH s →
    n ≤ laneAt s d colOff x0 (imgH s - 1 - y0) →
    (∀ x y, x < imgW s → (y < y0 ∨ (y = y0 ∧ x < x0)) → laneAt s d colOff x (imgH s - 1 - y) < n) →
    ∃ t, exec i s = .next t ∧ t.phase = .fault ∧ t.err = .indexRange ∧ t.errView = none ∧
      t.errInfo.toNat = laneAt s d colOff x0 (imgH s - 1 - y0) ∧
      (∀ x y, x < imgW s → (y < y0 ∨ (y = y0 ∧ x < x0)) →
        PalettePixelIs s t d size.toNat colOff mskOff x y) ∧
      (∀ a, outAddr (imgW s) x0 y0 ≤ a → t.out.get a = s.out.get a)

/-- 43_composite.md R208: with colorsUsed 0 the palette has 2^bitcount entries and every index is in range, so a
palette mode on a payload that holds its views ends in DONE. -/
def Obligations.FullPaletteNeverIndexRange : Prop :=
  ∀ s d size i, paletteMode d size 0 i →
    planeEnd s (planeEnd s (size.toNat + 4 * 2 ^ d) d) 1 ≤ len s →
    ∃ t, exec i s = .next t ∧ t.phase = .done ∧ t.nColors.toNat = 2 ^ d

/-- 43_composite.md R212, 40_view.md R137 (a): with W = 0 or H = 0 every view of the mode is still constructed, and no
pixel is produced. A palette mode ends in DONE with PAL, COL and MSK built where the palette fits, else in
TruncatedData in PAL; DEC.T24 in DONE with COL and MSK, and DEC.T32 with COL, where headerSize is at most LEN, else in
TruncatedData in COL. OUT has length 0 and no byte of it changes. -/
def Obligations.EmptyPictureEndsWithoutPixels : Prop :=
  ∀ s size, imgW s = 0 ∨ imgH s = 0 →
    (∀ d clrused i, paletteMode d size clrused i →
      let n := paletteCount d clrused.toNat
      let off := palColOff size clrused d
      (off ≤ len s → ∃ t, exec i s = .next t ∧ SameBytes s t ∧ outSize t = 0 ∧ t.phase = .done ∧
        t.vPal = mkView size.toNat n 1 32 .bgra ∧ t.vCol = mkView off (imgW s) (imgH s) d .c ∧
        t.vMsk = mkView off (imgW s) (imgH s) 1 .a) ∧
      (len s < off → ∃ t, exec i s = .next t ∧ SameBytes s t ∧ outSize t = 0 ∧ t.phase = .fault ∧
        t.err = .truncatedData ∧ t.errView = some .pal ∧ t.errInfo = size)) ∧
    (size.toNat ≤ len s →
      (∃ t, exec (.decT24 size) s = .next t ∧ SameBytes s t ∧ outSize t = 0 ∧ t.phase = .done ∧ t.vPal = s.vPal ∧
        t.vCol = mkView size.toNat (imgW s) (imgH s) 24 .bgr ∧
        t.vMsk = mkView size.toNat (imgW s) (imgH s) 1 .a) ∧
      ∃ t, exec (.decT32 size) s = .next t ∧ SameBytes s t ∧ outSize t = 0 ∧ t.phase = .done ∧ t.vPal = s.vPal ∧
        t.vCol = mkView size.toNat (imgW s) (imgH s) 32 .bgra ∧ t.vMsk = s.vMsk) ∧
    (len s < size.toNat → ∀ i, i = .decT24 size ∨ i = .decT32 size →
      ∃ t, exec i s = .next t ∧ SameBytes s t ∧ outSize t = 0 ∧ t.phase = .fault ∧ t.err = .truncatedData ∧
        t.errView = some .col ∧ t.errInfo = size)

/-- 70_reset_and_hazards.md R264, 43_composite.md R200 to R205, R208: a decode mode always ends in DONE or in
TruncatedData, or, on the palette path with colorsUsed from 1 to 2^depth - 1, in IndexRange, in every state and for
every header; it never stops the model. -/
def Obligations.DecodeModesAlwaysEnd : Prop :=
  ∀ s i, decodeMode i →
    ∃ t, exec i s = .next t ∧
      (t.phase = .done ∨ (t.phase = .fault ∧ (t.err = .truncatedData ∨
        (t.err = .indexRange ∧ ∃ d size clrused, paletteMode d size clrused i ∧
          0 < clrused.toNat ∧ clrused.toNat < 2 ^ d))))

/-! ### Whole operations -/

/-- 00_scope.md R15, 43_composite.md R191 (the field that tells the two views apart is the model's, log 6): the
sequencer's single steps reach, within 5 + W x H of them, exactly the
state that the big step of the header's decode mode answers: the same OUT, or the same fault, view and information
word, and every other register alike. -/
def Obligations.SequencerRefinesDecodeMode : Prop :=
  ∀ s i t, s.inbox = [] → s.call = none → s.phase = .hdr → headerMode s = some i → exec i s = .next t →
    ∃ k, k ≤ 5 + imgW s * imgH s ∧
      Sys2Proof.core.run k { s with grain := .sequencer } = .next { t with grain := .sequencer }

/-- 70_reset_and_hazards.md R271: from any BUSY state that meets the invariant, a block left alone is in DONE or in
FAULT after at most 5 + W x H steps; and in P_PIX, W x H is at most 8 x LEN. -/
def Obligations.EveryOperationEnds : Prop :=
  (∀ s, BlockInv s → busy s = true → s.inbox = [] → s.call = none →
    ∃ k t, k ≤ 5 + imgW s * imgH s ∧ Sys2Proof.core.run k s = .next t ∧ (t.phase = .done ∨ t.phase = .fault)) ∧
  (∀ s, BlockInv s → s.phase = .pix → imgW s * imgH s ≤ 8 * len s)

/-- 43_composite.md R191, 20_memory.md R73: in every state that meets the invariant, with nothing pending, the
block's own step answers a next state: it is never stuck, never reads outside the window and never writes outside
OUT (each of those would stop the model), and it never leaves BUSY for IDLE. -/
def Obligations.BlockStepNeverStops : Prop :=
  ∀ s, BlockInv s → s.inbox = [] → s.call = none → ∃ t, step s = .next t ∧ (busy s = true → t.phase ≠ .idle)

/-- 43_composite.md R191, 60_exceptions.md R240: in P_IDLE, P_DONE and P_FAULT nothing moves until the host does. -/
def Obligations.NothingMovesOutsideBusy : Prop :=
  ∀ s, s.inbox = [] → s.call = none → (s.phase = .idle ∨ s.phase = .done ∨ s.phase = .fault) → step s = .next s

/-- 60_exceptions.md R230, R238: a sequencer step that ends in FAULT is one row of the fault table, with its code,
view and information word, and changes nothing but STATUS, ERRINFO and pc. That a faulting SELECT leaves NCOLORS,
although 42_select.md R172 assigns it before the check and R177 lists it, and that a faulting HDR.FETCH leaves the
header latches, is the model's reading of 60_exceptions.md R239 (log 9). -/
def Obligations.RaisedFaultIsATableRow : Prop :=
  ∀ s t, BlockInv s → busy s = true → s.inbox = [] → s.call = none → s.grain = .sequencer → step s = .next t →
    t.phase = .fault →
    t = { s with
      phase := .fault, y := t.y, x := t.x, err := t.err, errView := t.errView, errInfo := t.errInfo } ∧
    ((s.phase = .hdr ∧ t.err = .outOfBounds ∧ t.errView = none ∧ len s < 36 ∧
        t.errInfo.toNat = (if len s < 4 then 0 else if len s < 16 then 14 else 32)) ∨
     (s.phase = .sel ∧ t.err = .unsupportedColorDepth ∧ t.errView = none ∧ t.errInfo = s.hdrBitcount ∧
        (s.hdrBitcount.toNat ∉ [1, 2, 4, 8, 24, 32] ∨
          (s.hdrBitcount.toNat ∈ [24, 32] ∧ s.hdrClrused.toNat ≠ 0))) ∨
     (s.phase = .vpal ∧ t.err = .truncatedData ∧ t.errView = some .pal ∧ len s < viewEnd (paletteView s) ∧
        t.errInfo = s.hdrSize) ∨
     (s.phase = .vcol ∧ t.err = .truncatedData ∧ t.errView = some .col ∧ len s < viewEnd (colourPlane s) ∧
        t.errInfo.toNat = (colourPlane s).off) ∨
     (s.phase = .vmsk ∧ t.err = .truncatedData ∧ t.errView = some .msk ∧ len s < viewEnd (maskPlane s) ∧
        t.errInfo.toNat = (maskPlane s).off) ∨
     (s.phase = .pix ∧ t.err = .indexRange ∧ t.errView = none ∧ s.path = .palette ∧
        t.errInfo.toNat = laneAt s s.hdrBitcount.toNat (colourPlane s).off s.x (imgH s - 1 - s.y) ∧
        s.nColors.toNat ≤ t.errInfo.toNat))

/-- 00_scope.md R16: no operation writes SRC, reads OUT, reads a byte of SRC at or beyond LEN, or does I/O of its
own (the host's pending accesses and answers, which are the model's fields of log 5, stay as they are). That it never
reads OUT: with any other contents m of OUT in canonical form it ends alike, and each byte of OUT is either the same
after both or is one that neither wrote. -/
def Obligations.BlockAccessDiscipline : Prop :=
  ∀ i s,
    (∀ t, exec i s = .next t → t.src = s.src ∧ t.inbox = s.inbox ∧ t.hostData = s.hostData) ∧
    (∀ m, (∀ a, a < len s → Memory.get m a = s.src.get a) →
      exec i { s with src := m } = onNext (fun t => { t with src := m }) (exec i s)) ∧
    (∀ m, match exec i s, exec i { s with out := m } with
      | .next t, .next u => u = { t with out := u.out } ∧
          (s.out.wf → m.wf → ∀ a, u.out.get a = t.out.get a ∨
            (t.out.get a = s.out.get a ∧ u.out.get a = Memory.get m a))
      | .fault f, .fault g => f = g
      | .refused r, .refused q => r = q
      | _, _ => False)

/-- 70_reset_and_hazards.md R264: no operation writes outside OUT[0 .. W x H x 4 - 1]. The premise is the canonical
form every step keeps. -/
def Obligations.WritesOnlyInsideOut : Prop :=
  ∀ i s t, s.out.wf → exec i s = .next t →
    ∀ a, imgW s * imgH s * 4 ≤ a → t.out.get a = s.out.get a

/-- 00_scope.md R3: two blocks with any past, given the same SRC[0 .. LEN-1], LEN, W and H and then a START, are after
every number of steps in the same phase with the same fault, view and information word, and in DONE show the same
read-back registers, path and OUT bytes. -/
def Obligations.ResultDependsOnInputsOnly : Prop :=
  ∀ s u, busy s = false → busy u = false → s.inbox = [.writeReg 0 1] → u.inbox = [.writeReg 0 1] →
    s.call = none → u.call = none → s.grain = u.grain → s.out.wf → u.out.wf →
    s.srcLen = u.srcLen → s.cfgW = u.cfgW → s.cfgH = u.cfgH →
    (∀ a, a < s.srcLen.toNat → s.src.get a = u.src.get a) →
    ∀ k t, 1 ≤ k → Sys2Proof.core.run k s = .next t →
      ∃ v, Sys2Proof.core.run k u = .next v ∧
        v.phase = t.phase ∧ v.err = t.err ∧ v.errView = t.errView ∧ v.errInfo = t.errInfo ∧
        (t.phase = .done → v.path = t.path ∧ v.hdrSize = t.hdrSize ∧ v.hdrBitcount = t.hdrBitcount ∧
          v.hdrClrused = t.hdrClrused ∧ v.nColors = t.nColors ∧
          ∀ a, a < s.cfgW.toNat * s.cfgH.toNat * 4 → v.out.get a = t.out.get a)

/-! ### The host's accesses -/

/-- 70_reset_and_hazards.md R260 to R262: the reset input, in any state, leaves the block idle with STATUS and
ERRINFO 0, no view valid, the outputs low and SRC as it was. The registers R38 leaves unspecified take free values
(log 3), of which nothing is said. -/
def Obligations.ResetInputAbandonsOperation : Prop :=
  ∀ s rest, s.inbox = .reset :: rest →
    ∃ t, step s = .next t ∧ t.phase = .idle ∧ statusWord t = 0 ∧ t.errInfo = 0 ∧
      (∀ k, (viewOf k t).valid = false) ∧
      busyOut t = false ∧ doneOut t = false ∧ faultOut t = false ∧ t.src = s.src ∧ t.inbox = rest

/-- 10_state.md R21 to R28, R39: what a host read of each of the sixteen registers answers in every state, the free
values included (log 4); nothing but the answer and the count of draws changes. -/
def Obligations.HostReadAnswers : Prop :=
  ∀ s n rest, s.inbox = .readReg n :: rest →
    ∃ t, step s = .next t ∧
      t = { s with inbox := rest, hostData := t.hostData, draws := t.draws } ∧
      (n.toNat = 0 → t.hostData = 0) ∧
      (n.toNat = 1 → s.phase = .idle ∨ s.phase = .done → t.hostData = statusWord s) ∧
      (n.toNat = 1 → busy s = true ∨ s.phase = .fault →
        t.hostData = statusWith s ((Config.freeWord s.draws).setWidth 2) ∧ t.draws = s.draws + 1) ∧
      (n.toNat = 2 → t.hostData = s.errInfo) ∧
      (n.toNat = 3 → t.hostData = s.srcLen) ∧
      (n.toNat = 4 → t.hostData = s.cfgW) ∧
      (n.toNat = 5 → t.hostData = s.cfgH) ∧
      (s.phase = .done →
        (n.toNat = 6 → t.hostData = s.hdrSize) ∧ (n.toNat = 7 → t.hostData = s.hdrBitcount) ∧
        (n.toNat = 8 → t.hostData = s.hdrClrused) ∧ (n.toNat = 9 → t.hostData = s.nColors)) ∧
      (s.phase ≠ .done → 6 ≤ n.toNat → n.toNat ≤ 9 →
        t.hostData = Config.freeWord s.draws ∧ t.draws = s.draws + 1) ∧
      (10 ≤ n.toNat → t.hostData = 0)

/-- 10_state.md R21: a host write reaches SRC_LEN, CFG_W and CFG_H in every state and is ignored at every other
register but CTRL. -/
def Obligations.HostWriteReachesOperandsOnly : Prop :=
  ∀ s n w rest, s.inbox = .writeReg n w :: rest → n ≠ 0 →
    (n = 3 → step s = .next { s with inbox := rest, srcLen := w }) ∧
    (n = 4 → step s = .next { s with inbox := rest, cfgW := w }) ∧
    (n = 5 → step s = .next { s with inbox := rest, cfgH := w }) ∧
    (n ≠ 3 → n ≠ 4 → n ≠ 5 → step s = .next { s with inbox := rest })

/-- 10_state.md R34, 70_reset_and_hazards.md R265: a host write of SRC changes that byte and no other, unless the
block is BUSY and the byte is in its window, where the host has no such move (log 12), or the address does not exist
(log 13). -/
def Obligations.HostWritesOneSourceByte : Prop :=
  ∀ s a b rest, s.src.wf → s.inbox = .writeSrc a b :: rest →
    (a.toNat < 2 ^ 32 - 1 → (busy s = false ∨ len s ≤ a.toNat) → ∃ t, step s = .next t ∧
      t.src.get a.toNat = b ∧ (∀ c, c ≠ a.toNat → t.src.get c = s.src.get c) ∧
      t = { s with inbox := rest, src := t.src }) ∧
    (a.toNat < 2 ^ 32 - 1 → busy s = true → a.toNat < len s → step s = .refused .hostWritesSourceWhileBusy) ∧
    (a.toNat = 2 ^ 32 - 1 → step s = .fault .sourceAddressAbsent)

/-- 10_state.md R35, R39: a host read of OUT answers the stored byte in DONE, and any value in every other state
(log 4); in DONE an address past the buffer does not exist (log 13). -/
def Obligations.HostReadsOutOnlyInDone : Prop :=
  ∀ s a rest, s.inbox = .readOut a :: rest →
    (s.phase = .done → a < imgW s * imgH s * 4 →
      step s = .next { s with inbox := rest, hostData := (s.out.get a).setWidth 32 }) ∧
    (s.phase = .done → imgW s * imgH s * 4 ≤ a → step s = .fault .outputAddressAbsent) ∧
    (s.phase ≠ .done →
      step s = .next { s with
        inbox := rest, hostData := ((Config.freeWord s.draws).setWidth 8).setWidth 32, draws := s.draws + 1 })

/-! ### Status and primitives -/

/-- 10_state.md R23, R30, 60_exceptions.md R230, 30_encoding.md R112: the number in each field of the STATUS word, the
PATH bits whatever they are where R23 leaves them open, and R112's worked values, those of BUSY and FAULT with the
PATH bits masked off. -/
def Obligations.StatusWordFromFields : Prop :=
  (∀ s, StatusFields s (statusWord s) ∧ ∀ p, StatusFields s (statusWith s p) ∧
    (statusWith s p).toNat / 1024 % 4 = p.toNat) ∧
  (∀ s, (s.path = .none → (statusWord s).toNat / 1024 % 4 = 0) ∧
    (s.path = .palette → (statusWord s).toNat / 1024 % 4 = 1) ∧
    (s.path = .trueColour → (statusWord s).toNat / 1024 % 4 = 2)) ∧
  (∀ s, s.err = .none → s.errView = none →
    (s.phase = .idle → s.path = .none → statusWord s = 0x00000000) ∧
    (s.phase ∈ [.hdr, .sel, .vpal, .vcol, .vmsk, .pix] →
      statusWord s &&& 0xFFFFF3FF = 0x00000001 ∧ ∀ p, statusWith s p &&& 0xFFFFF3FF = 0x00000001) ∧
    (s.phase = .done → s.path = .palette → statusWord s = 0x00000402) ∧
    (s.phase = .done → s.path = .trueColour → statusWord s = 0x00000802)) ∧
  (∀ s, s.phase = .fault → s.err = .truncatedData → s.errView = some .col →
    statusWord s &&& 0xFFFFF3FF = 0x00000233 ∧ ∀ p, statusWith s p &&& 0xFFFFF3FF = 0x00000233)

/-- 60_exceptions.md R236: the three level outputs mirror STATUS.STATE. -/
def Obligations.LevelOutputsMirrorState : Prop :=
  ∀ s, (busyOut s = true ↔ (statusWord s).toNat % 4 = 1) ∧ (doneOut s = true ↔ (statusWord s).toNat % 4 = 2) ∧
    (faultOut s = true ↔ (statusWord s).toNat % 4 = 3)

/-- 20_memory.md R61: MemRead of 1, 2 or 4 bytes checks the whole access against LEN, raises OutOfBounds with the
address where it does not fit, and else is the little-endian natural, below 2^(8n). -/
def Obligations.MemReadIsLittleEndianAndChecked : Prop :=
  ∀ s a,
    (∀ n, n = 1 ∨ n = 2 ∨ n = 4 → len s < a + n →
      ∃ t, memRead a n s = .raised t ∧ t = { s with
        phase := .fault, y := t.y, x := t.x, err := .outOfBounds, errView := none, errInfo := BitVec.ofNat 32 a }) ∧
    (a + 1 ≤ len s → memRead a 1 s = .ok (srcByte s a)) ∧
    (a + 2 ≤ len s → memRead a 2 s = .ok (le16 s a)) ∧
    (a + 4 ≤ len s → memRead a 4 s = .ok (le32 s a)) ∧
    (∀ n v, memRead a n s = .ok v → v < 2 ^ (8 * n))
end

