-- ==== Sys2Proof/Laws/State.lean ====
section
/-! SUPPORT. What each named update of State does to each field: one lemma a field, so that no later proof
unfolds a record update. -/

namespace Sys2Proof.Machine

/-! ### goto -/

@[simp] theorem goto_phase (p : Phase) (s : State) : (goto p s).phase = p := rfl
@[simp] theorem goto_y (p : Phase) (s : State) : (goto p s).y = 0 := rfl
@[simp] theorem goto_x (p : Phase) (s : State) : (goto p s).x = 0 := rfl
@[simp] theorem goto_err (p : Phase) (s : State) : (goto p s).err = s.err := rfl
@[simp] theorem goto_errView (p : Phase) (s : State) : (goto p s).errView = s.errView := rfl
@[simp] theorem goto_path (p : Phase) (s : State) : (goto p s).path = s.path := rfl
@[simp] theorem goto_errInfo (p : Phase) (s : State) : (goto p s).errInfo = s.errInfo := rfl
@[simp] theorem goto_srcLen (p : Phase) (s : State) : (goto p s).srcLen = s.srcLen := rfl
@[simp] theorem goto_cfgW (p : Phase) (s : State) : (goto p s).cfgW = s.cfgW := rfl
@[simp] theorem goto_cfgH (p : Phase) (s : State) : (goto p s).cfgH = s.cfgH := rfl
@[simp] theorem goto_hdrSize (p : Phase) (s : State) : (goto p s).hdrSize = s.hdrSize := rfl
@[simp] theorem goto_hdrBitcount (p : Phase) (s : State) : (goto p s).hdrBitcount = s.hdrBitcount := rfl
@[simp] theorem goto_hdrClrused (p : Phase) (s : State) : (goto p s).hdrClrused = s.hdrClrused := rfl
@[simp] theorem goto_nColors (p : Phase) (s : State) : (goto p s).nColors = s.nColors := rfl
@[simp] theorem goto_lLen (p : Phase) (s : State) : (goto p s).lLen = s.lLen := rfl
@[simp] theorem goto_lW (p : Phase) (s : State) : (goto p s).lW = s.lW := rfl
@[simp] theorem goto_lH (p : Phase) (s : State) : (goto p s).lH = s.lH := rfl
@[simp] theorem goto_vPal (p : Phase) (s : State) : (goto p s).vPal = s.vPal := rfl
@[simp] theorem goto_vCol (p : Phase) (s : State) : (goto p s).vCol = s.vCol := rfl
@[simp] theorem goto_vMsk (p : Phase) (s : State) : (goto p s).vMsk = s.vMsk := rfl
@[simp] theorem goto_src (p : Phase) (s : State) : (goto p s).src = s.src := rfl
@[simp] theorem goto_out (p : Phase) (s : State) : (goto p s).out = s.out := rfl
@[simp] theorem goto_inbox (p : Phase) (s : State) : (goto p s).inbox = s.inbox := rfl
@[simp] theorem goto_hostData (p : Phase) (s : State) : (goto p s).hostData = s.hostData := rfl
@[simp] theorem goto_grain (p : Phase) (s : State) : (goto p s).grain = s.grain := rfl
@[simp] theorem goto_call (p : Phase) (s : State) : (goto p s).call = s.call := rfl
@[simp] theorem goto_sampled (p : Phase) (s : State) : (goto p s).sampled = s.sampled := rfl
@[simp] theorem goto_draws (p : Phase) (s : State) : (goto p s).draws = s.draws := rfl
@[simp] theorem goto_len (p : Phase) (s : State) : len (goto p s) = len s := by simp [len]
@[simp] theorem goto_imgW (p : Phase) (s : State) : imgW (goto p s) = imgW s := by simp [imgW]
@[simp] theorem goto_imgH (p : Phase) (s : State) : imgH (goto p s) = imgH s := by simp [imgH]
@[simp] theorem goto_outSize (p : Phase) (s : State) : outSize (goto p s) = outSize s := by simp [outSize, imgW, imgH]

/-! ### gotoPixel -/

@[simp] theorem gotoPixel_phase (j i : Nat) (s : State) : (gotoPixel j i s).phase = .pix := rfl
@[simp] theorem gotoPixel_y (j i : Nat) (s : State) : (gotoPixel j i s).y = j := rfl
@[simp] theorem gotoPixel_x (j i : Nat) (s : State) : (gotoPixel j i s).x = i := rfl
@[simp] theorem gotoPixel_err (j i : Nat) (s : State) : (gotoPixel j i s).err = s.err := rfl
@[simp] theorem gotoPixel_errView (j i : Nat) (s : State) : (gotoPixel j i s).errView = s.errView := rfl
@[simp] theorem gotoPixel_path (j i : Nat) (s : State) : (gotoPixel j i s).path = s.path := rfl
@[simp] theorem gotoPixel_errInfo (j i : Nat) (s : State) : (gotoPixel j i s).errInfo = s.errInfo := rfl
@[simp] theorem gotoPixel_srcLen (j i : Nat) (s : State) : (gotoPixel j i s).srcLen = s.srcLen := rfl
@[simp] theorem gotoPixel_cfgW (j i : Nat) (s : State) : (gotoPixel j i s).cfgW = s.cfgW := rfl
@[simp] theorem gotoPixel_cfgH (j i : Nat) (s : State) : (gotoPixel j i s).cfgH = s.cfgH := rfl
@[simp] theorem gotoPixel_hdrSize (j i : Nat) (s : State) : (gotoPixel j i s).hdrSize = s.hdrSize := rfl
@[simp] theorem gotoPixel_hdrBitcount (j i : Nat) (s : State) : (gotoPixel j i s).hdrBitcount = s.hdrBitcount := rfl
@[simp] theorem gotoPixel_hdrClrused (j i : Nat) (s : State) : (gotoPixel j i s).hdrClrused = s.hdrClrused := rfl
@[simp] theorem gotoPixel_nColors (j i : Nat) (s : State) : (gotoPixel j i s).nColors = s.nColors := rfl
@[simp] theorem gotoPixel_lLen (j i : Nat) (s : State) : (gotoPixel j i s).lLen = s.lLen := rfl
@[simp] theorem gotoPixel_lW (j i : Nat) (s : State) : (gotoPixel j i s).lW = s.lW := rfl
@[simp] theorem gotoPixel_lH (j i : Nat) (s : State) : (gotoPixel j i s).lH = s.lH := rfl
@[simp] theorem gotoPixel_vPal (j i : Nat) (s : State) : (gotoPixel j i s).vPal = s.vPal := rfl
@[simp] theorem gotoPixel_vCol (j i : Nat) (s : State) : (gotoPixel j i s).vCol = s.vCol := rfl
@[simp] theorem gotoPixel_vMsk (j i : Nat) (s : State) : (gotoPixel j i s).vMsk = s.vMsk := rfl
@[simp] theorem gotoPixel_src (j i : Nat) (s : State) : (gotoPixel j i s).src = s.src := rfl
@[simp] theorem gotoPixel_out (j i : Nat) (s : State) : (gotoPixel j i s).out = s.out := rfl
@[simp] theorem gotoPixel_inbox (j i : Nat) (s : State) : (gotoPixel j i s).inbox = s.inbox := rfl
@[simp] theorem gotoPixel_hostData (j i : Nat) (s : State) : (gotoPixel j i s).hostData = s.hostData := rfl
@[simp] theorem gotoPixel_grain (j i : Nat) (s : State) : (gotoPixel j i s).grain = s.grain := rfl
@[simp] theorem gotoPixel_call (j i : Nat) (s : State) : (gotoPixel j i s).call = s.call := rfl
@[simp] theorem gotoPixel_sampled (j i : Nat) (s : State) : (gotoPixel j i s).sampled = s.sampled := rfl
@[simp] theorem gotoPixel_draws (j i : Nat) (s : State) : (gotoPixel j i s).draws = s.draws := rfl
@[simp] theorem gotoPixel_len (j i : Nat) (s : State) : len (gotoPixel j i s) = len s := by simp [len]
@[simp] theorem gotoPixel_imgW (j i : Nat) (s : State) : imgW (gotoPixel j i s) = imgW s := by simp [imgW]
@[simp] theorem gotoPixel_imgH (j i : Nat) (s : State) : imgH (gotoPixel j i s) = imgH s := by simp [imgH]
@[simp] theorem gotoPixel_outSize (j i : Nat) (s : State) : outSize (gotoPixel j i s) = outSize s := by simp [outSize, imgW, imgH]

/-! ### enterFault -/

@[simp] theorem enterFault_phase (c : ErrCode) (w : Option Slot) (n : Nat) (s : State) : (enterFault c w n s).phase = .fault := rfl
@[simp] theorem enterFault_y (c : ErrCode) (w : Option Slot) (n : Nat) (s : State) : (enterFault c w n s).y = 0 := rfl
@[simp] theorem enterFault_x (c : ErrCode) (w : Option Slot) (n : Nat) (s : State) : (enterFault c w n s).x = 0 := rfl
@[simp] theorem enterFault_err (c : ErrCode) (w : Option Slot) (n : Nat) (s : State) : (enterFault c w n s).err = c := rfl
@[simp] theorem enterFault_errView (c : ErrCode) (w : Option Slot) (n : Nat) (s : State) : (enterFault c w n s).errView = if c = .truncatedData then w else none := rfl
@[simp] theorem enterFault_path (c : ErrCode) (w : Option Slot) (n : Nat) (s : State) : (enterFault c w n s).path = s.path := rfl
@[simp] theorem enterFault_errInfo (c : ErrCode) (w : Option Slot) (n : Nat) (s : State) : (enterFault c w n s).errInfo = BitVec.ofNat 32 n := rfl
@[simp] theorem enterFault_srcLen (c : ErrCode) (w : Option Slot) (n : Nat) (s : State) : (enterFault c w n s).srcLen = s.srcLen := rfl
@[simp] theorem enterFault_cfgW (c : ErrCode) (w : Option Slot) (n : Nat) (s : State) : (enterFault c w n s).cfgW = s.cfgW := rfl
@[simp] theorem enterFault_cfgH (c : ErrCode) (w : Option Slot) (n : Nat) (s : State) : (enterFault c w n s).cfgH = s.cfgH := rfl
@[simp] theorem enterFault_hdrSize (c : ErrCode) (w : Option Slot) (n : Nat) (s : State) : (enterFault c w n s).hdrSize = s.hdrSize := rfl
@[simp] theorem enterFault_hdrBitcount (c : ErrCode) (w : Option Slot) (n : Nat) (s : State) : (enterFault c w n s).hdrBitcount = s.hdrBitcount := rfl
@[simp] theorem enterFault_hdrClrused (c : ErrCode) (w : Option Slot) (n : Nat) (s : State) : (enterFault c w n s).hdrClrused = s.hdrClrused := rfl
@[simp] theorem enterFault_nColors (c : ErrCode) (w : Option Slot) (n : Nat) (s : State) : (enterFault c w n s).nColors = s.nColors := rfl
@[simp] theorem enterFault_lLen (c : ErrCode) (w : Option Slot) (n : Nat) (s : State) : (enterFault c w n s).lLen = s.lLen := rfl
@[simp] theorem enterFault_lW (c : ErrCode) (w : Option Slot) (n : Nat) (s : State) : (enterFault c w n s).lW = s.lW := rfl
@[simp] theorem enterFault_lH (c : ErrCode) (w : Option Slot) (n : Nat) (s : State) : (enterFault c w n s).lH = s.lH := rfl
@[simp] theorem enterFault_vPal (c : ErrCode) (w : Option Slot) (n : Nat) (s : State) : (enterFault c w n s).vPal = s.vPal := rfl
@[simp] theorem enterFault_vCol (c : ErrCode) (w : Option Slot) (n : Nat) (s : State) : (enterFault c w n s).vCol = s.vCol := rfl
@[simp] theorem enterFault_vMsk (c : ErrCode) (w : Option Slot) (n : Nat) (s : State) : (enterFault c w n s).vMsk = s.vMsk := rfl
@[simp] theorem enterFault_src (c : ErrCode) (w : Option Slot) (n : Nat) (s : State) : (enterFault c w n s).src = s.src := rfl
@[simp] theorem enterFault_out (c : ErrCode) (w : Option Slot) (n : Nat) (s : State) : (enterFault c w n s).out = s.out := rfl
@[simp] theorem enterFault_inbox (c : ErrCode) (w : Option Slot) (n : Nat) (s : State) : (enterFault c w n s).inbox = s.inbox := rfl
@[simp] theorem enterFault_hostData (c : ErrCode) (w : Option Slot) (n : Nat) (s : State) : (enterFault c w n s).hostData = s.hostData := rfl
@[simp] theorem enterFault_grain (c : ErrCode) (w : Option Slot) (n : Nat) (s : State) : (enterFault c w n s).grain = s.grain := rfl
@[simp] theorem enterFault_call (c : ErrCode) (w : Option Slot) (n : Nat) (s : State) : (enterFault c w n s).call = s.call := rfl
@[simp] theorem enterFault_sampled (c : ErrCode) (w : Option Slot) (n : Nat) (s : State) : (enterFault c w n s).sampled = s.sampled := rfl
@[simp] theorem enterFault_draws (c : ErrCode) (w : Option Slot) (n : Nat) (s : State) : (enterFault c w n s).draws = s.draws := rfl
@[simp] theorem enterFault_len (c : ErrCode) (w : Option Slot) (n : Nat) (s : State) : len (enterFault c w n s) = len s := by simp [len]
@[simp] theorem enterFault_imgW (c : ErrCode) (w : Option Slot) (n : Nat) (s : State) : imgW (enterFault c w n s) = imgW s := by simp [imgW]
@[simp] theorem enterFault_imgH (c : ErrCode) (w : Option Slot) (n : Nat) (s : State) : imgH (enterFault c w n s) = imgH s := by simp [imgH]
@[simp] theorem enterFault_outSize (c : ErrCode) (w : Option Slot) (n : Nat) (s : State) : outSize (enterFault c w n s) = outSize s := by simp [outSize, imgW, imgH]

/-! ### clearStatus -/

@[simp] theorem clearStatus_phase (s : State) : (clearStatus s).phase = s.phase := rfl
@[simp] theorem clearStatus_y (s : State) : (clearStatus s).y = s.y := rfl
@[simp] theorem clearStatus_x (s : State) : (clearStatus s).x = s.x := rfl
@[simp] theorem clearStatus_err (s : State) : (clearStatus s).err = .none := rfl
@[simp] theorem clearStatus_errView (s : State) : (clearStatus s).errView = none := rfl
@[simp] theorem clearStatus_path (s : State) : (clearStatus s).path = .none := rfl
@[simp] theorem clearStatus_errInfo (s : State) : (clearStatus s).errInfo = 0 := rfl
@[simp] theorem clearStatus_srcLen (s : State) : (clearStatus s).srcLen = s.srcLen := rfl
@[simp] theorem clearStatus_cfgW (s : State) : (clearStatus s).cfgW = s.cfgW := rfl
@[simp] theorem clearStatus_cfgH (s : State) : (clearStatus s).cfgH = s.cfgH := rfl
@[simp] theorem clearStatus_hdrSize (s : State) : (clearStatus s).hdrSize = s.hdrSize := rfl
@[simp] theorem clearStatus_hdrBitcount (s : State) : (clearStatus s).hdrBitcount = s.hdrBitcount := rfl
@[simp] theorem clearStatus_hdrClrused (s : State) : (clearStatus s).hdrClrused = s.hdrClrused := rfl
@[simp] theorem clearStatus_nColors (s : State) : (clearStatus s).nColors = s.nColors := rfl
@[simp] theorem clearStatus_lLen (s : State) : (clearStatus s).lLen = s.lLen := rfl
@[simp] theorem clearStatus_lW (s : State) : (clearStatus s).lW = s.lW := rfl
@[simp] theorem clearStatus_lH (s : State) : (clearStatus s).lH = s.lH := rfl
@[simp] theorem clearStatus_vPal (s : State) : (clearStatus s).vPal = s.vPal := rfl
@[simp] theorem clearStatus_vCol (s : State) : (clearStatus s).vCol = s.vCol := rfl
@[simp] theorem clearStatus_vMsk (s : State) : (clearStatus s).vMsk = s.vMsk := rfl
@[simp] theorem clearStatus_src (s : State) : (clearStatus s).src = s.src := rfl
@[simp] theorem clearStatus_out (s : State) : (clearStatus s).out = s.out := rfl
@[simp] theorem clearStatus_inbox (s : State) : (clearStatus s).inbox = s.inbox := rfl
@[simp] theorem clearStatus_hostData (s : State) : (clearStatus s).hostData = s.hostData := rfl
@[simp] theorem clearStatus_grain (s : State) : (clearStatus s).grain = s.grain := rfl
@[simp] theorem clearStatus_call (s : State) : (clearStatus s).call = s.call := rfl
@[simp] theorem clearStatus_sampled (s : State) : (clearStatus s).sampled = s.sampled := rfl
@[simp] theorem clearStatus_draws (s : State) : (clearStatus s).draws = s.draws := rfl
@[simp] theorem clearStatus_len (s : State) : len (clearStatus s) = len s := by simp [len]
@[simp] theorem clearStatus_imgW (s : State) : imgW (clearStatus s) = imgW s := by simp [imgW]
@[simp] theorem clearStatus_imgH (s : State) : imgH (clearStatus s) = imgH s := by simp [imgH]
@[simp] theorem clearStatus_outSize (s : State) : outSize (clearStatus s) = outSize s := by simp [outSize, imgW, imgH]

/-! ### invalidateViews -/

@[simp] theorem invalidateViews_phase (s : State) : (invalidateViews s).phase = s.phase := rfl
@[simp] theorem invalidateViews_y (s : State) : (invalidateViews s).y = s.y := rfl
@[simp] theorem invalidateViews_x (s : State) : (invalidateViews s).x = s.x := rfl
@[simp] theorem invalidateViews_err (s : State) : (invalidateViews s).err = s.err := rfl
@[simp] theorem invalidateViews_errView (s : State) : (invalidateViews s).errView = s.errView := rfl
@[simp] theorem invalidateViews_path (s : State) : (invalidateViews s).path = s.path := rfl
@[simp] theorem invalidateViews_errInfo (s : State) : (invalidateViews s).errInfo = s.errInfo := rfl
@[simp] theorem invalidateViews_srcLen (s : State) : (invalidateViews s).srcLen = s.srcLen := rfl
@[simp] theorem invalidateViews_cfgW (s : State) : (invalidateViews s).cfgW = s.cfgW := rfl
@[simp] theorem invalidateViews_cfgH (s : State) : (invalidateViews s).cfgH = s.cfgH := rfl
@[simp] theorem invalidateViews_hdrSize (s : State) : (invalidateViews s).hdrSize = s.hdrSize := rfl
@[simp] theorem invalidateViews_hdrBitcount (s : State) : (invalidateViews s).hdrBitcount = s.hdrBitcount := rfl
@[simp] theorem invalidateViews_hdrClrused (s : State) : (invalidateViews s).hdrClrused = s.hdrClrused := rfl
@[simp] theorem invalidateViews_nColors (s : State) : (invalidateViews s).nColors = s.nColors := rfl
@[simp] theorem invalidateViews_lLen (s : State) : (invalidateViews s).lLen = s.lLen := rfl
@[simp] theorem invalidateViews_lW (s : State) : (invalidateViews s).lW = s.lW := rfl
@[simp] theorem invalidateViews_lH (s : State) : (invalidateViews s).lH = s.lH := rfl
@[simp] theorem invalidateViews_vPal (s : State) : (invalidateViews s).vPal = { s.vPal with valid := false } := rfl
@[simp] theorem invalidateViews_vCol (s : State) : (invalidateViews s).vCol = { s.vCol with valid := false } := rfl
@[simp] theorem invalidateViews_vMsk (s : State) : (invalidateViews s).vMsk = { s.vMsk with valid := false } := rfl
@[simp] theorem invalidateViews_src (s : State) : (invalidateViews s).src = s.src := rfl
@[simp] theorem invalidateViews_out (s : State) : (invalidateViews s).out = s.out := rfl
@[simp] theorem invalidateViews_inbox (s : State) : (invalidateViews s).inbox = s.inbox := rfl
@[simp] theorem invalidateViews_hostData (s : State) : (invalidateViews s).hostData = s.hostData := rfl
@[simp] theorem invalidateViews_grain (s : State) : (invalidateViews s).grain = s.grain := rfl
@[simp] theorem invalidateViews_call (s : State) : (invalidateViews s).call = s.call := rfl
@[simp] theorem invalidateViews_sampled (s : State) : (invalidateViews s).sampled = s.sampled := rfl
@[simp] theorem invalidateViews_draws (s : State) : (invalidateViews s).draws = s.draws := rfl
@[simp] theorem invalidateViews_len (s : State) : len (invalidateViews s) = len s := by simp [len]
@[simp] theorem invalidateViews_imgW (s : State) : imgW (invalidateViews s) = imgW s := by simp [imgW]
@[simp] theorem invalidateViews_imgH (s : State) : imgH (invalidateViews s) = imgH s := by simp [imgH]
@[simp] theorem invalidateViews_outSize (s : State) : outSize (invalidateViews s) = outSize s := by simp [outSize, imgW, imgH]

/-! ### latchHeader -/

@[simp] theorem latchHeader_phase (h b c : Nat) (s : State) : (latchHeader h b c s).phase = s.phase := rfl
@[simp] theorem latchHeader_y (h b c : Nat) (s : State) : (latchHeader h b c s).y = s.y := rfl
@[simp] theorem latchHeader_x (h b c : Nat) (s : State) : (latchHeader h b c s).x = s.x := rfl
@[simp] theorem latchHeader_err (h b c : Nat) (s : State) : (latchHeader h b c s).err = s.err := rfl
@[simp] theorem latchHeader_errView (h b c : Nat) (s : State) : (latchHeader h b c s).errView = s.errView := rfl
@[simp] theorem latchHeader_path (h b c : Nat) (s : State) : (latchHeader h b c s).path = s.path := rfl
@[simp] theorem latchHeader_errInfo (h b c : Nat) (s : State) : (latchHeader h b c s).errInfo = s.errInfo := rfl
@[simp] theorem latchHeader_srcLen (h b c : Nat) (s : State) : (latchHeader h b c s).srcLen = s.srcLen := rfl
@[simp] theorem latchHeader_cfgW (h b c : Nat) (s : State) : (latchHeader h b c s).cfgW = s.cfgW := rfl
@[simp] theorem latchHeader_cfgH (h b c : Nat) (s : State) : (latchHeader h b c s).cfgH = s.cfgH := rfl
@[simp] theorem latchHeader_hdrSize (h b c : Nat) (s : State) : (latchHeader h b c s).hdrSize = BitVec.ofNat 32 h := rfl
@[simp] theorem latchHeader_hdrBitcount (h b c : Nat) (s : State) : (latchHeader h b c s).hdrBitcount = BitVec.ofNat 32 b := rfl
@[simp] theorem latchHeader_hdrClrused (h b c : Nat) (s : State) : (latchHeader h b c s).hdrClrused = BitVec.ofNat 32 c := rfl
@[simp] theorem latchHeader_nColors (h b c : Nat) (s : State) : (latchHeader h b c s).nColors = s.nColors := rfl
@[simp] theorem latchHeader_lLen (h b c : Nat) (s : State) : (latchHeader h b c s).lLen = s.lLen := rfl
@[simp] theorem latchHeader_lW (h b c : Nat) (s : State) : (latchHeader h b c s).lW = s.lW := rfl
@[simp] theorem latchHeader_lH (h b c : Nat) (s : State) : (latchHeader h b c s).lH = s.lH := rfl
@[simp] theorem latchHeader_vPal (h b c : Nat) (s : State) : (latchHeader h b c s).vPal = s.vPal := rfl
@[simp] theorem latchHeader_vCol (h b c : Nat) (s : State) : (latchHeader h b c s).vCol = s.vCol := rfl
@[simp] theorem latchHeader_vMsk (h b c : Nat) (s : State) : (latchHeader h b c s).vMsk = s.vMsk := rfl
@[simp] theorem latchHeader_src (h b c : Nat) (s : State) : (latchHeader h b c s).src = s.src := rfl
@[simp] theorem latchHeader_out (h b c : Nat) (s : State) : (latchHeader h b c s).out = s.out := rfl
@[simp] theorem latchHeader_inbox (h b c : Nat) (s : State) : (latchHeader h b c s).inbox = s.inbox := rfl
@[simp] theorem latchHeader_hostData (h b c : Nat) (s : State) : (latchHeader h b c s).hostData = s.hostData := rfl
@[simp] theorem latchHeader_grain (h b c : Nat) (s : State) : (latchHeader h b c s).grain = s.grain := rfl
@[simp] theorem latchHeader_call (h b c : Nat) (s : State) : (latchHeader h b c s).call = s.call := rfl
@[simp] theorem latchHeader_sampled (h b c : Nat) (s : State) : (latchHeader h b c s).sampled = s.sampled := rfl
@[simp] theorem latchHeader_draws (h b c : Nat) (s : State) : (latchHeader h b c s).draws = s.draws := rfl
@[simp] theorem latchHeader_len (h b c : Nat) (s : State) : len (latchHeader h b c s) = len s := by simp [len]
@[simp] theorem latchHeader_imgW (h b c : Nat) (s : State) : imgW (latchHeader h b c s) = imgW s := by simp [imgW]
@[simp] theorem latchHeader_imgH (h b c : Nat) (s : State) : imgH (latchHeader h b c s) = imgH s := by simp [imgH]
@[simp] theorem latchHeader_outSize (h b c : Nat) (s : State) : outSize (latchHeader h b c s) = outSize s := by simp [outSize, imgW, imgH]

/-! ### latchOperands -/

@[simp] theorem latchOperands_phase (s : State) : (latchOperands s).phase = s.phase := rfl
@[simp] theorem latchOperands_y (s : State) : (latchOperands s).y = s.y := rfl
@[simp] theorem latchOperands_x (s : State) : (latchOperands s).x = s.x := rfl
@[simp] theorem latchOperands_err (s : State) : (latchOperands s).err = s.err := rfl
@[simp] theorem latchOperands_errView (s : State) : (latchOperands s).errView = s.errView := rfl
@[simp] theorem latchOperands_path (s : State) : (latchOperands s).path = s.path := rfl
@[simp] theorem latchOperands_errInfo (s : State) : (latchOperands s).errInfo = s.errInfo := rfl
@[simp] theorem latchOperands_srcLen (s : State) : (latchOperands s).srcLen = s.srcLen := rfl
@[simp] theorem latchOperands_cfgW (s : State) : (latchOperands s).cfgW = s.cfgW := rfl
@[simp] theorem latchOperands_cfgH (s : State) : (latchOperands s).cfgH = s.cfgH := rfl
@[simp] theorem latchOperands_hdrSize (s : State) : (latchOperands s).hdrSize = s.hdrSize := rfl
@[simp] theorem latchOperands_hdrBitcount (s : State) : (latchOperands s).hdrBitcount = s.hdrBitcount := rfl
@[simp] theorem latchOperands_hdrClrused (s : State) : (latchOperands s).hdrClrused = s.hdrClrused := rfl
@[simp] theorem latchOperands_nColors (s : State) : (latchOperands s).nColors = s.nColors := rfl
@[simp] theorem latchOperands_lLen (s : State) : (latchOperands s).lLen = s.srcLen := rfl
@[simp] theorem latchOperands_lW (s : State) : (latchOperands s).lW = s.cfgW := rfl
@[simp] theorem latchOperands_lH (s : State) : (latchOperands s).lH = s.cfgH := rfl
@[simp] theorem latchOperands_vPal (s : State) : (latchOperands s).vPal = s.vPal := rfl
@[simp] theorem latchOperands_vCol (s : State) : (latchOperands s).vCol = s.vCol := rfl
@[simp] theorem latchOperands_vMsk (s : State) : (latchOperands s).vMsk = s.vMsk := rfl
@[simp] theorem latchOperands_src (s : State) : (latchOperands s).src = s.src := rfl
@[simp] theorem latchOperands_out (s : State) : (latchOperands s).out = s.out := rfl
@[simp] theorem latchOperands_inbox (s : State) : (latchOperands s).inbox = s.inbox := rfl
@[simp] theorem latchOperands_hostData (s : State) : (latchOperands s).hostData = s.hostData := rfl
@[simp] theorem latchOperands_grain (s : State) : (latchOperands s).grain = s.grain := rfl
@[simp] theorem latchOperands_call (s : State) : (latchOperands s).call = s.call := rfl
@[simp] theorem latchOperands_sampled (s : State) : (latchOperands s).sampled = s.sampled := rfl
@[simp] theorem latchOperands_draws (s : State) : (latchOperands s).draws = s.draws := rfl

/-! ### setSelection -/

@[simp] theorem setSelection_phase (n : Nat) (p : Path) (s : State) : (setSelection n p s).phase = s.phase := rfl
@[simp] theorem setSelection_y (n : Nat) (p : Path) (s : State) : (setSelection n p s).y = s.y := rfl
@[simp] theorem setSelection_x (n : Nat) (p : Path) (s : State) : (setSelection n p s).x = s.x := rfl
@[simp] theorem setSelection_err (n : Nat) (p : Path) (s : State) : (setSelection n p s).err = s.err := rfl
@[simp] theorem setSelection_errView (n : Nat) (p : Path) (s : State) : (setSelection n p s).errView = s.errView := rfl
@[simp] theorem setSelection_path (n : Nat) (p : Path) (s : State) : (setSelection n p s).path = p := rfl
@[simp] theorem setSelection_errInfo (n : Nat) (p : Path) (s : State) : (setSelection n p s).errInfo = s.errInfo := rfl
@[simp] theorem setSelection_srcLen (n : Nat) (p : Path) (s : State) : (setSelection n p s).srcLen = s.srcLen := rfl
@[simp] theorem setSelection_cfgW (n : Nat) (p : Path) (s : State) : (setSelection n p s).cfgW = s.cfgW := rfl
@[simp] theorem setSelection_cfgH (n : Nat) (p : Path) (s : State) : (setSelection n p s).cfgH = s.cfgH := rfl
@[simp] theorem setSelection_hdrSize (n : Nat) (p : Path) (s : State) : (setSelection n p s).hdrSize = s.hdrSize := rfl
@[simp] theorem setSelection_hdrBitcount (n : Nat) (p : Path) (s : State) : (setSelection n p s).hdrBitcount = s.hdrBitcount := rfl
@[simp] theorem setSelection_hdrClrused (n : Nat) (p : Path) (s : State) : (setSelection n p s).hdrClrused = s.hdrClrused := rfl
@[simp] theorem setSelection_nColors (n : Nat) (p : Path) (s : State) : (setSelection n p s).nColors = BitVec.ofNat 32 n := rfl
@[simp] theorem setSelection_lLen (n : Nat) (p : Path) (s : State) : (setSelection n p s).lLen = s.lLen := rfl
@[simp] theorem setSelection_lW (n : Nat) (p : Path) (s : State) : (setSelection n p s).lW = s.lW := rfl
@[simp] theorem setSelection_lH (n : Nat) (p : Path) (s : State) : (setSelection n p s).lH = s.lH := rfl
@[simp] theorem setSelection_vPal (n : Nat) (p : Path) (s : State) : (setSelection n p s).vPal = s.vPal := rfl
@[simp] theorem setSelection_vCol (n : Nat) (p : Path) (s : State) : (setSelection n p s).vCol = s.vCol := rfl
@[simp] theorem setSelection_vMsk (n : Nat) (p : Path) (s : State) : (setSelection n p s).vMsk = s.vMsk := rfl
@[simp] theorem setSelection_src (n : Nat) (p : Path) (s : State) : (setSelection n p s).src = s.src := rfl
@[simp] theorem setSelection_out (n : Nat) (p : Path) (s : State) : (setSelection n p s).out = s.out := rfl
@[simp] theorem setSelection_inbox (n : Nat) (p : Path) (s : State) : (setSelection n p s).inbox = s.inbox := rfl
@[simp] theorem setSelection_hostData (n : Nat) (p : Path) (s : State) : (setSelection n p s).hostData = s.hostData := rfl
@[simp] theorem setSelection_grain (n : Nat) (p : Path) (s : State) : (setSelection n p s).grain = s.grain := rfl
@[simp] theorem setSelection_call (n : Nat) (p : Path) (s : State) : (setSelection n p s).call = s.call := rfl
@[simp] theorem setSelection_sampled (n : Nat) (p : Path) (s : State) : (setSelection n p s).sampled = s.sampled := rfl
@[simp] theorem setSelection_draws (n : Nat) (p : Path) (s : State) : (setSelection n p s).draws = s.draws := rfl
@[simp] theorem setSelection_len (n : Nat) (p : Path) (s : State) : len (setSelection n p s) = len s := by simp [len]
@[simp] theorem setSelection_imgW (n : Nat) (p : Path) (s : State) : imgW (setSelection n p s) = imgW s := by simp [imgW]
@[simp] theorem setSelection_imgH (n : Nat) (p : Path) (s : State) : imgH (setSelection n p s) = imgH s := by simp [imgH]
@[simp] theorem setSelection_outSize (n : Nat) (p : Path) (s : State) : outSize (setSelection n p s) = outSize s := by simp [outSize, imgW, imgH]

/-! ### setOut -/

@[simp] theorem setOut_phase (m : Memory) (s : State) : (setOut m s).phase = s.phase := rfl
@[simp] theorem setOut_y (m : Memory) (s : State) : (setOut m s).y = s.y := rfl
@[simp] theorem setOut_x (m : Memory) (s : State) : (setOut m s).x = s.x := rfl
@[simp] theorem setOut_err (m : Memory) (s : State) : (setOut m s).err = s.err := rfl
@[simp] theorem setOut_errView (m : Memory) (s : State) : (setOut m s).errView = s.errView := rfl
@[simp] theorem setOut_path (m : Memory) (s : State) : (setOut m s).path = s.path := rfl
@[simp] theorem setOut_errInfo (m : Memory) (s : State) : (setOut m s).errInfo = s.errInfo := rfl
@[simp] theorem setOut_srcLen (m : Memory) (s : State) : (setOut m s).srcLen = s.srcLen := rfl
@[simp] theorem setOut_cfgW (m : Memory) (s : State) : (setOut m s).cfgW = s.cfgW := rfl
@[simp] theorem setOut_cfgH (m : Memory) (s : State) : (setOut m s).cfgH = s.cfgH := rfl
@[simp] theorem setOut_hdrSize (m : Memory) (s : State) : (setOut m s).hdrSize = s.hdrSize := rfl
@[simp] theorem setOut_hdrBitcount (m : Memory) (s : State) : (setOut m s).hdrBitcount = s.hdrBitcount := rfl
@[simp] theorem setOut_hdrClrused (m : Memory) (s : State) : (setOut m s).hdrClrused = s.hdrClrused := rfl
@[simp] theorem setOut_nColors (m : Memory) (s : State) : (setOut m s).nColors = s.nColors := rfl
@[simp] theorem setOut_lLen (m : Memory) (s : State) : (setOut m s).lLen = s.lLen := rfl
@[simp] theorem setOut_lW (m : Memory) (s : State) : (setOut m s).lW = s.lW := rfl
@[simp] theorem setOut_lH (m : Memory) (s : State) : (setOut m s).lH = s.lH := rfl
@[simp] theorem setOut_vPal (m : Memory) (s : State) : (setOut m s).vPal = s.vPal := rfl
@[simp] theorem setOut_vCol (m : Memory) (s : State) : (setOut m s).vCol = s.vCol := rfl
@[simp] theorem setOut_vMsk (m : Memory) (s : State) : (setOut m s).vMsk = s.vMsk := rfl
@[simp] theorem setOut_src (m : Memory) (s : State) : (setOut m s).src = s.src := rfl
@[simp] theorem setOut_out (m : Memory) (s : State) : (setOut m s).out = m := rfl
@[simp] theorem setOut_inbox (m : Memory) (s : State) : (setOut m s).inbox = s.inbox := rfl
@[simp] theorem setOut_hostData (m : Memory) (s : State) : (setOut m s).hostData = s.hostData := rfl
@[simp] theorem setOut_grain (m : Memory) (s : State) : (setOut m s).grain = s.grain := rfl
@[simp] theorem setOut_call (m : Memory) (s : State) : (setOut m s).call = s.call := rfl
@[simp] theorem setOut_sampled (m : Memory) (s : State) : (setOut m s).sampled = s.sampled := rfl
@[simp] theorem setOut_draws (m : Memory) (s : State) : (setOut m s).draws = s.draws := rfl
@[simp] theorem setOut_len (m : Memory) (s : State) : len (setOut m s) = len s := by simp [len]
@[simp] theorem setOut_imgW (m : Memory) (s : State) : imgW (setOut m s) = imgW s := by simp [imgW]
@[simp] theorem setOut_imgH (m : Memory) (s : State) : imgH (setOut m s) = imgH s := by simp [imgH]
@[simp] theorem setOut_outSize (m : Memory) (s : State) : outSize (setOut m s) = outSize s := by simp [outSize, imgW, imgH]

/-! ### setInbox -/

@[simp] theorem setInbox_phase (q : List HostAccess) (s : State) : (setInbox q s).phase = s.phase := rfl
@[simp] theorem setInbox_y (q : List HostAccess) (s : State) : (setInbox q s).y = s.y := rfl
@[simp] theorem setInbox_x (q : List HostAccess) (s : State) : (setInbox q s).x = s.x := rfl
@[simp] theorem setInbox_err (q : List HostAccess) (s : State) : (setInbox q s).err = s.err := rfl
@[simp] theorem setInbox_errView (q : List HostAccess) (s : State) : (setInbox q s).errView = s.errView := rfl
@[simp] theorem setInbox_path (q : List HostAccess) (s : State) : (setInbox q s).path = s.path := rfl
@[simp] theorem setInbox_errInfo (q : List HostAccess) (s : State) : (setInbox q s).errInfo = s.errInfo := rfl
@[simp] theorem setInbox_srcLen (q : List HostAccess) (s : State) : (setInbox q s).srcLen = s.srcLen := rfl
@[simp] theorem setInbox_cfgW (q : List HostAccess) (s : State) : (setInbox q s).cfgW = s.cfgW := rfl
@[simp] theorem setInbox_cfgH (q : List HostAccess) (s : State) : (setInbox q s).cfgH = s.cfgH := rfl
@[simp] theorem setInbox_hdrSize (q : List HostAccess) (s : State) : (setInbox q s).hdrSize = s.hdrSize := rfl
@[simp] theorem setInbox_hdrBitcount (q : List HostAccess) (s : State) : (setInbox q s).hdrBitcount = s.hdrBitcount := rfl
@[simp] theorem setInbox_hdrClrused (q : List HostAccess) (s : State) : (setInbox q s).hdrClrused = s.hdrClrused := rfl
@[simp] theorem setInbox_nColors (q : List HostAccess) (s : State) : (setInbox q s).nColors = s.nColors := rfl
@[simp] theorem setInbox_lLen (q : List HostAccess) (s : State) : (setInbox q s).lLen = s.lLen := rfl
@[simp] theorem setInbox_lW (q : List HostAccess) (s : State) : (setInbox q s).lW = s.lW := rfl
@[simp] theorem setInbox_lH (q : List HostAccess) (s : State) : (setInbox q s).lH = s.lH := rfl
@[simp] theorem setInbox_vPal (q : List HostAccess) (s : State) : (setInbox q s).vPal = s.vPal := rfl
@[simp] theorem setInbox_vCol (q : List HostAccess) (s : State) : (setInbox q s).vCol = s.vCol := rfl
@[simp] theorem setInbox_vMsk (q : List HostAccess) (s : State) : (setInbox q s).vMsk = s.vMsk := rfl
@[simp] theorem setInbox_src (q : List HostAccess) (s : State) : (setInbox q s).src = s.src := rfl
@[simp] theorem setInbox_out (q : List HostAccess) (s : State) : (setInbox q s).out = s.out := rfl
@[simp] theorem setInbox_inbox (q : List HostAccess) (s : State) : (setInbox q s).inbox = q := rfl
@[simp] theorem setInbox_hostData (q : List HostAccess) (s : State) : (setInbox q s).hostData = s.hostData := rfl
@[simp] theorem setInbox_grain (q : List HostAccess) (s : State) : (setInbox q s).grain = s.grain := rfl
@[simp] theorem setInbox_call (q : List HostAccess) (s : State) : (setInbox q s).call = s.call := rfl
@[simp] theorem setInbox_sampled (q : List HostAccess) (s : State) : (setInbox q s).sampled = s.sampled := rfl
@[simp] theorem setInbox_draws (q : List HostAccess) (s : State) : (setInbox q s).draws = s.draws := rfl
@[simp] theorem setInbox_len (q : List HostAccess) (s : State) : len (setInbox q s) = len s := by simp [len]
@[simp] theorem setInbox_imgW (q : List HostAccess) (s : State) : imgW (setInbox q s) = imgW s := by simp [imgW]
@[simp] theorem setInbox_imgH (q : List HostAccess) (s : State) : imgH (setInbox q s) = imgH s := by simp [imgH]
@[simp] theorem setInbox_outSize (q : List HostAccess) (s : State) : outSize (setInbox q s) = outSize s := by simp [outSize, imgW, imgH]

/-! ### takeCall -/

@[simp] theorem takeCall_phase (s : State) : (takeCall s).phase = s.phase := rfl
@[simp] theorem takeCall_y (s : State) : (takeCall s).y = s.y := rfl
@[simp] theorem takeCall_x (s : State) : (takeCall s).x = s.x := rfl
@[simp] theorem takeCall_err (s : State) : (takeCall s).err = s.err := rfl
@[simp] theorem takeCall_errView (s : State) : (takeCall s).errView = s.errView := rfl
@[simp] theorem takeCall_path (s : State) : (takeCall s).path = s.path := rfl
@[simp] theorem takeCall_errInfo (s : State) : (takeCall s).errInfo = s.errInfo := rfl
@[simp] theorem takeCall_srcLen (s : State) : (takeCall s).srcLen = s.srcLen := rfl
@[simp] theorem takeCall_cfgW (s : State) : (takeCall s).cfgW = s.cfgW := rfl
@[simp] theorem takeCall_cfgH (s : State) : (takeCall s).cfgH = s.cfgH := rfl
@[simp] theorem takeCall_hdrSize (s : State) : (takeCall s).hdrSize = s.hdrSize := rfl
@[simp] theorem takeCall_hdrBitcount (s : State) : (takeCall s).hdrBitcount = s.hdrBitcount := rfl
@[simp] theorem takeCall_hdrClrused (s : State) : (takeCall s).hdrClrused = s.hdrClrused := rfl
@[simp] theorem takeCall_nColors (s : State) : (takeCall s).nColors = s.nColors := rfl
@[simp] theorem takeCall_lLen (s : State) : (takeCall s).lLen = s.lLen := rfl
@[simp] theorem takeCall_lW (s : State) : (takeCall s).lW = s.lW := rfl
@[simp] theorem takeCall_lH (s : State) : (takeCall s).lH = s.lH := rfl
@[simp] theorem takeCall_vPal (s : State) : (takeCall s).vPal = s.vPal := rfl
@[simp] theorem takeCall_vCol (s : State) : (takeCall s).vCol = s.vCol := rfl
@[simp] theorem takeCall_vMsk (s : State) : (takeCall s).vMsk = s.vMsk := rfl
@[simp] theorem takeCall_src (s : State) : (takeCall s).src = s.src := rfl
@[simp] theorem takeCall_out (s : State) : (takeCall s).out = s.out := rfl
@[simp] theorem takeCall_inbox (s : State) : (takeCall s).inbox = s.inbox := rfl
@[simp] theorem takeCall_hostData (s : State) : (takeCall s).hostData = s.hostData := rfl
@[simp] theorem takeCall_grain (s : State) : (takeCall s).grain = s.grain := rfl
@[simp] theorem takeCall_call (s : State) : (takeCall s).call = none := rfl
@[simp] theorem takeCall_sampled (s : State) : (takeCall s).sampled = s.sampled := rfl
@[simp] theorem takeCall_draws (s : State) : (takeCall s).draws = s.draws := rfl
@[simp] theorem takeCall_len (s : State) : len (takeCall s) = len s := by simp [len]
@[simp] theorem takeCall_imgW (s : State) : imgW (takeCall s) = imgW s := by simp [imgW]
@[simp] theorem takeCall_imgH (s : State) : imgH (takeCall s) = imgH s := by simp [imgH]
@[simp] theorem takeCall_outSize (s : State) : outSize (takeCall s) = outSize s := by simp [outSize, imgW, imgH]

/-! ### keepSample -/

@[simp] theorem keepSample_phase (b : Byte) (s : State) : (keepSample b s).phase = s.phase := rfl
@[simp] theorem keepSample_y (b : Byte) (s : State) : (keepSample b s).y = s.y := rfl
@[simp] theorem keepSample_x (b : Byte) (s : State) : (keepSample b s).x = s.x := rfl
@[simp] theorem keepSample_err (b : Byte) (s : State) : (keepSample b s).err = s.err := rfl
@[simp] theorem keepSample_errView (b : Byte) (s : State) : (keepSample b s).errView = s.errView := rfl
@[simp] theorem keepSample_path (b : Byte) (s : State) : (keepSample b s).path = s.path := rfl
@[simp] theorem keepSample_errInfo (b : Byte) (s : State) : (keepSample b s).errInfo = s.errInfo := rfl
@[simp] theorem keepSample_srcLen (b : Byte) (s : State) : (keepSample b s).srcLen = s.srcLen := rfl
@[simp] theorem keepSample_cfgW (b : Byte) (s : State) : (keepSample b s).cfgW = s.cfgW := rfl
@[simp] theorem keepSample_cfgH (b : Byte) (s : State) : (keepSample b s).cfgH = s.cfgH := rfl
@[simp] theorem keepSample_hdrSize (b : Byte) (s : State) : (keepSample b s).hdrSize = s.hdrSize := rfl
@[simp] theorem keepSample_hdrBitcount (b : Byte) (s : State) : (keepSample b s).hdrBitcount = s.hdrBitcount := rfl
@[simp] theorem keepSample_hdrClrused (b : Byte) (s : State) : (keepSample b s).hdrClrused = s.hdrClrused := rfl
@[simp] theorem keepSample_nColors (b : Byte) (s : State) : (keepSample b s).nColors = s.nColors := rfl
@[simp] theorem keepSample_lLen (b : Byte) (s : State) : (keepSample b s).lLen = s.lLen := rfl
@[simp] theorem keepSample_lW (b : Byte) (s : State) : (keepSample b s).lW = s.lW := rfl
@[simp] theorem keepSample_lH (b : Byte) (s : State) : (keepSample b s).lH = s.lH := rfl
@[simp] theorem keepSample_vPal (b : Byte) (s : State) : (keepSample b s).vPal = s.vPal := rfl
@[simp] theorem keepSample_vCol (b : Byte) (s : State) : (keepSample b s).vCol = s.vCol := rfl
@[simp] theorem keepSample_vMsk (b : Byte) (s : State) : (keepSample b s).vMsk = s.vMsk := rfl
@[simp] theorem keepSample_src (b : Byte) (s : State) : (keepSample b s).src = s.src := rfl
@[simp] theorem keepSample_out (b : Byte) (s : State) : (keepSample b s).out = s.out := rfl
@[simp] theorem keepSample_inbox (b : Byte) (s : State) : (keepSample b s).inbox = s.inbox := rfl
@[simp] theorem keepSample_hostData (b : Byte) (s : State) : (keepSample b s).hostData = s.hostData := rfl
@[simp] theorem keepSample_grain (b : Byte) (s : State) : (keepSample b s).grain = s.grain := rfl
@[simp] theorem keepSample_call (b : Byte) (s : State) : (keepSample b s).call = s.call := rfl
@[simp] theorem keepSample_sampled (b : Byte) (s : State) : (keepSample b s).sampled = b := rfl
@[simp] theorem keepSample_draws (b : Byte) (s : State) : (keepSample b s).draws = s.draws := rfl
@[simp] theorem keepSample_len (b : Byte) (s : State) : len (keepSample b s) = len s := by simp [len]
@[simp] theorem keepSample_imgW (b : Byte) (s : State) : imgW (keepSample b s) = imgW s := by simp [imgW]
@[simp] theorem keepSample_imgH (b : Byte) (s : State) : imgH (keepSample b s) = imgH s := by simp [imgH]
@[simp] theorem keepSample_outSize (b : Byte) (s : State) : outSize (keepSample b s) = outSize s := by simp [outSize, imgW, imgH]

/-! ### setView -/

@[simp] theorem setView_phase (k : Slot) (v : View) (s : State) : (setView k v s).phase = s.phase := by cases k <;> rfl
@[simp] theorem setView_y (k : Slot) (v : View) (s : State) : (setView k v s).y = s.y := by cases k <;> rfl
@[simp] theorem setView_x (k : Slot) (v : View) (s : State) : (setView k v s).x = s.x := by cases k <;> rfl
@[simp] theorem setView_err (k : Slot) (v : View) (s : State) : (setView k v s).err = s.err := by cases k <;> rfl
@[simp] theorem setView_errView (k : Slot) (v : View) (s : State) : (setView k v s).errView = s.errView := by cases k <;> rfl
@[simp] theorem setView_path (k : Slot) (v : View) (s : State) : (setView k v s).path = s.path := by cases k <;> rfl
@[simp] theorem setView_errInfo (k : Slot) (v : View) (s : State) : (setView k v s).errInfo = s.errInfo := by cases k <;> rfl
@[simp] theorem setView_srcLen (k : Slot) (v : View) (s : State) : (setView k v s).srcLen = s.srcLen := by cases k <;> rfl
@[simp] theorem setView_cfgW (k : Slot) (v : View) (s : State) : (setView k v s).cfgW = s.cfgW := by cases k <;> rfl
@[simp] theorem setView_cfgH (k : Slot) (v : View) (s : State) : (setView k v s).cfgH = s.cfgH := by cases k <;> rfl
@[simp] theorem setView_hdrSize (k : Slot) (v : View) (s : State) : (setView k v s).hdrSize = s.hdrSize := by cases k <;> rfl
@[simp] theorem setView_hdrBitcount (k : Slot) (v : View) (s : State) : (setView k v s).hdrBitcount = s.hdrBitcount := by cases k <;> rfl
@[simp] theorem setView_hdrClrused (k : Slot) (v : View) (s : State) : (setView k v s).hdrClrused = s.hdrClrused := by cases k <;> rfl
@[simp] theorem setView_nColors (k : Slot) (v : View) (s : State) : (setView k v s).nColors = s.nColors := by cases k <;> rfl
@[simp] theorem setView_lLen (k : Slot) (v : View) (s : State) : (setView k v s).lLen = s.lLen := by cases k <;> rfl
@[simp] theorem setView_lW (k : Slot) (v : View) (s : State) : (setView k v s).lW = s.lW := by cases k <;> rfl
@[simp] theorem setView_lH (k : Slot) (v : View) (s : State) : (setView k v s).lH = s.lH := by cases k <;> rfl
@[simp] theorem setView_src (k : Slot) (v : View) (s : State) : (setView k v s).src = s.src := by cases k <;> rfl
@[simp] theorem setView_out (k : Slot) (v : View) (s : State) : (setView k v s).out = s.out := by cases k <;> rfl
@[simp] theorem setView_inbox (k : Slot) (v : View) (s : State) : (setView k v s).inbox = s.inbox := by cases k <;> rfl
@[simp] theorem setView_hostData (k : Slot) (v : View) (s : State) : (setView k v s).hostData = s.hostData := by cases k <;> rfl
@[simp] theorem setView_grain (k : Slot) (v : View) (s : State) : (setView k v s).grain = s.grain := by cases k <;> rfl
@[simp] theorem setView_call (k : Slot) (v : View) (s : State) : (setView k v s).call = s.call := by cases k <;> rfl
@[simp] theorem setView_sampled (k : Slot) (v : View) (s : State) : (setView k v s).sampled = s.sampled := by cases k <;> rfl
@[simp] theorem setView_draws (k : Slot) (v : View) (s : State) : (setView k v s).draws = s.draws := by cases k <;> rfl
@[simp] theorem setView_len (k : Slot) (v : View) (s : State) : len (setView k v s) = len s := by simp [len]
@[simp] theorem setView_imgW (k : Slot) (v : View) (s : State) : imgW (setView k v s) = imgW s := by simp [imgW]
@[simp] theorem setView_imgH (k : Slot) (v : View) (s : State) : imgH (setView k v s) = imgH s := by simp [imgH]
@[simp] theorem setView_outSize (k : Slot) (v : View) (s : State) : outSize (setView k v s) = outSize s := by simp [outSize, imgW, imgH]

/-! ### finish -/

@[simp] theorem finish_phase (s : State) : (finish s).phase = .done := rfl
@[simp] theorem finish_y (s : State) : (finish s).y = 0 := rfl
@[simp] theorem finish_x (s : State) : (finish s).x = 0 := rfl
@[simp] theorem finish_err (s : State) : (finish s).err = s.err := rfl
@[simp] theorem finish_errView (s : State) : (finish s).errView = s.errView := rfl
@[simp] theorem finish_path (s : State) : (finish s).path = s.path := rfl
@[simp] theorem finish_errInfo (s : State) : (finish s).errInfo = s.errInfo := rfl
@[simp] theorem finish_srcLen (s : State) : (finish s).srcLen = s.srcLen := rfl
@[simp] theorem finish_cfgW (s : State) : (finish s).cfgW = s.cfgW := rfl
@[simp] theorem finish_cfgH (s : State) : (finish s).cfgH = s.cfgH := rfl
@[simp] theorem finish_hdrSize (s : State) : (finish s).hdrSize = s.hdrSize := rfl
@[simp] theorem finish_hdrBitcount (s : State) : (finish s).hdrBitcount = s.hdrBitcount := rfl
@[simp] theorem finish_hdrClrused (s : State) : (finish s).hdrClrused = s.hdrClrused := rfl
@[simp] theorem finish_nColors (s : State) : (finish s).nColors = s.nColors := rfl
@[simp] theorem finish_lLen (s : State) : (finish s).lLen = s.lLen := rfl
@[simp] theorem finish_lW (s : State) : (finish s).lW = s.lW := rfl
@[simp] theorem finish_lH (s : State) : (finish s).lH = s.lH := rfl
@[simp] theorem finish_vPal (s : State) : (finish s).vPal = s.vPal := rfl
@[simp] theorem finish_vCol (s : State) : (finish s).vCol = s.vCol := rfl
@[simp] theorem finish_vMsk (s : State) : (finish s).vMsk = s.vMsk := rfl
@[simp] theorem finish_src (s : State) : (finish s).src = s.src := rfl
@[simp] theorem finish_out (s : State) : (finish s).out = s.out := rfl
@[simp] theorem finish_inbox (s : State) : (finish s).inbox = s.inbox := rfl
@[simp] theorem finish_hostData (s : State) : (finish s).hostData = s.hostData := rfl
@[simp] theorem finish_grain (s : State) : (finish s).grain = s.grain := rfl
@[simp] theorem finish_call (s : State) : (finish s).call = s.call := rfl
@[simp] theorem finish_sampled (s : State) : (finish s).sampled = s.sampled := rfl
@[simp] theorem finish_draws (s : State) : (finish s).draws = s.draws := rfl
@[simp] theorem finish_len (s : State) : len (finish s) = len s := by simp [len]
@[simp] theorem finish_imgW (s : State) : imgW (finish s) = imgW s := by simp [imgW]
@[simp] theorem finish_imgH (s : State) : imgH (finish s) = imgH s := by simp [imgH]
@[simp] theorem finish_outSize (s : State) : outSize (finish s) = outSize s := by simp [outSize, imgW, imgH]

/-! ### startPixels -/

@[simp] theorem startPixels_y (s : State) : (startPixels s).y = 0 := by unfold startPixels; split <;> rfl
@[simp] theorem startPixels_x (s : State) : (startPixels s).x = 0 := by unfold startPixels; split <;> rfl
@[simp] theorem startPixels_err (s : State) : (startPixels s).err = s.err := by unfold startPixels; split <;> rfl
@[simp] theorem startPixels_errView (s : State) : (startPixels s).errView = s.errView := by unfold startPixels; split <;> rfl
@[simp] theorem startPixels_path (s : State) : (startPixels s).path = s.path := by unfold startPixels; split <;> rfl
@[simp] theorem startPixels_errInfo (s : State) : (startPixels s).errInfo = s.errInfo := by unfold startPixels; split <;> rfl
@[simp] theorem startPixels_srcLen (s : State) : (startPixels s).srcLen = s.srcLen := by unfold startPixels; split <;> rfl
@[simp] theorem startPixels_cfgW (s : State) : (startPixels s).cfgW = s.cfgW := by unfold startPixels; split <;> rfl
@[simp] theorem startPixels_cfgH (s : State) : (startPixels s).cfgH = s.cfgH := by unfold startPixels; split <;> rfl
@[simp] theorem startPixels_hdrSize (s : State) : (startPixels s).hdrSize = s.hdrSize := by unfold startPixels; split <;> rfl
@[simp] theorem startPixels_hdrBitcount (s : State) : (startPixels s).hdrBitcount = s.hdrBitcount := by unfold startPixels; split <;> rfl
@[simp] theorem startPixels_hdrClrused (s : State) : (startPixels s).hdrClrused = s.hdrClrused := by unfold startPixels; split <;> rfl
@[simp] theorem startPixels_nColors (s : State) : (startPixels s).nColors = s.nColors := by unfold startPixels; split <;> rfl
@[simp] theorem startPixels_lLen (s : State) : (startPixels s).lLen = s.lLen := by unfold startPixels; split <;> rfl
@[simp] theorem startPixels_lW (s : State) : (startPixels s).lW = s.lW := by unfold startPixels; split <;> rfl
@[simp] theorem startPixels_lH (s : State) : (startPixels s).lH = s.lH := by unfold startPixels; split <;> rfl
@[simp] theorem startPixels_vPal (s : State) : (startPixels s).vPal = s.vPal := by unfold startPixels; split <;> rfl
@[simp] theorem startPixels_vCol (s : State) : (startPixels s).vCol = s.vCol := by unfold startPixels; split <;> rfl
@[simp] theorem startPixels_vMsk (s : State) : (startPixels s).vMsk = s.vMsk := by unfold startPixels; split <;> rfl
@[simp] theorem startPixels_src (s : State) : (startPixels s).src = s.src := by unfold startPixels; split <;> rfl
@[simp] theorem startPixels_out (s : State) : (startPixels s).out = s.out := by unfold startPixels; split <;> rfl
@[simp] theorem startPixels_inbox (s : State) : (startPixels s).inbox = s.inbox := by unfold startPixels; split <;> rfl
@[simp] theorem startPixels_hostData (s : State) : (startPixels s).hostData = s.hostData := by unfold startPixels; split <;> rfl
@[simp] theorem startPixels_grain (s : State) : (startPixels s).grain = s.grain := by unfold startPixels; split <;> rfl
@[simp] theorem startPixels_call (s : State) : (startPixels s).call = s.call := by unfold startPixels; split <;> rfl
@[simp] theorem startPixels_sampled (s : State) : (startPixels s).sampled = s.sampled := by unfold startPixels; split <;> rfl
@[simp] theorem startPixels_draws (s : State) : (startPixels s).draws = s.draws := by unfold startPixels; split <;> rfl
@[simp] theorem startPixels_len (s : State) : len (startPixels s) = len s := by simp [len]
@[simp] theorem startPixels_imgW (s : State) : imgW (startPixels s) = imgW s := by simp [imgW]
@[simp] theorem startPixels_imgH (s : State) : imgH (startPixels s) = imgH s := by simp [imgH]
@[simp] theorem startPixels_outSize (s : State) : outSize (startPixels s) = outSize s := by simp [outSize, imgW, imgH]

/-! ### advancePixel -/

@[simp] theorem advancePixel_err (i j : Nat) (s : State) : (advancePixel i j s).err = s.err := by unfold advancePixel; split <;> (try split) <;> rfl
@[simp] theorem advancePixel_errView (i j : Nat) (s : State) : (advancePixel i j s).errView = s.errView := by unfold advancePixel; split <;> (try split) <;> rfl
@[simp] theorem advancePixel_path (i j : Nat) (s : State) : (advancePixel i j s).path = s.path := by unfold advancePixel; split <;> (try split) <;> rfl
@[simp] theorem advancePixel_errInfo (i j : Nat) (s : State) : (advancePixel i j s).errInfo = s.errInfo := by unfold advancePixel; split <;> (try split) <;> rfl
@[simp] theorem advancePixel_srcLen (i j : Nat) (s : State) : (advancePixel i j s).srcLen = s.srcLen := by unfold advancePixel; split <;> (try split) <;> rfl
@[simp] theorem advancePixel_cfgW (i j : Nat) (s : State) : (advancePixel i j s).cfgW = s.cfgW := by unfold advancePixel; split <;> (try split) <;> rfl
@[simp] theorem advancePixel_cfgH (i j : Nat) (s : State) : (advancePixel i j s).cfgH = s.cfgH := by unfold advancePixel; split <;> (try split) <;> rfl
@[simp] theorem advancePixel_hdrSize (i j : Nat) (s : State) : (advancePixel i j s).hdrSize = s.hdrSize := by unfold advancePixel; split <;> (try split) <;> rfl
@[simp] theorem advancePixel_hdrBitcount (i j : Nat) (s : State) : (advancePixel i j s).hdrBitcount = s.hdrBitcount := by unfold advancePixel; split <;> (try split) <;> rfl
@[simp] theorem advancePixel_hdrClrused (i j : Nat) (s : State) : (advancePixel i j s).hdrClrused = s.hdrClrused := by unfold advancePixel; split <;> (try split) <;> rfl
@[simp] theorem advancePixel_nColors (i j : Nat) (s : State) : (advancePixel i j s).nColors = s.nColors := by unfold advancePixel; split <;> (try split) <;> rfl
@[simp] theorem advancePixel_lLen (i j : Nat) (s : State) : (advancePixel i j s).lLen = s.lLen := by unfold advancePixel; split <;> (try split) <;> rfl
@[simp] theorem advancePixel_lW (i j : Nat) (s : State) : (advancePixel i j s).lW = s.lW := by unfold advancePixel; split <;> (try split) <;> rfl
@[simp] theorem advancePixel_lH (i j : Nat) (s : State) : (advancePixel i j s).lH = s.lH := by unfold advancePixel; split <;> (try split) <;> rfl
@[simp] theorem advancePixel_vPal (i j : Nat) (s : State) : (advancePixel i j s).vPal = s.vPal := by unfold advancePixel; split <;> (try split) <;> rfl
@[simp] theorem advancePixel_vCol (i j : Nat) (s : State) : (advancePixel i j s).vCol = s.vCol := by unfold advancePixel; split <;> (try split) <;> rfl
@[simp] theorem advancePixel_vMsk (i j : Nat) (s : State) : (advancePixel i j s).vMsk = s.vMsk := by unfold advancePixel; split <;> (try split) <;> rfl
@[simp] theorem advancePixel_src (i j : Nat) (s : State) : (advancePixel i j s).src = s.src := by unfold advancePixel; split <;> (try split) <;> rfl
@[simp] theorem advancePixel_out (i j : Nat) (s : State) : (advancePixel i j s).out = s.out := by unfold advancePixel; split <;> (try split) <;> rfl
@[simp] theorem advancePixel_inbox (i j : Nat) (s : State) : (advancePixel i j s).inbox = s.inbox := by unfold advancePixel; split <;> (try split) <;> rfl
@[simp] theorem advancePixel_hostData (i j : Nat) (s : State) : (advancePixel i j s).hostData = s.hostData := by unfold advancePixel; split <;> (try split) <;> rfl
@[simp] theorem advancePixel_grain (i j : Nat) (s : State) : (advancePixel i j s).grain = s.grain := by unfold advancePixel; split <;> (try split) <;> rfl
@[simp] theorem advancePixel_call (i j : Nat) (s : State) : (advancePixel i j s).call = s.call := by unfold advancePixel; split <;> (try split) <;> rfl
@[simp] theorem advancePixel_sampled (i j : Nat) (s : State) : (advancePixel i j s).sampled = s.sampled := by unfold advancePixel; split <;> (try split) <;> rfl
@[simp] theorem advancePixel_draws (i j : Nat) (s : State) : (advancePixel i j s).draws = s.draws := by unfold advancePixel; split <;> (try split) <;> rfl
@[simp] theorem advancePixel_len (i j : Nat) (s : State) : len (advancePixel i j s) = len s := by simp [len]
@[simp] theorem advancePixel_imgW (i j : Nat) (s : State) : imgW (advancePixel i j s) = imgW s := by simp [imgW]
@[simp] theorem advancePixel_imgH (i j : Nat) (s : State) : imgH (advancePixel i j s) = imgH s := by simp [imgH]
@[simp] theorem advancePixel_outSize (i j : Nat) (s : State) : outSize (advancePixel i j s) = outSize s := by simp [outSize, imgW, imgH]

/-! ### afterSelect -/

@[simp] theorem afterSelect_y (s : State) : (afterSelect s).y = 0 := by unfold afterSelect; split <;> rfl
@[simp] theorem afterSelect_x (s : State) : (afterSelect s).x = 0 := by unfold afterSelect; split <;> rfl
@[simp] theorem afterSelect_err (s : State) : (afterSelect s).err = s.err := by unfold afterSelect; split <;> rfl
@[simp] theorem afterSelect_errView (s : State) : (afterSelect s).errView = s.errView := by unfold afterSelect; split <;> rfl
@[simp] theorem afterSelect_path (s : State) : (afterSelect s).path = s.path := by unfold afterSelect; split <;> rfl
@[simp] theorem afterSelect_errInfo (s : State) : (afterSelect s).errInfo = s.errInfo := by unfold afterSelect; split <;> rfl
@[simp] theorem afterSelect_srcLen (s : State) : (afterSelect s).srcLen = s.srcLen := by unfold afterSelect; split <;> rfl
@[simp] theorem afterSelect_cfgW (s : State) : (afterSelect s).cfgW = s.cfgW := by unfold afterSelect; split <;> rfl
@[simp] theorem afterSelect_cfgH (s : State) : (afterSelect s).cfgH = s.cfgH := by unfold afterSelect; split <;> rfl
@[simp] theorem afterSelect_hdrSize (s : State) : (afterSelect s).hdrSize = s.hdrSize := by unfold afterSelect; split <;> rfl
@[simp] theorem afterSelect_hdrBitcount (s : State) : (afterSelect s).hdrBitcount = s.hdrBitcount := by unfold afterSelect; split <;> rfl
@[simp] theorem afterSelect_hdrClrused (s : State) : (afterSelect s).hdrClrused = s.hdrClrused := by unfold afterSelect; split <;> rfl
@[simp] theorem afterSelect_nColors (s : State) : (afterSelect s).nColors = s.nColors := by unfold afterSelect; split <;> rfl
@[simp] theorem afterSelect_lLen (s : State) : (afterSelect s).lLen = s.lLen := by unfold afterSelect; split <;> rfl
@[simp] theorem afterSelect_lW (s : State) : (afterSelect s).lW = s.lW := by unfold afterSelect; split <;> rfl
@[simp] theorem afterSelect_lH (s : State) : (afterSelect s).lH = s.lH := by unfold afterSelect; split <;> rfl
@[simp] theorem afterSelect_vPal (s : State) : (afterSelect s).vPal = s.vPal := by unfold afterSelect; split <;> rfl
@[simp] theorem afterSelect_vCol (s : State) : (afterSelect s).vCol = s.vCol := by unfold afterSelect; split <;> rfl
@[simp] theorem afterSelect_vMsk (s : State) : (afterSelect s).vMsk = s.vMsk := by unfold afterSelect; split <;> rfl
@[simp] theorem afterSelect_src (s : State) : (afterSelect s).src = s.src := by unfold afterSelect; split <;> rfl
@[simp] theorem afterSelect_out (s : State) : (afterSelect s).out = s.out := by unfold afterSelect; split <;> rfl
@[simp] theorem afterSelect_inbox (s : State) : (afterSelect s).inbox = s.inbox := by unfold afterSelect; split <;> rfl
@[simp] theorem afterSelect_hostData (s : State) : (afterSelect s).hostData = s.hostData := by unfold afterSelect; split <;> rfl
@[simp] theorem afterSelect_grain (s : State) : (afterSelect s).grain = s.grain := by unfold afterSelect; split <;> rfl
@[simp] theorem afterSelect_call (s : State) : (afterSelect s).call = s.call := by unfold afterSelect; split <;> rfl
@[simp] theorem afterSelect_sampled (s : State) : (afterSelect s).sampled = s.sampled := by unfold afterSelect; split <;> rfl
@[simp] theorem afterSelect_draws (s : State) : (afterSelect s).draws = s.draws := by unfold afterSelect; split <;> rfl
@[simp] theorem afterSelect_len (s : State) : len (afterSelect s) = len s := by simp [len]
@[simp] theorem afterSelect_imgW (s : State) : imgW (afterSelect s) = imgW s := by simp [imgW]
@[simp] theorem afterSelect_imgH (s : State) : imgH (afterSelect s) = imgH s := by simp [imgH]
@[simp] theorem afterSelect_outSize (s : State) : outSize (afterSelect s) = outSize s := by simp [outSize, imgW, imgH]

/-! ### afterView -/

@[simp] theorem afterView_y (k : Slot) (s : State) : (afterView k s).y = 0 := by cases k <;> simp only [afterView] <;> (try split) <;> simp
@[simp] theorem afterView_x (k : Slot) (s : State) : (afterView k s).x = 0 := by cases k <;> simp only [afterView] <;> (try split) <;> simp
@[simp] theorem afterView_err (k : Slot) (s : State) : (afterView k s).err = s.err := by cases k <;> simp only [afterView] <;> (try split) <;> simp
@[simp] theorem afterView_errView (k : Slot) (s : State) : (afterView k s).errView = s.errView := by cases k <;> simp only [afterView] <;> (try split) <;> simp
@[simp] theorem afterView_path (k : Slot) (s : State) : (afterView k s).path = s.path := by cases k <;> simp only [afterView] <;> (try split) <;> simp
@[simp] theorem afterView_errInfo (k : Slot) (s : State) : (afterView k s).errInfo = s.errInfo := by cases k <;> simp only [afterView] <;> (try split) <;> simp
@[simp] theorem afterView_srcLen (k : Slot) (s : State) : (afterView k s).srcLen = s.srcLen := by cases k <;> simp only [afterView] <;> (try split) <;> simp
@[simp] theorem afterView_cfgW (k : Slot) (s : State) : (afterView k s).cfgW = s.cfgW := by cases k <;> simp only [afterView] <;> (try split) <;> simp
@[simp] theorem afterView_cfgH (k : Slot) (s : State) : (afterView k s).cfgH = s.cfgH := by cases k <;> simp only [afterView] <;> (try split) <;> simp
@[simp] theorem afterView_hdrSize (k : Slot) (s : State) : (afterView k s).hdrSize = s.hdrSize := by cases k <;> simp only [afterView] <;> (try split) <;> simp
@[simp] theorem afterView_hdrBitcount (k : Slot) (s : State) : (afterView k s).hdrBitcount = s.hdrBitcount := by cases k <;> simp only [afterView] <;> (try split) <;> simp
@[simp] theorem afterView_hdrClrused (k : Slot) (s : State) : (afterView k s).hdrClrused = s.hdrClrused := by cases k <;> simp only [afterView] <;> (try split) <;> simp
@[simp] theorem afterView_nColors (k : Slot) (s : State) : (afterView k s).nColors = s.nColors := by cases k <;> simp only [afterView] <;> (try split) <;> simp
@[simp] theorem afterView_lLen (k : Slot) (s : State) : (afterView k s).lLen = s.lLen := by cases k <;> simp only [afterView] <;> (try split) <;> simp
@[simp] theorem afterView_lW (k : Slot) (s : State) : (afterView k s).lW = s.lW := by cases k <;> simp only [afterView] <;> (try split) <;> simp
@[simp] theorem afterView_lH (k : Slot) (s : State) : (afterView k s).lH = s.lH := by cases k <;> simp only [afterView] <;> (try split) <;> simp
@[simp] theorem afterView_vPal (k : Slot) (s : State) : (afterView k s).vPal = s.vPal := by cases k <;> simp only [afterView] <;> (try split) <;> simp
@[simp] theorem afterView_vCol (k : Slot) (s : State) : (afterView k s).vCol = s.vCol := by cases k <;> simp only [afterView] <;> (try split) <;> simp
@[simp] theorem afterView_vMsk (k : Slot) (s : State) : (afterView k s).vMsk = s.vMsk := by cases k <;> simp only [afterView] <;> (try split) <;> simp
@[simp] theorem afterView_src (k : Slot) (s : State) : (afterView k s).src = s.src := by cases k <;> simp only [afterView] <;> (try split) <;> simp
@[simp] theorem afterView_out (k : Slot) (s : State) : (afterView k s).out = s.out := by cases k <;> simp only [afterView] <;> (try split) <;> simp
@[simp] theorem afterView_inbox (k : Slot) (s : State) : (afterView k s).inbox = s.inbox := by cases k <;> simp only [afterView] <;> (try split) <;> simp
@[simp] theorem afterView_hostData (k : Slot) (s : State) : (afterView k s).hostData = s.hostData := by cases k <;> simp only [afterView] <;> (try split) <;> simp
@[simp] theorem afterView_grain (k : Slot) (s : State) : (afterView k s).grain = s.grain := by cases k <;> simp only [afterView] <;> (try split) <;> simp
@[simp] theorem afterView_call (k : Slot) (s : State) : (afterView k s).call = s.call := by cases k <;> simp only [afterView] <;> (try split) <;> simp
@[simp] theorem afterView_sampled (k : Slot) (s : State) : (afterView k s).sampled = s.sampled := by cases k <;> simp only [afterView] <;> (try split) <;> simp
@[simp] theorem afterView_draws (k : Slot) (s : State) : (afterView k s).draws = s.draws := by cases k <;> simp only [afterView] <;> (try split) <;> simp
@[simp] theorem afterView_len (k : Slot) (s : State) : len (afterView k s) = len s := by simp [len]
@[simp] theorem afterView_imgW (k : Slot) (s : State) : imgW (afterView k s) = imgW s := by simp [imgW]
@[simp] theorem afterView_imgH (k : Slot) (s : State) : imgH (afterView k s) = imgH s := by simp [imgH]
@[simp] theorem afterView_outSize (k : Slot) (s : State) : outSize (afterView k s) = outSize s := by simp [outSize, imgW, imgH]

/-! ### the view slots -/

@[simp] theorem viewOf_setView_same (k : Slot) (v : View) (s : State) : viewOf k (setView k v s) = v := by
  cases k <;> rfl

theorem viewOf_setView_other {k l : Slot} (h : l ≠ k) (v : View) (s : State) :
    viewOf l (setView k v s) = viewOf l s := by
  cases k <;> cases l <;> first | rfl | exact absurd rfl h

@[simp] theorem viewOf_pal (s : State) : viewOf .pal s = s.vPal := rfl
@[simp] theorem viewOf_col (s : State) : viewOf .col s = s.vCol := rfl
@[simp] theorem viewOf_msk (s : State) : viewOf .msk s = s.vMsk := rfl
@[simp] theorem setView_pal_vPal (v : View) (s : State) : (setView .pal v s).vPal = v := rfl
@[simp] theorem setView_pal_vCol (v : View) (s : State) : (setView .pal v s).vCol = s.vCol := rfl
@[simp] theorem setView_pal_vMsk (v : View) (s : State) : (setView .pal v s).vMsk = s.vMsk := rfl
@[simp] theorem setView_col_vPal (v : View) (s : State) : (setView .col v s).vPal = s.vPal := rfl
@[simp] theorem setView_col_vCol (v : View) (s : State) : (setView .col v s).vCol = v := rfl
@[simp] theorem setView_col_vMsk (v : View) (s : State) : (setView .col v s).vMsk = s.vMsk := rfl
@[simp] theorem setView_msk_vPal (v : View) (s : State) : (setView .msk v s).vPal = s.vPal := rfl
@[simp] theorem setView_msk_vCol (v : View) (s : State) : (setView .msk v s).vCol = s.vCol := rfl
@[simp] theorem setView_msk_vMsk (v : View) (s : State) : (setView .msk v s).vMsk = v := rfl
@[simp] theorem viewOf_goto (k : Slot) (p : Phase) (s : State) : viewOf k (goto p s) = viewOf k s := by cases k <;> rfl
@[simp] theorem viewOf_gotoPixel (k : Slot) (j i : Nat) (s : State) : viewOf k (gotoPixel j i s) = viewOf k s := by cases k <;> rfl
@[simp] theorem viewOf_enterFault (k : Slot) (c : ErrCode) (w : Option Slot) (n : Nat) (s : State) :
    viewOf k (enterFault c w n s) = viewOf k s := by cases k <;> rfl
@[simp] theorem viewOf_clearStatus (k : Slot) (s : State) : viewOf k (clearStatus s) = viewOf k s := by cases k <;> rfl
@[simp] theorem viewOf_latchHeader (k : Slot) (h b c : Nat) (s : State) : viewOf k (latchHeader h b c s) = viewOf k s := by
  cases k <;> rfl
@[simp] theorem viewOf_setSelection (k : Slot) (n : Nat) (p : Path) (s : State) :
    viewOf k (setSelection n p s) = viewOf k s := by cases k <;> rfl
@[simp] theorem viewOf_setOut (k : Slot) (m : Memory) (s : State) : viewOf k (setOut m s) = viewOf k s := by cases k <;> rfl
@[simp] theorem viewOf_setInbox (k : Slot) (q : List HostAccess) (s : State) : viewOf k (setInbox q s) = viewOf k s := by
  cases k <;> rfl
@[simp] theorem viewOf_takeCall (k : Slot) (s : State) : viewOf k (takeCall s) = viewOf k s := by cases k <;> rfl
@[simp] theorem viewOf_keepSample (k : Slot) (b : Byte) (s : State) : viewOf k (keepSample b s) = viewOf k s := by
  cases k <;> rfl
@[simp] theorem viewOf_invalidateViews (k : Slot) (s : State) :
    viewOf k (invalidateViews s) = { viewOf k s with valid := false } := by cases k <;> rfl

end Sys2Proof.Machine
end

