-- ==== Sys2Proof/Laws/Memory.lean ====
section
/-! SUPPORT. The laws of a byte space: reading after a write, and that a write keeps the canonical form. -/

namespace Sys2Proof.Machine

@[simp] theorem Memory.get_nil (a : Nat) : Memory.get [] a = Config.unlistedByte := rfl

theorem Memory.get_cons (k : Nat) (v : Byte) (m : Memory) (a : Nat) :
    Memory.get ((k, v) :: m) a = if a = k then v else Memory.get m a := rfl

/-- An address below every listed one reads as unlisted. -/
theorem Memory.get_of_lt {m : Memory} {a : Nat} (h : ∀ c ∈ m, a < c.1) :
    m.get a = Config.unlistedByte := by
  induction m with
  | nil => rfl
  | cons c m ih =>
    obtain ⟨k, v⟩ := c
    have hk : a < k := h (k, v) (by simp)
    rw [Memory.get_cons, if_neg (by omega)]
    exact ih fun c hc => h c (by simp [hc])

theorem Memory.get_cell (a : Nat) (b : Byte) (m : Memory) (x : Nat) (h : m.get a = Config.unlistedByte) :
    Memory.get (Memory.cell a b m) x = if x = a then b else m.get x := by
  unfold Memory.cell
  split
  next hb =>
    split
    next hx => rw [hx, h, hb]
    · rfl
  next => exact Memory.get_cons a b m x

theorem Memory.wf_tail {c : Host.Cell} {m : Memory} (h : Memory.wf (c :: m)) : Memory.wf m := by
  obtain ⟨hp, hv⟩ := h
  exact ⟨(List.pairwise_cons.mp hp).2, fun d hd => hv d (by simp [hd])⟩

theorem Memory.lt_of_wf {c : Host.Cell} {m : Memory} (h : Memory.wf (c :: m)) : ∀ d ∈ m, c.1 < d.1 :=
  (List.pairwise_cons.mp h.1).1

/-- Reading a memory that was written, at every address. -/
theorem Memory.get_set {m : Memory} (h : m.wf) (a : Nat) (b : Byte) (x : Nat) :
    (m.set a b).get x = if x = a then b else m.get x := by
  induction m with
  | nil => exact Memory.get_cell a b [] x rfl
  | cons c m ih =>
    obtain ⟨k, v⟩ := c
    have hlt : ∀ d ∈ m, k < d.1 := Memory.lt_of_wf h
    unfold Memory.set
    split
    next hak =>
      refine Memory.get_cell a b _ x (Memory.get_of_lt fun d hd => ?_)
      rcases List.mem_cons.mp hd with rfl | hd
      · exact hak
      · exact lt_trans hak (hlt d hd)
    next hak =>
      split
      next hk =>
        subst hk
        rw [Memory.get_cell a b m x (Memory.get_of_lt hlt), Memory.get_cons]
        split <;> simp_all
      next hk =>
        rw [Memory.get_cons, Memory.get_cons, ih (Memory.wf_tail h)]
        by_cases hx : x = k <;> by_cases hxa : x = a <;> simp_all

theorem Memory.get_set_same {m : Memory} (h : m.wf) (a : Nat) (b : Byte) : (m.set a b).get a = b := by
  simp [Memory.get_set h]

theorem Memory.get_set_other {m : Memory} (h : m.wf) {a x : Nat} (b : Byte) (hx : x ≠ a) :
    (m.set a b).get x = m.get x := by
  simp [Memory.get_set h, hx]

theorem Memory.mem_cell {a : Nat} {b : Byte} {m : Memory} {d : Host.Cell} (h : d ∈ Memory.cell a b m) :
    d = (a, b) ∨ d ∈ m := by
  unfold Memory.cell at h
  split at h
  · exact .inr h
  · exact List.mem_cons.mp h

/-- Every cell of a written memory is the written one or was there. -/
theorem Memory.mem_set {m : Memory} {a : Nat} {b : Byte} {d : Host.Cell} (h : d ∈ m.set a b) :
    d = (a, b) ∨ d ∈ m := by
  induction m with
  | nil => exact Memory.mem_cell h
  | cons c m ih =>
    obtain ⟨k, v⟩ := c
    unfold Memory.set at h
    split at h
    · exact Memory.mem_cell h
    split at h
    · exact (Memory.mem_cell h).imp_right fun h => by simp [h]
    · rcases List.mem_cons.mp h with rfl | h
      · simp
      · exact (ih h).imp_right fun h => by simp [h]

theorem Memory.wf_cell {a : Nat} {b : Byte} {m : Memory} (h : m.wf) (hlt : ∀ d ∈ m, a < d.1) :
    Memory.wf (Memory.cell a b m) := by
  unfold Memory.cell
  split
  · exact h
  next hb =>
    refine ⟨List.pairwise_cons.mpr ⟨hlt, h.1⟩, fun d hd => ?_⟩
    rcases List.mem_cons.mp hd with rfl | hd
    · exact hb
    · exact h.2 d hd

/-- A write keeps the canonical form. -/
theorem Memory.wf_set {m : Memory} (h : m.wf) (a : Nat) (b : Byte) : (m.set a b).wf := by
  induction m with
  | nil => exact Memory.wf_cell h (by simp)
  | cons c m ih =>
    obtain ⟨k, v⟩ := c
    have hlt : ∀ d ∈ m, k < d.1 := Memory.lt_of_wf h
    unfold Memory.set
    split
    next hak =>
      refine Memory.wf_cell h fun d hd => ?_
      rcases List.mem_cons.mp hd with rfl | hd
      · exact hak
      · exact lt_trans hak (hlt d hd)
    next hak =>
      split
      next hk => subst hk; exact Memory.wf_cell (Memory.wf_tail h) hlt
      next hk =>
        have ht := ih (Memory.wf_tail h)
        refine ⟨List.pairwise_cons.mpr ⟨fun d hd => ?_, ht.1⟩, fun d hd => ?_⟩
        · rcases Memory.mem_set hd with rfl | hd
          · show k < a; omega
          · exact hlt d hd
        · rcases List.mem_cons.mp hd with rfl | hd
          · exact h.2 (k, v) (by simp)
          · exact ht.2 d hd

/-- Two canonical memories that read alike everywhere are equal data. -/
theorem Memory.ext_of_get {m n : Memory} (hm : m.wf) (hn : n.wf) (h : ∀ a, m.get a = n.get a) : m = n := by
  induction m generalizing n with
  | nil =>
    cases n with
    | nil => rfl
    | cons d n =>
      have := h d.1
      rw [show d = (d.1, d.2) from rfl, Memory.get_cons, if_pos rfl] at this
      exact absurd this.symm (hn.2 d (by simp))
  | cons c m ih =>
    cases n with
    | nil =>
      have := h c.1
      rw [show c = (c.1, c.2) from rfl, Memory.get_cons, if_pos rfl] at this
      exact absurd this (hm.2 c (by simp))
    | cons d n =>
      obtain ⟨k, v⟩ := c
      obtain ⟨l, w⟩ := d
      have hk := Memory.lt_of_wf hm
      have hl := Memory.lt_of_wf hn
      have hv : v ≠ Config.unlistedByte := hm.2 (k, v) (by simp)
      have hw : w ≠ Config.unlistedByte := hn.2 (l, w) (by simp)
      have e1 := h k
      have e2 := h l
      simp only [Memory.get_cons, if_true] at e1 e2
      have hkl : k = l := by
        by_contra hne
        rcases Nat.lt_or_gt_of_ne hne with hlt | hlt
        · rw [if_neg hne, Memory.get_of_lt fun c hc => lt_trans hlt (hl c hc)] at e1
          exact hv e1
        · rw [if_neg (Ne.symm hne), Memory.get_of_lt fun c hc => lt_trans hlt (hk c hc)] at e2
          exact hw e2.symm
      subst hkl
      simp only [if_true] at e1
      subst e1
      congr 1
      refine ih (Memory.wf_tail hm) (Memory.wf_tail hn) fun a => ?_
      have := h a
      simp only [Memory.get_cons] at this
      by_cases ha : a = k
      · subst ha
        rw [Memory.get_of_lt hk, Memory.get_of_lt hl]
      · simpa [ha] using this

/-- Placing consecutive bytes keeps the canonical form. -/
theorem setBytes_wf {m : Memory} (h : m.wf) (a : Nat) (bs : List Byte) : (setBytes m a bs).wf := by
  induction bs generalizing m a with
  | nil => exact h
  | cons b bs ih => exact ih (Memory.wf_set h a b) (a + 1)

theorem reset_memory_wf : State.reset.src.wf ∧ State.reset.out.wf := by decide

end Sys2Proof.Machine
end

