-- ==== Sys2Proof/Laws/Ops.lean ====
section
/-! SUPPORT. What each shared operation can do, said once: what it answers under which condition, and what its
answer leaves unchanged. -/

namespace Sys2Proof.Machine

/-! ### Flow -/

section Flow

variable {α β : Type}

@[simp] theorem Flow.ok_andThen (a : α) (k : α → Flow β) : (Flow.ok a).andThen k = k a := rfl
@[simp] theorem Flow.raised_andThen (s : State) (k : α → Flow β) : (Flow.raised s).andThen k = .raised s := rfl
@[simp] theorem Flow.fault_andThen (f : Fault) (k : α → Flow β) : (Flow.fault f).andThen k = .fault f := rfl
@[simp] theorem Flow.refused_andThen (r : Refusal) (k : α → Flow β) : (Flow.refused r).andThen k = .refused r := rfl
@[simp] theorem Flow.outcome_ok (s : State) : (Flow.ok s).outcome = .next s := rfl
@[simp] theorem Flow.outcome_raised (s : State) : (Flow.raised s).outcome = .next s := rfl
@[simp] theorem Flow.outcome_fault (f : Fault) : (Flow.fault f).outcome = .fault f := rfl
@[simp] theorem Flow.outcome_refused (r : Refusal) : (Flow.refused r).outcome = .refused r := rfl

theorem Flow.andThen_eq_ok {m : Flow α} {k : α → Flow β} {b : β} :
    m.andThen k = .ok b ↔ ∃ a, m = .ok a ∧ k a = .ok b := by
  cases m <;> simp [Flow.andThen]

theorem Flow.andThen_eq_raised {m : Flow α} {k : α → Flow β} {s : State} :
    m.andThen k = .raised s ↔ m = .raised s ∨ ∃ a, m = .ok a ∧ k a = .raised s := by
  cases m <;> simp [Flow.andThen]

theorem Flow.andThen_eq_fault {m : Flow α} {k : α → Flow β} {f : Fault} :
    m.andThen k = .fault f ↔ m = .fault f ∨ ∃ a, m = .ok a ∧ k a = .fault f := by
  cases m <;> simp [Flow.andThen]

theorem Flow.andThen_eq_refused {m : Flow α} {k : α → Flow β} {r : Refusal} :
    m.andThen k = .refused r ↔ m = .refused r ∨ ∃ a, m = .ok a ∧ k a = .refused r := by
  cases m <;> simp [Flow.andThen]

theorem Flow.outcome_eq_next {m : Flow State} {t : State} :
    m.outcome = .next t ↔ m = .ok t ∨ m = .raised t := by
  cases m <;> simp [Flow.outcome]

theorem Flow.andThen_assoc {γ : Type} (m : Flow α) (k : α → Flow β) (l : β → Flow γ) :
    (m.andThen k).andThen l = m.andThen fun a => (k a).andThen l := by
  cases m <;> rfl

end Flow

/-! ### Arithmetic of views -/

theorem stride_eq (w d : Nat) : stride w d = (w * d + 31) / 32 * 4 := by
  unfold stride align4 ceilDiv
  omega

theorem rowBytes_le_stride (w d : Nat) : w * d ≤ 8 * stride w d := by
  rw [stride_eq]
  omega

@[simp] theorem mkView_valid (o w h d : Nat) (f : Fmt) : (mkView o w h d f).valid = true := rfl
@[simp] theorem mkView_off (o w h d : Nat) (f : Fmt) : (mkView o w h d f).off = o := rfl
@[simp] theorem mkView_width (o w h d : Nat) (f : Fmt) : (mkView o w h d f).width = w := rfl
@[simp] theorem mkView_height (o w h d : Nat) (f : Fmt) : (mkView o w h d f).height = h := rfl
@[simp] theorem mkView_depth (o w h d : Nat) (f : Fmt) : (mkView o w h d f).depth = d := rfl
@[simp] theorem mkView_fmt (o w h d : Nat) (f : Fmt) : (mkView o w h d f).fmt = f := rfl
@[simp] theorem mkView_stride (o w h d : Nat) (f : Fmt) : (mkView o w h d f).stride = stride w d := rfl
@[simp] theorem mkView_size (o w h d : Nat) (f : Fmt) : (mkView o w h d f).size = stride w d * h := rfl

/-- A row's bytes lie inside the view: row y < h of stride k ends by `off + k * h`. -/
theorem row_inside {y h k b : Nat} (hy : y < h) (hb : b < k) : y * k + b < k * h := by
  have h1 : (y + 1) * k ≤ h * k := Nat.mul_le_mul_right k hy
  have h2 : (y + 1) * k = y * k + k := by ring
  have h3 : h * k = k * h := Nat.mul_comm h k
  omega

/-- The covering byte of a pixel at a depth below 8 lies inside its row (20_memory.md R73). -/
theorem subByte_inside {x w d : Nat} (hd : d = 1 ∨ d = 2 ∨ d = 4) (hx : x < w) :
    x / (8 / d) < stride w d := by
  have := rowBytes_le_stride w d
  rcases hd with rfl | rfl | rfl <;> omega

/-- The channel byte of a pixel at a whole-byte depth lies inside its row (20_memory.md R73). -/
theorem wholeByte_inside {x w d i : Nat} (hd : d = 8 ∨ d = 16 ∨ d = 24 ∨ d = 32) (hx : x < w)
    (hi : i < d / 8) : x * (d / 8) + i < stride w d := by
  have := rowBytes_le_stride w d
  rcases hd with rfl | rfl | rfl | rfl <;> omega

/-! ### Reads of SRC -/

theorem readSrc_ok {a : Nat} {s : State} (h : a < len s) : readSrc a s = .ok (s.src.get a) := if_pos h

theorem readSrc_eq_ok {a : Nat} {s : State} {b : Byte} :
    readSrc a s = .ok b ↔ a < len s ∧ s.src.get a = b := by
  unfold readSrc
  split <;> simp_all

theorem readSrc_not_raised {a : Nat} {s t : State} : readSrc a s ≠ .raised t := by
  unfold readSrc
  split <;> simp

theorem memRead_ok {a n : Nat} {s : State} (h : a + n ≤ len s) :
    memRead a n s = .ok (leNat ((List.range n).map fun k => s.src.get (a + k))) :=
  if_neg (by omega)

theorem memRead_raises {a n : Nat} {s : State} (h : len s < a + n) :
    memRead a n s = .raised (enterFault .outOfBounds none a s) :=
  if_pos h

theorem leNat_lt (bs : List Byte) : leNat bs < 256 ^ bs.length := by
  induction bs with
  | nil => simp [leNat]
  | cons b bs ih =>
    have hb : b.toNat < 256 := b.isLt
    simp only [leNat, List.length_cons, pow_succ]
    omega

/-- HDR.FETCH's reads fit exactly where LEN is at least 36 (42_select.md R170). -/
theorem fetchHeader_ok {s : State} (h : 36 ≤ len s) :
    fetchHeader s = .ok (latchHeader
      (leNat ((List.range 4).map fun k => s.src.get (0 + k)))
      (leNat ((List.range 2).map fun k => s.src.get (14 + k)))
      (leNat ((List.range 4).map fun k => s.src.get (32 + k))) s) := by
  unfold fetchHeader
  rw [memRead_ok (by omega), memRead_ok (by omega), memRead_ok (by omega)]
  rfl

/-- Below 36 the first read that does not fit raises OutOfBounds at its offset (42_select.md R170). -/
theorem fetchHeader_raises {s : State} (h : len s < 36) :
    fetchHeader s = .raised (enterFault .outOfBounds none
      (if len s < 4 then 0 else if len s < 16 then 14 else 32) s) := by
  unfold fetchHeader
  by_cases h4 : len s < 4
  · rw [memRead_raises (by omega), if_pos h4]; rfl
  rw [memRead_ok (by omega), if_neg h4, Flow.ok_andThen]
  by_cases h16 : len s < 16
  · rw [memRead_raises (by omega), if_pos h16]; rfl
  rw [memRead_ok (by omega), if_neg h16, Flow.ok_andThen, memRead_raises (by omega)]
  rfl

/-! ### SELECT and VIEW.MAKE -/

/-- SELECT answers on exactly one of the two paths, or raises with the declared depth. -/
theorem selectPath_cases (s : State) :
    let b := s.hdrBitcount.toNat
    let n := paletteCount b s.hdrClrused.toNat
    (n ≠ 0 ∧ paletteDepth b = true ∧
      selectPath s = .ok (setSelection n .palette s)) ∨
    (n = 0 ∧ trueColourDepth b = true ∧
      selectPath s = .ok (setSelection n .trueColour s)) ∨
    ((n ≠ 0 → paletteDepth b = false) ∧ (n = 0 → trueColourDepth b = false) ∧
      selectPath s = .raised (enterFault .unsupportedColorDepth none b s)) := by
  intro b n
  unfold selectPath
  by_cases hn : paletteCount s.hdrBitcount.toNat s.hdrClrused.toNat = 0
  · cases ht : trueColourDepth s.hdrBitcount.toNat <;> simp [b, n, hn, ht, raise]
  · cases hp : paletteDepth s.hdrBitcount.toNat <;> simp [b, n, hn, hp, raise]

/-- NCOLORS fits its register (10_state.md R28). -/
theorem paletteCount_lt {b c : Nat} (hc : c < 2 ^ 32) : paletteCount b c < 2 ^ 32 := by
  unfold paletteCount
  split
  next h => exact lt_of_le_of_lt (Nat.pow_le_pow_right (by omega) h.2) (by norm_num)
  · exact hc

theorem makeView_fits {k : Slot} {o w h d : Nat} {f : Fmt} {s : State} (hf : o + viewSize w h d ≤ len s) :
    makeView k o w h d f s = .ok (setView k (mkView o w h d f) s) :=
  if_neg (by omega)

theorem makeView_truncated {k : Slot} {o w h d : Nat} {f : Fmt} {s : State}
    (hf : len s < o + viewSize w h d) :
    makeView k o w h d f s = .raised (enterFault .truncatedData (some k) o s) :=
  if_pos hf

/-- VIEW.MAKE writes its slot where the view fits, and raises TruncatedData where it does not. -/
theorem makeView_cases (k : Slot) (o w h d : Nat) (f : Fmt) (s : State) :
    (o + viewSize w h d ≤ len s ∧ makeView k o w h d f s = .ok (setView k (mkView o w h d f) s)) ∨
    (len s < o + viewSize w h d ∧
      makeView k o w h d f s = .raised (enterFault .truncatedData (some k) o s)) := by
  rcases Nat.lt_or_ge (len s) (o + viewSize w h d) with hf | hf
  · exact .inr ⟨hf, makeView_truncated hf⟩
  · exact .inl ⟨hf, makeView_fits hf⟩

/-! ### The row reader -/

theorem sampleGuard_none {v : View} {d x y : Nat} {ch : Channel} (hv : v.valid = true) (hd : v.depth = d)
    (hx : x < v.width) (hy : y < v.height) (hc : ch ∈ fmtLetters v.fmt) : sampleGuard v d x y ch = none := by
  simp [sampleGuard, hv, hd, hx, hy, hc]

/-- A sub-byte sample in its grid of a view in the window is one lane of the covering byte. -/
theorem subByteSample_ok {o w h d x y : Nat} {f : Fmt} {ch : Channel} {s : State}
    (hd : d = 1 ∨ d = 2 ∨ d = 4) (hx : x < w) (hy : y < h) (hc : ch ∈ fmtLetters f)
    (hf : o + stride w d * h ≤ len s) :
    subByteSample (mkView o w h d f) d x y ch s =
      .ok (bitField (s.src.get (o + y * stride w d + x / (8 / d))) (8 - d - x % (8 / d) * d) d) := by
  have hin := row_inside hy (subByte_inside hd hx)
  unfold subByteSample guarded
  rw [sampleGuard_none (v := mkView o w h d f) (d := d) rfl rfl hx hy hc]
  simp only [subByteAddr, rowBase, mkView_off, mkView_stride]
  rw [readSrc_ok (by omega)]
  rfl

/-- A whole-byte sample in its grid of a view in the window is the channel's byte. -/
theorem wholeByteSample_ok {o w h d x y : Nat} {f : Fmt} {ch : Channel} {s : State}
    (hd : d = 8 ∨ d = 16 ∨ d = 24 ∨ d = 32) (hx : x < w) (hy : y < h) (hc : ch ∈ fmtLetters f)
    (hi : channelIdx f ch < d / 8) (hf : o + stride w d * h ≤ len s) :
    wholeByteSample (mkView o w h d f) d x y ch s =
      .ok (s.src.get (o + y * stride w d + x * (d / 8) + channelIdx f ch)) := by
  have hin := row_inside hy (wholeByte_inside hd hx hi)
  unfold wholeByteSample guarded
  rw [sampleGuard_none (v := mkView o w h d f) (d := d) rfl rfl hx hy hc]
  simp only [wholeByteAddr, rowBase, mkView_off, mkView_stride, mkView_fmt]
  exact readSrc_ok (by omega)

theorem sample_subByte {o w h d x y : Nat} {f : Fmt} {ch : Channel} {s : State}
    (hd : d = 1 ∨ d = 2 ∨ d = 4) (hx : x < w) (hy : y < h) (hc : ch ∈ fmtLetters f)
    (hf : o + stride w d * h ≤ len s) :
    sample (mkView o w h d f) x y ch s =
      .ok (bitField (s.src.get (o + y * stride w d + x / (8 / d))) (8 - d - x % (8 / d) * d) d) := by
  rw [← subByteSample_ok hd hx hy hc hf]
  rcases hd with rfl | rfl | rfl <;> rfl

theorem sample_wholeByte {o w h d x y : Nat} {f : Fmt} {ch : Channel} {s : State}
    (hd : d = 8 ∨ d = 16 ∨ d = 24 ∨ d = 32) (hx : x < w) (hy : y < h) (hc : ch ∈ fmtLetters f)
    (hi : channelIdx f ch < d / 8) (hf : o + stride w d * h ≤ len s) :
    sample (mkView o w h d f) x y ch s =
      .ok (s.src.get (o + y * stride w d + x * (d / 8) + channelIdx f ch)) := by
  rw [← wholeByteSample_ok hd hx hy hc hi hf]
  rcases hd with rfl | rfl | rfl | rfl <;> rfl

theorem guarded_not_raised {v : View} {d x y : Nat} {ch : Channel} {m : Flow Byte} {t : State}
    (h : m ≠ .raised t) : guarded v d x y ch m ≠ .raised t := by
  unfold guarded
  split
  · simp
  · exact h

/-- The row reader raises no fault (41_sample.md R150). -/
theorem sample_not_raised {v : View} {x y : Nat} {ch : Channel} {s t : State} :
    sample v x y ch s ≠ .raised t := by
  have hs (d : Nat) : subByteSample v d x y ch s ≠ .raised t := guarded_not_raised fun h => by
    rcases Flow.andThen_eq_raised.mp h with h | ⟨b, _, h⟩
    · exact readSrc_not_raised h
    · cases h
  have hw (d : Nat) : wholeByteSample v d x y ch s ≠ .raised t := guarded_not_raised readSrc_not_raised
  unfold sample
  split
  · exact hs 1
  · exact hs 2
  · exact hs 4
  · exact hw 8
  · exact hw 16
  · exact hw 24
  · exact hw 32
  · simp

/-- The value of a bit field, as R9's shift and mask: `(b >> shift) mod 2^width`. -/
theorem bitField_toNat (b : Byte) (shift width : Nat) (hw : width ≤ 8) :
    (bitField b shift width).toNat = b.toNat / 2 ^ shift % 2 ^ width := by
  have hp : (1 : Nat) ≤ 2 ^ width := Nat.one_le_two_pow
  have hle : 2 ^ width ≤ 2 ^ 8 := Nat.pow_le_pow_right (by omega) hw
  simp only [bitField, BitVec.toNat_and, BitVec.toNat_ushiftRight, BitVec.toNat_ofNat, Nat.shiftRight_eq_div_pow]
  rw [Nat.mod_eq_of_lt (a := 2 ^ width - 1) (by omega), Nat.and_two_pow_sub_one_eq_mod]

/-! ### The output -/

theorem memWrite_ok {a : Nat} {b : Byte} {s : State} (h : a < outSize s) :
    memWrite a b s = .ok (setOut (s.out.set a b) s) := if_pos h

theorem memWrite_eq_ok {a : Nat} {b : Byte} {s t : State} :
    memWrite a b s = .ok t ↔ a < outSize s ∧ t = setOut (s.out.set a b) s := by
  unfold memWrite
  split <;> simp_all [eq_comm]

/-- The address of a pixel in the picture lies inside OUT (20_memory.md R72, R79). -/
theorem outAddr_inside {w h x y : Nat} (hx : x < w) (hy : y < h) : outAddr w x y + 4 ≤ w * h * 4 := by
  have := row_inside (k := w) hy hx
  unfold outAddr
  omega

/-- Emit writes the four bytes of its pixel (43_composite.md R199). -/
theorem emit_ok {x y : Nat} {r g b a : Byte} {s : State} (hx : x < imgW s) (hy : y < imgH s) :
    emit x y r g b a s =
      let o := outAddr (imgW s) x y
      .ok (setOut ((((s.out.set o r).set (o + 1) g).set (o + 2) b).set (o + 3) a) s) := by
  have hin := outAddr_inside hx hy
  have hsz : outSize s = imgW s * imgH s * 4 := rfl
  simp only [emit]
  rw [memWrite_ok (by omega), Flow.ok_andThen, memWrite_ok (by rw [setOut_outSize]; omega), Flow.ok_andThen,
    memWrite_ok (by simp only [setOut_outSize]; omega), Flow.ok_andThen,
    memWrite_ok (by simp only [setOut_outSize]; omega)]
  rfl

/-- What Emit changes is OUT only, and nothing but an answer or a stop comes of it. -/
theorem emit_frame {x y : Nat} {r g b a : Byte} {s t : State} (h : emit x y r g b a s = .ok t) :
    t = setOut t.out s := by
  simp only [emit] at h
  obtain ⟨s1, h1, h⟩ := Flow.andThen_eq_ok.mp h
  obtain ⟨s2, h2, h⟩ := Flow.andThen_eq_ok.mp h
  obtain ⟨s3, h3, h⟩ := Flow.andThen_eq_ok.mp h
  obtain ⟨-, rfl⟩ := memWrite_eq_ok.mp h1
  obtain ⟨-, rfl⟩ := memWrite_eq_ok.mp h2
  obtain ⟨-, rfl⟩ := memWrite_eq_ok.mp h3
  obtain ⟨-, rfl⟩ := memWrite_eq_ok.mp h
  rfl

theorem emit_wf {x y : Nat} {r g b a : Byte} {s t : State} (hw : s.out.wf)
    (h : emit x y r g b a s = .ok t) : t.out.wf := by
  simp only [emit] at h
  obtain ⟨s1, h1, h⟩ := Flow.andThen_eq_ok.mp h
  obtain ⟨s2, h2, h⟩ := Flow.andThen_eq_ok.mp h
  obtain ⟨s3, h3, h⟩ := Flow.andThen_eq_ok.mp h
  obtain ⟨-, rfl⟩ := memWrite_eq_ok.mp h1
  obtain ⟨-, rfl⟩ := memWrite_eq_ok.mp h2
  obtain ⟨-, rfl⟩ := memWrite_eq_ok.mp h3
  obtain ⟨-, rfl⟩ := memWrite_eq_ok.mp h
  exact Memory.wf_set (Memory.wf_set (Memory.wf_set (Memory.wf_set hw _ _) _ _) _ _) _ _

theorem memWrite_not_raised {a : Nat} {b : Byte} {s t : State} : memWrite a b s ≠ .raised t := by
  unfold memWrite
  split <;> simp

theorem emit_not_raised {x y : Nat} {r g b a : Byte} {s t : State} : emit x y r g b a s ≠ .raised t := by
  intro h
  simp only [emit, Flow.andThen_eq_raised] at h
  rcases h with h | ⟨_, _, h | ⟨_, _, h | ⟨_, _, h⟩⟩⟩ <;> exact memWrite_not_raised h

/-- Reading OUT after the four writes of a pixel. -/
theorem get_emit {m : Memory} (hm : m.wf) (o : Nat) (r g b a : Byte) (x : Nat) :
    ((((m.set o r).set (o + 1) g).set (o + 2) b).set (o + 3) a).get x =
      if x = o + 3 then a else if x = o + 2 then b else if x = o + 1 then g else if x = o then r
      else m.get x := by
  have h1 := Memory.wf_set hm o r
  have h2 := Memory.wf_set h1 (o + 1) g
  have h3 := Memory.wf_set h2 (o + 2) b
  rw [Memory.get_set h3, Memory.get_set h2, Memory.get_set h1, Memory.get_set hm]

/-! ### The pixel bodies -/

theorem onImage_ok {x y : Nat} {s : State} {m : Flow State} (hx : x < imgW s) (hy : y < imgH s) :
    onImage x y s m = m := if_pos ⟨hx, hy⟩

theorem onImage_eq_ok {x y : Nat} {s t : State} {m : Flow State} :
    onImage x y s m = .ok t ↔ (x < imgW s ∧ y < imgH s) ∧ m = .ok t := by
  unfold onImage
  split <;> simp_all

theorem onImage_eq_raised {x y : Nat} {s t : State} {m : Flow State} :
    onImage x y s m = .raised t ↔ (x < imgW s ∧ y < imgH s) ∧ m = .raised t := by
  unfold onImage
  split <;> simp_all

/-- PIX.PAL's body answers with the four bytes of one Emit. -/
theorem palettePixel_eq_ok {x y : Nat} {s t : State} (h : palettePixel x y s = .ok t) :
    ∃ r g b a, emit x y r g b a s = .ok t := by
  obtain ⟨-, h⟩ := onImage_eq_ok.mp h
  obtain ⟨i, -, h⟩ := Flow.andThen_eq_ok.mp h
  split at h
  · cases h
  obtain ⟨r, -, h⟩ := Flow.andThen_eq_ok.mp h
  obtain ⟨g, -, h⟩ := Flow.andThen_eq_ok.mp h
  obtain ⟨b, -, h⟩ := Flow.andThen_eq_ok.mp h
  obtain ⟨m, -, h⟩ := Flow.andThen_eq_ok.mp h
  exact ⟨r, g, b, _, h⟩

/-- The only fault PIX.PAL raises is IndexRange, with the index (43_composite.md R208). -/
theorem palettePixel_eq_raised {x y : Nat} {s t : State} (h : palettePixel x y s = .raised t) :
    ∃ i : Byte, sample s.vCol x (sourceRow (imgH s) y) .c s = .ok i ∧ i.toNat ≥ s.nColors.toNat ∧
      t = enterFault .indexRange none i.toNat s := by
  obtain ⟨-, h⟩ := onImage_eq_raised.mp h
  rcases Flow.andThen_eq_raised.mp h with h | ⟨i, hi, h⟩
  · exact absurd h sample_not_raised
  split at h
  next hn => exact ⟨i, hi, hn, (Flow.raised.inj h).symm⟩
  next =>
    exfalso
    simp only [Flow.andThen_eq_raised] at h
    rcases h with h | ⟨_, _, h | ⟨_, _, h | ⟨_, _, h | ⟨_, _, h⟩⟩⟩⟩
    · exact sample_not_raised h
    · exact sample_not_raised h
    · exact sample_not_raised h
    · exact sample_not_raised h
    · exact emit_not_raised h

theorem trueColour24Pixel_eq_ok {x y : Nat} {s t : State} (h : trueColour24Pixel x y s = .ok t) :
    ∃ r g b a, emit x y r g b a s = .ok t := by
  obtain ⟨-, h⟩ := onImage_eq_ok.mp h
  obtain ⟨r, -, h⟩ := Flow.andThen_eq_ok.mp h
  obtain ⟨g, -, h⟩ := Flow.andThen_eq_ok.mp h
  obtain ⟨b, -, h⟩ := Flow.andThen_eq_ok.mp h
  obtain ⟨m, -, h⟩ := Flow.andThen_eq_ok.mp h
  exact ⟨r, g, b, _, h⟩

theorem trueColour24Pixel_not_raised {x y : Nat} {s t : State} : trueColour24Pixel x y s ≠ .raised t := by
  intro h
  obtain ⟨-, h⟩ := onImage_eq_raised.mp h
  simp only [Flow.andThen_eq_raised] at h
  rcases h with h | ⟨_, _, h | ⟨_, _, h | ⟨_, _, h | ⟨_, _, h⟩⟩⟩⟩
  · exact sample_not_raised h
  · exact sample_not_raised h
  · exact sample_not_raised h
  · exact sample_not_raised h
  · exact emit_not_raised h

theorem trueColour32Pixel_eq_ok {x y : Nat} {s t : State} (h : trueColour32Pixel x y s = .ok t) :
    ∃ r g b a, emit x y r g b a s = .ok t := by
  obtain ⟨-, h⟩ := onImage_eq_ok.mp h
  obtain ⟨r, -, h⟩ := Flow.andThen_eq_ok.mp h
  obtain ⟨g, -, h⟩ := Flow.andThen_eq_ok.mp h
  obtain ⟨b, -, h⟩ := Flow.andThen_eq_ok.mp h
  obtain ⟨a, -, h⟩ := Flow.andThen_eq_ok.mp h
  exact ⟨r, g, b, a, h⟩

theorem trueColour32Pixel_not_raised {x y : Nat} {s t : State} : trueColour32Pixel x y s ≠ .raised t := by
  intro h
  obtain ⟨-, h⟩ := onImage_eq_raised.mp h
  simp only [Flow.andThen_eq_raised] at h
  rcases h with h | ⟨_, _, h | ⟨_, _, h | ⟨_, _, h | ⟨_, _, h⟩⟩⟩⟩
  · exact sample_not_raised h
  · exact sample_not_raised h
  · exact sample_not_raised h
  · exact sample_not_raised h
  · exact emit_not_raised h

/-! ### The pixel loops -/

/-- A relation from the start of a loop to its present state that every pixel keeps holds at its end. -/
theorem rowLoop_keeps {body : Nat → Nat → State → Flow State} {P : State → Prop} {y : Nat}
    (hb : ∀ x s t, P s → body x y s = .ok t → P t) (n x : Nat) (s t : State) (hs : P s)
    (h : rowLoop body y n x s = .ok t) : P t := by
  induction n generalizing x s with
  | zero => cases h; exact hs
  | succ n ih =>
    obtain ⟨u, hu, h⟩ := Flow.andThen_eq_ok.mp h
    exact ih (x + 1) u (hb x s u hs hu) h

theorem imageLoop_keeps {body : Nat → Nat → State → Flow State} {P : State → Prop} {w : Nat}
    (hb : ∀ x y s t, P s → body x y s = .ok t → P t) (n y : Nat) (s t : State) (hs : P s)
    (h : imageLoop body w n y s = .ok t) : P t := by
  induction n generalizing y s with
  | zero => cases h; exact hs
  | succ n ih =>
    obtain ⟨u, hu, h⟩ := Flow.andThen_eq_ok.mp h
    exact ih (y + 1) u (rowLoop_keeps (fun x => hb x y) w 0 s u hs hu) h

end Sys2Proof.Machine
end

