-- ==== Sys2Proof/Laws/Step.lean ====
section
/-! SUPPORT. What a step fetches, by phase and by request, and the loops of the big-step view where they
raise. -/

namespace Sys2Proof.Machine

/-! ### The sequencer, one lemma a phase (43_composite.md R191) -/

theorem sequencer_idle {s : State} (h : s.phase = .idle) : sequencer s = none := by simp [sequencer, h]
theorem sequencer_done {s : State} (h : s.phase = .done) : sequencer s = none := by simp [sequencer, h]
theorem sequencer_fault {s : State} (h : s.phase = .fault) : sequencer s = none := by simp [sequencer, h]
theorem sequencer_hdr {s : State} (h : s.phase = .hdr) : sequencer s = some (headerOperation s) := by
  simp [sequencer, h]
theorem sequencer_sel {s : State} (h : s.phase = .sel) : sequencer s = some .select := by simp [sequencer, h]
theorem sequencer_vpal {s : State} (h : s.phase = .vpal) :
    sequencer s = some (.viewMake .pal s.hdrSize.toNat s.nColors.toNat 1 32 .bgra) := by simp [sequencer, h]
theorem sequencer_vcol {s : State} (h : s.phase = .vcol) : sequencer s = some (colourView s) := by
  simp [sequencer, h]
theorem sequencer_vmsk {s : State} (h : s.phase = .vmsk) :
    sequencer s = some (.viewMake .msk (viewEnd s.vCol) (imgW s) (imgH s) 1 .a) := by simp [sequencer, h]
theorem sequencer_pix {s : State} (h : s.phase = .pix) : sequencer s = some (pixelOperation s) := by
  simp [sequencer, h]

/-- The block moves on its own exactly while BUSY. -/
theorem sequencer_isSome (s : State) : (sequencer s).isSome = busy s := by
  unfold sequencer busy
  cases s.phase <;> rfl

/-! ### The step, one lemma a source of operations -/

/-- With nothing pending, the step runs what the sequencer invokes. -/
theorem step_sequencer {s : State} {i : Instr} (hi : s.inbox = []) (hc : s.call = none)
    (h : sequencer s = some i) : step s = exec i s := by
  simp [step, runFetched, fetch, fetchBlock, hi, hc, h]

/-- With nothing pending and the block not BUSY, nothing moves. -/
theorem step_waits {s : State} (hi : s.inbox = []) (hc : s.call = none) (h : sequencer s = none) :
    step s = .next s := by
  simp [step, runFetched, fetch, fetchBlock, hi, hc, h]

/-- A pending call of the row reader is run, and taken out. -/
theorem step_call {s : State} {k : SampleCall} {i : Instr} (hi : s.inbox = []) (hc : s.call = some k)
    (h : decodeSample (viewOf k.slot s).depth k = .ok i) : step s = exec i (takeCall s) := by
  simp [step, runFetched, fetch, fetchBlock, hi, hc, h]

/-- A pending CTRL write that issues a command runs it, and is taken out. -/
theorem step_ctrl {s : State} {v : Word} {rest : List HostAccess} {i : Instr}
    (hi : s.inbox = .writeReg 0 v :: rest) (h : decode (.ctrl v) = .ok i) :
    step s = exec i (setInbox rest s) := by
  simp [step, runFetched, fetch, fetchCtrl, hi, h]

/-- A pending CTRL write that issues none is taken out and does nothing. -/
theorem step_ctrl_none {s : State} {v : Word} {rest : List HostAccess} {e : DecodeError}
    (hi : s.inbox = .writeReg 0 v :: rest) (h : decode (.ctrl v) = .error e) :
    step s = .next (setInbox rest s) := by
  simp [step, runFetched, fetch, fetchCtrl, hi, h]

/-- Every other pending host access has its effect, and is taken out. -/
theorem step_host {s : State} {a : HostAccess} {rest : List HostAccess} (hi : s.inbox = a :: rest)
    (hy : a ≠ .yield) (hc : ∀ v, a ≠ .writeReg 0 v) : step s = hostAccess a (setInbox rest s) := by
  cases a with
  | writeReg n v =>
    have : n ≠ 0 := fun h => hc v (by rw [h])
    unfold step fetch
    rw [hi]
    simp only [if_neg this]
    rfl
  | yield => exact absurd rfl hy
  | readReg n => simp [step, runFetched, fetch, hi]
  | writeSrc a b => simp [step, runFetched, fetch, hi]
  | readOut a => simp [step, runFetched, fetch, hi]
  | reset => simp [step, runFetched, fetch, hi]

/-- A pending yield is one step of the block. -/
theorem step_yield {s : State} {rest : List HostAccess} (hi : s.inbox = .yield :: rest) :
    step s = runFetched (fetchBlock (setInbox rest s)) := by
  simp [step, fetch, hi]

/-! ### The loops where a pixel raises -/

/-- A row that raises ends in the fault of one of its pixels, reached from a state that the pixels before it
left. -/
theorem rowLoop_raised {body : Nat → Nat → State → Flow State} {P : State → Prop} {y : Nat}
    (hb : ∀ x s t, P s → body x y s = .ok t → P t) (n x : Nat) (s t : State) (hs : P s)
    (h : rowLoop body y n x s = .raised t) : ∃ x' u, P u ∧ x' < x + n ∧ body x' y u = .raised t := by
  induction n generalizing x s with
  | zero => cases h
  | succ n ih =>
    rcases Flow.andThen_eq_raised.mp h with h | ⟨u, hu, h⟩
    · exact ⟨x, s, hs, by omega, h⟩
    · obtain ⟨x', v, hv, hx, hr⟩ := ih (x + 1) u (hb x s u hs hu) h
      exact ⟨x', v, hv, by omega, hr⟩

theorem imageLoop_raised {body : Nat → Nat → State → Flow State} {P : State → Prop} {w : Nat}
    (hb : ∀ x y s t, P s → body x y s = .ok t → P t) (n y : Nat) (s t : State) (hs : P s)
    (h : imageLoop body w n y s = .raised t) :
    ∃ x' y' u, P u ∧ x' < w ∧ y' < y + n ∧ body x' y' u = .raised t := by
  induction n generalizing y s with
  | zero => cases h
  | succ n ih =>
    rcases Flow.andThen_eq_raised.mp h with h | ⟨u, hu, h⟩
    · obtain ⟨x', v, hv, hx, hr⟩ := rowLoop_raised (fun x => hb x y) w 0 s t hs h
      exact ⟨x', y, v, hv, by omega, by omega, hr⟩
    · obtain ⟨x', y', v, hv, hx, hy, hr⟩ :=
        ih (y + 1) u (rowLoop_keeps (fun x => hb x y) w 0 s u hs hu) h
      exact ⟨x', y', v, hv, hx, by omega, hr⟩

/-- A row whose every pixel is answered is answered. -/
theorem rowLoop_answers {body : Nat → Nat → State → Flow State} {P : State → Prop} {y w : Nat}
    (hb : ∀ x s, P s → x < w → ∃ t, body x y s = .ok t ∧ P t) (n x : Nat) (s : State) (hs : P s)
    (hx : x + n ≤ w) : ∃ t, rowLoop body y n x s = .ok t ∧ P t := by
  induction n generalizing x s with
  | zero => exact ⟨s, rfl, hs⟩
  | succ n ih =>
    obtain ⟨u, hu, hPu⟩ := hb x s hs (by omega)
    obtain ⟨t, ht, hPt⟩ := ih (x + 1) u hPu (by omega)
    exact ⟨t, by simp [rowLoop, hu, ht], hPt⟩

theorem imageLoop_answers {body : Nat → Nat → State → Flow State} {P : State → Prop} {w h : Nat}
    (hb : ∀ x y s, P s → x < w → y < h → ∃ t, body x y s = .ok t ∧ P t) (n y : Nat) (s : State) (hs : P s)
    (hy : y + n ≤ h) : ∃ t, imageLoop body w n y s = .ok t ∧ P t := by
  induction n generalizing y s with
  | zero => exact ⟨s, rfl, hs⟩
  | succ n ih =>
    obtain ⟨u, hu, hPu⟩ := rowLoop_answers (fun x s hs hx => hb x y s hs hx (by omega)) w 0 s hs (by omega)
    obtain ⟨t, ht, hPt⟩ := ih (y + 1) u hPu (by omega)
    exact ⟨t, by simp [imageLoop, hu, ht], hPt⟩

end Sys2Proof.Machine
end

