-- ==== Sys2Proof/Laws/Invariant.lean ====
section
/-! SUPPORT. What keeps the invariant `BlockInv`: each single step of the sequencer in its phase, the host's
commands, the reset event, and taking a fault. -/

namespace Sys2Proof.Machine

/-- Taking a fault keeps the invariant (60_exceptions.md R230). -/
theorem inv_enterFault {s : State} (h : BlockInv s) {c : ErrCode} {w : Option Slot} {n : Nat}
    (hc : c ≠ .none) (hw : c = .truncatedData → w ≠ none) : BlockInv (enterFault c w n s) := by
  refine ⟨h.memory, ?_, ?_, ?_, ?_⟩
  · unfold StatusOk
    by_cases ht : c = .truncatedData <;> simp_all [selected]
  · simp [HeaderOk, selected]
  · intro k hk
    have := h.views k
    simpa using this (by simpa using hk)
  · simp [PcOk]

/-- The invariant does not mention the operand registers or the model's own fields. -/
theorem inv_frame {s t : State} (h : BlockInv s)
    (e : t = { s with
      inbox := t.inbox, hostData := t.hostData, grain := t.grain, call := t.call, sampled := t.sampled
      draws := t.draws, srcLen := t.srcLen, cfgW := t.cfgW, cfgH := t.cfgH }) : BlockInv t := by
  rw [e]; exact ⟨h.memory, h.status, h.header, h.views, h.pc⟩

theorem inv_start {s t : State} (h : BlockInv s) (e : exec .start s = .next t) : BlockInv t := by
  simp only [exec, execStart] at e
  split at e
  · cases e; exact h
  · cases e
    refine ⟨h.memory, ?_, ?_, ?_, ?_⟩
    · simp [StatusOk, selected]
    · simp [HeaderOk, selected]
    · intro k hk; simp at hk
    · simp [PcOk]

theorem inv_clear {s t : State} (h : BlockInv s) (e : exec .clear s = .next t) : BlockInv t := by
  simp only [exec, execClear] at e
  split at e
  · cases e; exact h
  · cases e
    refine ⟨h.memory, ?_, ?_, ?_, ?_⟩
    · simp [StatusOk, selected]
    · simp [HeaderOk, selected]
    · intro k hk
      have := h.views k
      simpa using this (by simpa using hk)
    · simp [PcOk]

theorem inv_resetEvent {s : State} (h : BlockInv s) : BlockInv (resetEvent s) := by
  refine ⟨h.memory, ?_, ?_, ?_, ?_⟩
  · simp [StatusOk, selected, resetEvent]
  · simp [HeaderOk, selected, resetEvent]
  · intro k hk; simp [resetEvent] at hk
  · simp [PcOk, resetEvent]

theorem inv_hdrFetch {s t : State} (h : BlockInv s) (hp : s.phase = .hdr) (e : exec .hdrFetch s = .next t) :
    BlockInv t := by
  simp only [exec, execHdrFetch] at e
  obtain hl | hl := Nat.lt_or_ge (len s) 36
  · rw [fetchHeader_raises hl] at e
    cases e
    exact inv_enterFault h (by simp) (by simp)
  · rw [fetchHeader_ok hl] at e
    cases e
    have hst := h.status
    have hpc := h.pc
    refine ⟨h.memory, ?_, ?_, ?_, ?_⟩
    · unfold StatusOk at *; simp_all [selected]
    · simp only [HeaderOk, goto_phase, goto_hdrBitcount, latchHeader_hdrBitcount, selected]
      refine ⟨fun _ => ?_, by simp⟩
      have := leNat_lt ((List.range 2).map fun k => s.src.get (14 + k))
      simp only [BitVec.toNat_ofNat]
      refine lt_of_le_of_lt (Nat.mod_le _ _) ?_
      simpa using this
    · intro k hk
      have := h.views k
      simpa using this (by simpa using hk)
    · unfold PcOk at *; simp_all

theorem inv_select {s t : State} (h : BlockInv s) (hp : s.phase = .sel) (e : exec .select s = .next t) :
    BlockInv t := by
  simp only [exec, execSelect] at e
  have hst := h.status
  have hpc := h.pc
  have hh := h.header
  have hlt := paletteCount_lt (b := s.hdrBitcount.toNat) s.hdrClrused.isLt
  have key : ∀ p n, n = paletteCount s.hdrBitcount.toNat s.hdrClrused.toNat →
      (p = .palette ∧ n ≠ 0 ∧ paletteDepth s.hdrBitcount.toNat = true ∨
        p = .trueColour ∧ n = 0 ∧ trueColourDepth s.hdrBitcount.toNat = true) →
      BlockInv (afterSelect (setSelection (paletteCount s.hdrBitcount.toNat s.hdrClrused.toNat) p s)) := by
    intro p n hn hc
    subst hn
    have hnc : (afterSelect
        (setSelection (paletteCount s.hdrBitcount.toNat s.hdrClrused.toNat) p s)).nColors.toNat =
            paletteCount s.hdrBitcount.toNat s.hdrClrused.toNat := by
      rw [afterSelect_nColors, setSelection_nColors, BitVec.toNat_ofNat, Nat.mod_eq_of_lt hlt]
    refine ⟨by have := h.memory; unfold MemoryOk at *; simpa using this, ?_, ?_, ?_, ?_⟩
    · unfold StatusOk at *
      rcases hc with ⟨rfl, hc⟩ | ⟨rfl, hc⟩ <;> simp_all [selected, afterSelect]
    · unfold HeaderOk at *
      rw [hnc]
      rcases hc with ⟨rfl, hc⟩ | ⟨rfl, hc⟩ <;> simp_all [selected]
    · intro k hk
      have hv := h.views k
      have : viewOf k (afterSelect (setSelection (paletteCount s.hdrBitcount.toNat s.hdrClrused.toNat) p s)) =
          viewOf k s := by cases k <;> simp
      rw [this] at hk ⊢
      simpa using hv hk
    · unfold PcOk at *
      rcases hc with ⟨rfl, hc⟩ | ⟨rfl, hc⟩ <;> simp_all [afterSelect]
  rcases selectPath_cases s with ⟨hn, hd, hs⟩ | ⟨hn, hd, hs⟩ | ⟨-, -, hs⟩ <;> rw [hs] at e <;> cases e
  · exact key _ _ rfl (.inl ⟨rfl, hn, hd⟩)
  · exact key _ _ rfl (.inr ⟨rfl, hn, hd⟩)
  · exact inv_enterFault h (by simp) (by simp)

theorem viewOf_startPixels (k : Slot) (s : State) : viewOf k (startPixels s) = viewOf k s := by cases k <;> simp
theorem viewOf_advancePixel (k : Slot) (i j : Nat) (s : State) : viewOf k (advancePixel i j s) = viewOf k s :=
    by cases k <;> simp

/-- Where the views end in the first pixel or in P_DONE (43_composite.md R191, R212). -/
theorem startPixels_phase (s : State) : (0 < imgW s ∧ 0 < imgH s ∧ (startPixels s).phase = .pix) ∨
    (imgW s * imgH s = 0 ∧ (startPixels s).phase = .done) := by
  unfold startPixels
  by_cases h : imgW s * imgH s > 0
  · rw [if_pos h]; exact .inl ⟨Nat.pos_of_mul_pos_right h, Nat.pos_of_mul_pos_left h, rfl⟩
  · rw [if_neg h]; exact .inr ⟨by omega, rfl⟩

/-- A view that fits and is admitted may be written into its slot (40_view.md R130). -/
theorem viewsOk_setView {s : State} (h : ViewsOk s) {k o w ht d f} (hf : o + viewSize w ht d ≤ len s)
    (ha : admittedView k d f = true) :
    ViewsOk (setView k (mkView o w ht d f) s) := by
  intro l hl
  by_cases e : l = k
  · subst e; rw [viewOf_setView_same]
    refine ⟨rfl, ?_, ha⟩
    simpa [viewSize] using hf
  · rw [viewOf_setView_other e] at hl ⊢
    simpa using h l hl

/-- The header latches are as before. -/
theorem headerOk_keep {s t : State} (h : HeaderOk s) (hsel : selected s.phase = true) (e1 : t.nColors = s.nColors)
    (e2 : t.hdrBitcount = s.hdrBitcount) (e3 : t.hdrClrused = s.hdrClrused) (e4 : t.path = s.path) : HeaderOk t := by
  refine ⟨fun _ => ?_, fun _ => ?_⟩
  · rw [e2]; exact h.1 (.inr hsel)
  · rw [e1, e2, e3, e4]; exact h.2 hsel

theorem inv_vpal {s t : State} (h : BlockInv s) (hp : s.phase = .vpal)
    (e : exec (.viewMake .pal s.hdrSize.toNat s.nColors.toNat 1 32 .bgra) s = .next t) : BlockInv t := by
  simp only [exec, execViewMake] at e
  rcases makeView_cases .pal s.hdrSize.toNat s.nColors.toNat 1 32 .bgra s with ⟨hf, hm⟩ | ⟨hf,
      hm⟩ <;> rw [hm] at e <;> cases e
  · have hst := h.status
    have hpc := h.pc
    have hh := h.header
    refine ⟨by have := h.memory; unfold MemoryOk at *; simpa using this, ?_, ?_, ?_, ?_⟩
    · unfold StatusOk at *; simp_all [selected, afterView]
    · exact headerOk_keep hh (by rw [hp]; rfl) (by simp) (by simp) (by simp) (by simp)
    · have := viewsOk_setView (k := .pal) (f := .bgra) h.views hf rfl
      intro k hk
      simp only [afterView, viewOf_goto, goto_len] at hk ⊢
      exact this k hk
    · unfold PcOk StatusOk at *; simp_all [afterView, paletteView]
  · exact inv_enterFault h (by simp) (by simp)

theorem path_cases (p : Path) (h : p ≠ .none) : p = .palette ∨ p = .trueColour := by cases p <;> simp_all

theorem admitted_col_palette {d : Nat} (h : paletteDepth d = true) : admittedView .col d .c = true := by
  simpa [paletteDepth, admittedView] using h

theorem trueColour_cases {d : Nat} (h : trueColourDepth d = true) : d = 24 ∨ d = 32 := by
  simpa [trueColourDepth] using h

theorem startPixels_hasMask (s : State) : hasMask (startPixels s) ↔ hasMask s := by simp [hasMask]
theorem startPixels_colourPlane (s : State) : colourPlane (startPixels s) = colourPlane s :=
    by simp [colourPlane, paletteView]
theorem startPixels_maskPlane (s : State) : maskPlane (startPixels s) = maskPlane s :=
    by simp [maskPlane, startPixels_colourPlane]
theorem startPixels_paletteView (s : State) : paletteView (startPixels s) = paletteView s := by simp [paletteView]

/-- The VIEW.MAKE of P_VCOL builds this descriptor. -/
theorem colourView_eq (s : State) : ∃ o d f, colourView s = .viewMake .col o (imgW s) (imgH s) d f ∧ mkView o
    (imgW s) (imgH s) d f =
        (if s.path = .palette then mkView (viewEnd s.vPal) (imgW s)
            (imgH s) s.hdrBitcount.toNat .c else mkView s.hdrSize.toNat (imgW s) (imgH s) s.hdrBitcount.toNat
                (trueColourFmt s.hdrBitcount.toNat)) := by
  unfold colourView
  split
  · exact ⟨_, _, _, rfl, rfl⟩
  · exact ⟨_, _, _, rfl, rfl⟩

theorem inv_vcol {s t : State} (h : BlockInv s) (hp : s.phase = .vcol)
    (e : exec (colourView s) s = .next t) : BlockInv t := by
  have hst := h.status
  have hpc := h.pc
  have hh := h.header
  have hsel : selected s.phase = true := by rw [hp]; rfl
  have hpath := hst.2.2.2.2.2 hsel
  have hb := hh.1 (.inr hsel)
  obtain ⟨hn, hpal, htc⟩ := hh.2 hsel
  obtain ⟨o, d, f, hv, hmk⟩ := colourView_eq s
  rw [hv] at e
  simp only [exec, execViewMake] at e
  have hadm : admittedView .col d f = true := by
    unfold colourView at hv
    rcases path_cases _ hpath with hx | hx
    · rw [if_pos hx] at hv
      cases hv
      exact admitted_col_palette (hpal hx).2
    · rw [if_neg (by simp [hx])] at hv
      cases hv
      rcases trueColour_cases (htc hx).2 with h24 | h24 <;> rw [h24] <;> rfl
  have hcp : mkView o (imgW s) (imgH s) d f = colourPlane s := by
    rw [hmk]
    unfold colourPlane
    split
    next hx =>
      have := (hpc.2.2.2.2.1 (.inl hp)).1 hx
      rw [this]
    · rfl
  rcases makeView_cases .col o (imgW s) (imgH s) d f s with ⟨hf, hm⟩ | ⟨hf, hm⟩ <;> rw [hm] at e <;> cases e
  · have hviews := viewsOk_setView (k := .col) (f := f) h.views hf hadm
    by_cases hmask : s.path = .palette ∨ s.hdrBitcount.toNat = 24
    · have haf : afterView .col (setView .col (mkView o (imgW s) (imgH s) d f) s) = goto .vmsk
        (setView .col (mkView o (imgW s) (imgH s) d f) s) := by
        simp [afterView, hmask]
      rw [haf]
      refine ⟨by have := h.memory; unfold MemoryOk at *; simpa using this, ?_, ?_, ?_, ?_⟩
      · unfold StatusOk at *; simp_all [selected]
      · unfold HeaderOk at *; simp_all [selected]
      · intro k hk
        simp only [viewOf_goto, goto_len] at hk ⊢
        exact hviews k hk
      · unfold PcOk hasMask at *
        rw [hcp]
        simp_all [paletteView, colourPlane]
    · have haf : afterView .col (setView .col (mkView o (imgW s) (imgH s) d f) s) = startPixels
        (setView .col (mkView o (imgW s) (imgH s) d f) s) := by
        simp [afterView, hmask]
      rw [haf, hcp]
      rw [hcp] at hviews
      rcases startPixels_phase (setView .col (colourPlane s) s) with ⟨hw, hh0, hph⟩ | ⟨hw, hph⟩
      all_goals
        refine ⟨by have := h.memory; unfold MemoryOk at *; simpa using this, ?_, ?_, ?_, ?_⟩
        · unfold StatusOk at *; simp_all [selected]
        · unfold HeaderOk at *; simp_all [selected]
        · intro k hk
          simp only [viewOf_startPixels, startPixels_len] at hk ⊢
          exact hviews k hk
        · unfold PcOk at *
          rw [hph, startPixels_hasMask, startPixels_colourPlane, startPixels_maskPlane, startPixels_paletteView]
          simp_all [paletteView, colourPlane, hasMask]
  · exact inv_enterFault h (by simp) (by simp)

theorem inv_vmsk {s t : State} (h : BlockInv s) (hp : s.phase = .vmsk)
    (e : exec (.viewMake .msk (viewEnd s.vCol) (imgW s) (imgH s) 1 .a) s = .next t) : BlockInv t := by
  have hst := h.status
  have hpc := h.pc
  have hh := h.header
  have hcol := hpc.2.2.2.2.2.1 (.inl hp)
  simp only [exec, execViewMake] at e
  rcases makeView_cases .msk (viewEnd s.vCol) (imgW s)
      (imgH s) 1 .a s with ⟨hf, hm⟩ | ⟨hf, hm⟩ <;> rw [hm] at e <;> cases e
  · have hviews := viewsOk_setView (k := .msk) (f := .a) h.views hf rfl
    have hmk : mkView (viewEnd s.vCol) (imgW s) (imgH s) 1 .a = maskPlane s := by rw [hcol]; rfl
    rw [hmk] at hviews ⊢
    show BlockInv (startPixels _)
    rcases startPixels_phase (setView .msk (maskPlane s) s) with ⟨hw, hh0, hph⟩ | ⟨hw, hph⟩
    all_goals
      refine ⟨by have := h.memory; unfold MemoryOk at *; simpa using this, ?_, ?_, ?_, ?_⟩
      · unfold StatusOk at *; simp_all [selected]
      · exact headerOk_keep hh (by rw [hp]; rfl) (by simp) (by simp) (by simp) (by simp)
      · intro k hk
        simp only [viewOf_startPixels, startPixels_len] at hk ⊢
        exact hviews k hk
      · unfold PcOk at *
        rw [hph, startPixels_hasMask, startPixels_colourPlane, startPixels_maskPlane, startPixels_paletteView]
        simp_all [paletteView, colourPlane, hasMask, maskPlane]
  · exact inv_enterFault h (by simp) (by simp)

theorem inv_emit {s u : State} (h : BlockInv s) {x y r g b a} (e : emit x y r g b a s = .ok u) : BlockInv u := by
  have hw := emit_wf h.memory.2 e
  rw [emit_frame e]
  exact ⟨⟨h.memory.1, hw⟩, h.status, h.header, h.views, h.pc⟩

theorem inv_advance {s : State} (h : BlockInv s) (hp : s.phase = .pix) {x y : Nat} (hy : y < imgH s) :
    BlockInv (advancePixel x y s) := by
  have hst := h.status
  have hpc := h.pc
  have hph : (advancePixel x y s).phase = .pix ∧ (advancePixel x y s).y < imgH s ∧
      (advancePixel x y s).x < imgW s ∨ (advancePixel x y s).phase = .done := by
    unfold advancePixel
    split
    · exact .inl ⟨rfl, hy, by assumption⟩
    split
    · exact .inl ⟨rfl, by assumption, by have := (hpc.1 hp).2; simpa using by omega⟩
    · exact .inr rfl
  refine ⟨by have := h.memory; unfold MemoryOk at *; simpa using this, ?_, ?_, ?_, ?_⟩
  · unfold StatusOk at *; rcases hph with ⟨hph, -, -⟩ | hph <;> simp_all [selected]
  · exact headerOk_keep h.header (by rw [hp]; rfl) (by simp) (by simp) (by simp) (by simp)
  · intro k hk
    simp only [viewOf_advancePixel, advancePixel_len] at hk ⊢
    exact h.views k hk
  · have e1 : hasMask (advancePixel x y s) ↔ hasMask s := by simp [hasMask]
    have e2 : paletteView (advancePixel x y s) = paletteView s := by simp [paletteView]
    have e3 : colourPlane (advancePixel x y s) = colourPlane s := by simp [colourPlane, e2]
    have e4 : maskPlane (advancePixel x y s) = maskPlane s := by simp [maskPlane, e3]
    unfold PcOk at *
    rw [e1, e2, e3, e4]
    rcases hph with ⟨hph, h1, h2⟩ | hph <;> simp_all

theorem inv_pix {s t : State} (h : BlockInv s) (hp : s.phase = .pix) (e : exec (pixelOperation s) s = .next t) :
    BlockInv t := by
  have hpc := h.pc
  have key : ∀ (m : Flow State), (∀ u, m = .ok u → ∃ r g b a, emit s.x s.y r g b a s = .ok u) →
      (∀ u, m = .raised u → ∃ n, u = enterFault .indexRange none n s) →
      ((m.andThen fun t => .ok (advancePixel s.x s.y t)).outcome = .next t) → BlockInv t := by
    intro m hok hr e
    rcases Flow.outcome_eq_next.mp e with e | e
    · obtain ⟨u, hu, e⟩ := Flow.andThen_eq_ok.mp e
      cases e
      obtain ⟨r, g, b, a, he⟩ := hok u hu
      have hu' := inv_emit h he
      have hf := emit_frame he
      refine inv_advance hu' (by rw [hf]; exact hp) ?_
      rw [hf]; exact (hpc.1 hp).1
    · rcases Flow.andThen_eq_raised.mp e with e | ⟨u, _, e⟩
      · obtain ⟨n, rfl⟩ := hr t e
        exact inv_enterFault h (by simp) (by simp)
      · cases e
  unfold pixelOperation at e
  split at e
  · exact key _ (fun u hu => palettePixel_eq_ok hu)
      (fun u hu => by obtain ⟨i, _, _, rfl⟩ := palettePixel_eq_raised hu; exact ⟨_, rfl⟩) e
  split at e
  · exact key _ (fun u hu => trueColour24Pixel_eq_ok hu) (fun u hu => absurd hu trueColour24Pixel_not_raised) e
  · exact key _ (fun u hu => trueColour32Pixel_eq_ok hu) (fun u hu => absurd hu trueColour32Pixel_not_raised) e

end Sys2Proof.Machine
end

