-- ==== Sys2Proof/Laws/PerInstr.lean ====
section
/-! SUPPORT. Families stated of every operation as syntax. EncodingFormat: an operation's encoding has the
format that its row of spec/opcode_table.json names. -/

namespace Sys2Proof.Laws

/-- The formats of the opcode table (30_encoding.md R90). -/
inductive Format where
  | dibhdr
  | viewdesc
  | seq
  | ctrlw
  deriving DecidableEq, Repr

/-- The format of an encoding; an operation without one is invoked by the sequencer. -/
def formatOf : Option Encoding → Format
  | some (.header _) => .dibhdr
  | some (.viewDesc _ _) => .viewdesc
  | some (.ctrl _) => .ctrlw
  | none => .seq

/-- The format column of the opcode table. -/
def tableFormat : Instr → Format
  | .decP1 _ _ | .decP2 _ _ | .decP4 _ _ | .decP8 _ _ | .decT24 _ | .decT32 _ => .dibhdr
  | .smp1 _ _ _ _ | .smp2 _ _ _ _ | .smp4 _ _ _ _ | .smpB8 _ _ _ _ | .smpB16 _ _ _ _
  | .smpB24 _ _ _ _ | .smpB32 _ _ _ _ => .viewdesc
  | .hdrFetch | .select | .viewMake _ _ _ _ _ _ | .pixPal _ _ | .pixT24 _ _ | .pixT32 _ _ => .seq
  | .start | .clear => .ctrlw

namespace EncodingFormat

/-- The encoding of i has the table's format. -/
def Statement (i : Instr) : Prop := formatOf (encode i) = tableFormat i

theorem decP1 (size clrused : Word) : Statement (.decP1 size clrused) := rfl
theorem decP2 (size clrused : Word) : Statement (.decP2 size clrused) := rfl
theorem decP4 (size clrused : Word) : Statement (.decP4 size clrused) := rfl
theorem decP8 (size clrused : Word) : Statement (.decP8 size clrused) := rfl
theorem decT24 (size : Word) : Statement (.decT24 size) := rfl
theorem decT32 (size : Word) : Statement (.decT32 size) := rfl
theorem smp1 (slot : Slot) (x y : Nat) (ch : Channel) : Statement (.smp1 slot x y ch) := rfl
theorem smp2 (slot : Slot) (x y : Nat) (ch : Channel) : Statement (.smp2 slot x y ch) := rfl
theorem smp4 (slot : Slot) (x y : Nat) (ch : Channel) : Statement (.smp4 slot x y ch) := rfl
theorem smpB8 (slot : Slot) (x y : Nat) (ch : Channel) : Statement (.smpB8 slot x y ch) := rfl
theorem smpB16 (slot : Slot) (x y : Nat) (ch : Channel) : Statement (.smpB16 slot x y ch) := rfl
theorem smpB24 (slot : Slot) (x y : Nat) (ch : Channel) : Statement (.smpB24 slot x y ch) := rfl
theorem smpB32 (slot : Slot) (x y : Nat) (ch : Channel) : Statement (.smpB32 slot x y ch) := rfl
theorem hdrFetch : Statement .hdrFetch := rfl
theorem select : Statement .select := rfl
theorem viewMake (slot : Slot) (off width height depth : Nat) (fmt : Fmt) :
    Statement (.viewMake slot off width height depth fmt) := rfl
theorem pixPal (x y : Nat) : Statement (.pixPal x y) := rfl
theorem pixT24 (x y : Nat) : Statement (.pixT24 x y) := rfl
theorem pixT32 (x y : Nat) : Statement (.pixT32 x y) := rfl
theorem start : Statement .start := rfl
theorem clear : Statement .clear := rfl

end EncodingFormat

end Sys2Proof.Laws
end

