-- ==== Sys2Proof/Tests/Slice0.lean ====
section
/-! SUPPORT. The tests: the operand checks, the decoder on words written out from the spec's encodings, at most
two steps per operation with the values of 95_test_vectors.md, and for every statement a state that meets its
hypotheses. -/

namespace Sys2Proof.Machine

/-! ### Helpers -/

/-- The next state of an outcome, if there is one. -/
def after : Host.Outcome State Fault Refusal → Option State
  | .next s => some s
  | .fault _ => none
  | .refused _ => none

/-- The first n bytes of OUT. -/
def outBytes (n : Nat) (s : State) : List Byte := (List.range n).map fun a => s.out.get a

/-- An operation in progress over a memory. -/
def inWindow (m : Memory) (window w h : Word) : State :=
  { State.reset with phase := .hdr, lLen := window, lW := w, lH := h, src := m }

/-- Program P1 from its palette on; every byte before it is 0. -/
def p1 : State :=
  inWindow (setBytes (setBytes (setBytes [] 44 [0x10, 0x20, 0x30, 0, 0xFF, 0, 0, 0, 0, 0xFF, 0, 0xAA]) 100
    [0xFF, 0xFF, 0xFF]) 104 [0x12, 0xEE, 0xEE, 0xEE, 0x3F, 0, 0, 0, 0x40, 0, 0, 0, 0x80]) 120 2 2

/-- Program P2 from its palette on. -/
def p2 : State :=
  inWindow (setBytes [] 44 [0xFF, 0xFF, 0xFF, 0, 0xA5, 0x80, 0x55, 0x55, 1, 0, 0, 0, 0xFF, 0, 0, 0, 0, 0x80]) 64 9 2

/-- Program P3 from its colour plane on. -/
def p3 : State :=
  inWindow (setBytes [] 40 [1, 2, 3, 4, 5, 6, 0xEE, 0xEE, 7, 8, 9, 0xA, 0xB, 0xC, 0xEE, 0xEE, 0x40, 0, 0, 0, 0x80])
    64 2 2

/-- Program P4 from its colour plane on. -/
def p4 : State := inWindow (setBytes [] 40 [0x11, 0x22, 0x33, 0x44, 0x55, 0x66, 0x77, 0, 0x80, 0, 0, 0, 0x80]) 56 1 2

/-- Program P6 from its palette on. -/
def p6 : State :=
  inWindow (setBytes [] 46 [0x80, 0, 0, 0x80, 0, 0, 0x80, 0, 0, 0, 0x1B, 0x40, 0xEE, 0xEE, 0x28]) 64 5 1

/-- Program P7 from its palette on, with its row's first two bytes. -/
def p7 (i j : Byte) : State := inWindow (setBytes [] 40 [1, 2, 3, 0, 4, 5, 6, 0, i, j]) 56 2 1

/-- A state of a program at pixel (x, y) on the palette path, its views as listed there. -/
def atPalettePixel (s : State) (x y : Nat) (bitcount clrused n : Word) (colOff mskOff : Nat) : State :=
  { s with
    phase := .pix, y := y, x := x, path := .palette, hdrSize := 40, hdrBitcount := bitcount
    hdrClrused := clrused, nColors := n
    vPal := mkView 40 n.toNat 1 32 .bgra
    vCol := mkView colOff (imgW s) (imgH s) bitcount.toNat .c
    vMsk := mkView mskOff (imgW s) (imgH s) 1 .a }

/-- Program P7 at pixel (x, 0). -/
def p7At (i j : Byte) (x : Nat) : State := atPalettePixel (p7 i j) x 0 8 2 2 48 52

/-- Program P1 at pixel (x, y). -/
def p1At (x y : Nat) : State := atPalettePixel p1 x y 4 0 16 104 112

/-- Program P3 at pixel (x, y). -/
def p3At (x y : Nat) : State :=
  { p3 with
    phase := .pix, y := y, x := x, path := .trueColour, hdrSize := 40, hdrBitcount := 24
    vCol := mkView 40 2 2 24 .bgr, vMsk := mkView 56 2 2 1 .a }

/-- Program P4 at pixel (x, y). -/
def p4At (x y : Nat) : State :=
  { p4 with
    phase := .pix, y := y, x := x, path := .trueColour, hdrSize := 40, hdrBitcount := 32
    vCol := mkView 40 1 2 32 .bgra }

/-- The header latches as the header gives them. -/
def withHeader (size bitcount clrused : Word) (s : State) : State :=
  { s with hdrSize := size, hdrBitcount := bitcount, hdrClrused := clrused }

/-- A colour view over the given bytes at its offset. -/
def colourOver (bytes : List Byte) (v : View) : State :=
  { State.reset with lLen := 64, src := setBytes [] v.off bytes, vCol := v }

/-- A header with the given bitcount bytes and first byte of colorsUsed; its size is 40. -/
def headerWith (lo hi clrused : Byte) : List Byte :=
  [0x28, 0, 0, 0, 2, 0, 0, 0, 4, 0, 0, 0, 1, 0, lo, hi, 0, 0, 0, 0, 0, 0, 0, 0, 0, 0, 0, 0, 0, 0, 0, 0, clrused,
    0, 0, 0]

/-- A call of the row reader. -/
def callAt (slot : Slot) (x y : Nat) (ch : Channel) : SampleCall := { slot, x, y, ch }

/-! ### The operand checks refuse ill-formed operations -/

theorem test_refuses_depth_outside_the_seven : legalDepth 3 = false ∧ legalDepth 0 = false := by decide

theorem test_refuses_view_of_illegal_depth : (Instr.viewMake .col 0 1 1 3 .c).wellFormed = false := by decide

theorem test_refuses_view_not_built : (Instr.viewMake .pal 0 1 1 8 .bgra).wellFormed = false ∧
    (Instr.viewMake .msk 0 1 1 1 .c).wellFormed = false := by decide

theorem test_refuses_channel_not_sampled : (Instr.smpB24 .col 0 0 .a).wellFormed = false ∧
    (Instr.smpB32 .pal 0 0 .a).wellFormed = false ∧ (Instr.smp1 .pal 0 0 .r).wellFormed = false := by decide

theorem test_refuses_large_coordinate : (Instr.pixPal (2 ^ 32) 0).wellFormed = false ∧
    (Instr.pixT24 0 (2 ^ 32)).wellFormed = false ∧ (Instr.viewMake .col 0 (2 ^ 32) 1 24 .bgr).wellFormed = false := by
  decide

/-! ### Decoding, from words written out (95_test_vectors.md, 30_encoding.md R106, R107, R111) -/

theorem test_decode_decP1 : decode (.header (headerWith 1 0 0)) = .ok (.decP1 40 0) := by decide
theorem test_decode_decP2 : decode (.header (headerWith 2 0 3)) = .ok (.decP2 40 3) := by decide
theorem test_decode_decP4 : decode (.header (headerWith 4 0 0)) = .ok (.decP4 40 0) := by decide
theorem test_decode_decP8 : decode (.header (headerWith 8 0 2)) = .ok (.decP8 40 2) := by decide
theorem test_decode_decT24 : decode (.header (headerWith 0x18 0 0)) = .ok (.decT24 40) := by decide
theorem test_decode_decT32 : decode (.header (headerWith 0x20 0 0)) = .ok (.decT32 40) := by decide
theorem test_decode_smp1 : decode (.viewDesc 0x01 (callAt .msk 3 1 .a)) = .ok (.smp1 .msk 3 1 .a) := by decide
theorem test_decode_smp2 : decode (.viewDesc 0x02 (callAt .col 3 1 .c)) = .ok (.smp2 .col 3 1 .c) := by decide
theorem test_decode_smp4 : decode (.viewDesc 0x04 (callAt .col 3 1 .c)) = .ok (.smp4 .col 3 1 .c) := by decide
theorem test_decode_smpB8 : decode (.viewDesc 0x08 (callAt .col 3 1 .c)) = .ok (.smpB8 .col 3 1 .c) := by decide
theorem test_decode_smpB16 : decode (.viewDesc 0x10 (callAt .col 3 1 .c)) = .ok (.smpB16 .col 3 1 .c) := by decide
theorem test_decode_smpB24 : decode (.viewDesc 0x18 (callAt .col 3 1 .r)) = .ok (.smpB24 .col 3 1 .r) := by decide
theorem test_decode_smpB32 : decode (.viewDesc 0x20 (callAt .pal 3 0 .g)) = .ok (.smpB32 .pal 3 0 .g) := by decide
theorem test_decode_start : decode (.ctrl 0x00000001) = .ok .start ∧ decode (.ctrl 0xFFFFFFFF) = .ok .start := by
  decide
theorem test_decode_clear : decode (.ctrl 0x00000002) = .ok .clear := by decide

/-- 95_test_vectors.md H6, H7, H8, H13: what selects no mode is rejected by name. -/
theorem test_decode_rejects : decode (.header (headerWith 0x10 0 0)) = .error (.unsupportedColorDepth 16) ∧
    decode (.header (headerWith 0x10 0 4)) = .error (.unsupportedColorDepth 16) ∧
    decode (.header (headerWith 0x20 0 1)) = .error (.unsupportedColorDepth 32) ∧
    decode (.header (headerWith 0xFF 0xFF 0)) = .error (.unsupportedColorDepth 65535) ∧
    decode (.viewDesc 3 (callAt .col 0 0 .c)) = .error (.noSampleMode 3) ∧
    decode (.ctrl 0xFFFFFFFC) = .error (.noCommand 0xFFFFFFFC) := by decide

/-- The fetch of a placed table word is the operation the table's row names. -/
theorem test_table_word_runs : decodeTableWord 16 0x0018 = some (.decT24 0) ∧
    fetch (State.reset.withFetchWord 16 0x0018) = .run (.decT24 0) (State.reset.withFetchWord 16 0x0018) ∧
    decodeTableWord 8 0x08 = some (.smpB8 .col 0 0 .c) ∧ decodeTableWord 32 1 = some .start := by decide +kernel

/-! ### One step of each operation -/

/-- 95_test_vectors.md P2: stored row 1 is the top row, and pixel 8 is bit 7 of the row's second byte. -/
theorem test_decP1_p2 : (after (exec (.decP1 40 0) p2)).map (fun t => (outBytes 40 t).drop 24) =
    some [0, 0, 0, 0xFF, 0xFF, 0xFF, 0xFF, 0xFF, 0, 0, 0, 0, 0xFF, 0xFF, 0xFF, 0] := by decide +kernel

/-- 95_test_vectors.md P6. -/
theorem test_decP2_p6 : (after (exec (.decP2 40 0) p6)).map (outBytes 20) =
    some [0, 0, 0, 0xFF, 0x80, 0, 0, 0xFF, 0, 0x80, 0, 0, 0, 0, 0x80, 0xFF, 0x80, 0, 0, 0] := by decide +kernel

/-- 95_test_vectors.md P1. -/
theorem test_decP4_p1 : (after (exec (.decP4 40 0) p1)).map (outBytes 16) =
    some [0, 0xFF, 0, 0, 0xFF, 0xFF, 0xFF, 0xFF, 0x30, 0x20, 0x10, 0xFF, 0, 0, 0xFF, 0] := by decide +kernel

/-- 95_test_vectors.md P7a. -/
theorem test_decP8_p7a : (after (exec (.decP8 40 2) (p7 0 1))).map (fun t => (outBytes 8 t, statusWord t)) =
    some ([3, 2, 1, 0xFF, 6, 5, 4, 0xFF], 0x402) := by decide +kernel

/-- 95_test_vectors.md P7b. -/
theorem test_decP8_p7b : (after (exec (.decP8 40 2) (p7 1 2))).map
    (fun t => (outBytes 4 t, statusWord t &&& 0x3FF, t.errInfo)) = some ([6, 5, 4, 0xFF], 0x043, 2) := by
  decide +kernel

/-- 95_test_vectors.md P3. -/
theorem test_decT24_p3 : (after (exec (.decT24 40) p3)).map (outBytes 16) =
    some [9, 8, 7, 0, 0xC, 0xB, 0xA, 0xFF, 3, 2, 1, 0xFF, 6, 5, 4, 0] := by decide +kernel

/-- 95_test_vectors.md P4. -/
theorem test_decT32_p4 : (after (exec (.decT32 40) p4)).map (fun t => (outBytes 8 t, statusWord t)) =
    some ([0x77, 0x66, 0x55, 0, 0x33, 0x22, 0x11, 0x44], 0x802) := by decide +kernel

/-- 95_test_vectors.md P4c. -/
theorem test_decT32_p4c : (after (exec (.decT32 40) { p4 with lLen := 47 })).map
    (fun t => (statusWord t &&& 0x3FF, t.errInfo)) = some (0x233, 40) := by decide +kernel

/-- The samples of an operation over x = 0 to n - 1. -/
def samplesOf (n : Nat) (i : Nat → Instr) (s : State) : List (Option Nat) :=
  (List.range n).map fun x => (after (exec (i x) s)).map fun t => t.sampled.toNat

/-- 95_test_vectors.md M1, row 0. -/
theorem test_smp1_m1 : samplesOf 9 (fun x => .smp1 .col x 0 .c)
    (colourOver [0xA5, 0x80, 0x55, 0x55, 1] (mkView 0 9 2 1 .c)) =
    [some 1, some 0, some 1, some 0, some 0, some 1, some 0, some 1, some 1] := by decide

/-- 95_test_vectors.md M3. -/
theorem test_smp2_m3 : samplesOf 5 (fun x => .smp2 .col x 0 .c)
    (colourOver [0x1B, 0x40, 0xEE, 0xEE] (mkView 0 5 1 2 .c)) =
    [some 0, some 1, some 2, some 3, some 1] := by decide

/-- 95_test_vectors.md M7, row 1: an odd offset. -/
theorem test_smp4_m7 : samplesOf 9 (fun x => .smp4 .col x 1 .c)
    (colourOver [1, 0x23, 0x45, 0x67, 0x89, 0xEE, 0xEE, 0xEE, 0xFE, 0xDC, 0xBA, 0x98, 0x76] (mkView 3 9 2 4 .c)) =
    [some 15, some 14, some 13, some 12, some 11, some 10, some 9, some 8, some 7] := by decide

/-- 41_sample.md R154, R159: the row `01 FF 00 00`; a byte of FF is 255. -/
theorem test_smpB8_unsigned : samplesOf 3 (fun x => .smpB8 .col x 0 .c)
    (colourOver [1, 0xFF] (mkView 0 2 1 8 .c)) = [some 1, some 255, none] := by decide

/-- 41_sample.md R155: pixel x's first channel is at row byte 2x. -/
theorem test_smpB16_row : samplesOf 2 (fun x => .smpB16 .col x 0 .c)
    (colourOver [0xA, 0xB, 0xC, 0xD] (mkView 0 2 1 16 .c)) = [some 0xA, some 0xC] := by decide

/-- 95_test_vectors.md M9: R of pixels 0 and 1. -/
theorem test_smpB24_m9 : samplesOf 2 (fun x => .smpB24 .col x 0 .r)
    (colourOver [1, 2, 3, 4, 5, 6, 0xEE, 0xEE] (mkView 40 2 1 24 .bgr)) = [some 3, some 6] := by decide

/-- 95_test_vectors.md M10: the four channels. -/
theorem test_smpB32_m10 : ([Channel.b, .g, .r, .a].map fun ch =>
    (after (exec (.smpB32 .col 0 0 ch) (colourOver [0x11, 0x22, 0x33, 0x44] (mkView 40 1 1 32 .bgra)))).map
      fun t => t.sampled) = [some 0x11, some 0x22, some 0x33, some 0x44] := by decide

/-- 95_test_vectors.md H1. -/
theorem test_hdrFetch_h1 : (after (exec .hdrFetch (inWindow (setBytes [] 0 (headerWith 4 0 0)) 40 1 1))).map
    (fun t => (t.hdrSize, t.hdrBitcount, t.hdrClrused, t.phase)) = some (40, 4, 0, .sel) := by decide +kernel

/-- 95_test_vectors.md F3. -/
theorem test_hdrFetch_f3 : (after (exec .hdrFetch (inWindow [] 15 1 1))).map
    (fun t => (statusWord t &&& 0x3FF, t.errInfo)) = some (0x013, 14) := by decide

/-- 95_test_vectors.md H4. -/
theorem test_select_h4 : (after (exec .select (withHeader 40 4 0 (inWindow [] 40 1 1)))).map
    (fun t => (t.nColors, t.path, t.phase)) = some (16, .palette, .vpal) := by decide

/-- 95_test_vectors.md H8. -/
theorem test_select_h8 : (after (exec .select (withHeader 40 32 1 (inWindow [] 40 1 1)))).map
    (fun t => (statusWord t &&& 0x3FF, t.errInfo)) = some (0x023, 32) := by decide

/-- 95_test_vectors.md V3: an exact fit. -/
theorem test_viewMake_v3 : (after (exec (.viewMake .msk 112 2 2 1 .a) (inWindow [] 120 2 2))).map
    (fun t => (t.vMsk.valid, t.vMsk.stride, t.vMsk.size, viewEnd t.vMsk)) = some (true, 4, 8, 120) := by decide

/-- 95_test_vectors.md V4: one byte short. -/
theorem test_viewMake_v4 : (after (exec (.viewMake .msk 112 2 2 1 .a) (inWindow [] 119 2 2))).map
    (fun t => (statusWord t &&& 0x3FF, t.errInfo, t.vMsk.valid)) = some (0x333, 112, false) := by decide

/-- 95_test_vectors.md X2: a transparent pixel keeps its colour. -/
theorem test_pixPal_x2 : (after (exec (.pixPal 1 1) (p1At 1 1))).map (fun t => ((outBytes 16 t).drop 12, t.phase)) =
    some ([0, 0, 0xFF, 0], .done) := by decide +kernel

/-- 95_test_vectors.md X3: no byte is written. -/
theorem test_pixPal_x3 : (after (exec (.pixPal 1 0) (p7At 1 2 1))).map (fun t => (t.out, t.err, t.errInfo)) =
    some ([], .indexRange, 2) := by decide +kernel

/-- 95_test_vectors.md X4. -/
theorem test_pixT24_x4 : (after (exec (.pixT24 1 1) (p3At 1 1))).map (fun t => (outBytes 16 t).drop 12) =
    some [6, 5, 4, 0] := by decide +kernel

/-- 95_test_vectors.md X5. -/
theorem test_pixT32_x5 : (after (exec (.pixT32 0 0) (p4At 0 0))).map (fun t => (outBytes 4 t, t.phase, t.y, t.x)) =
    some ([0x77, 0x66, 0x55, 0], .pix, 1, 0) := by decide +kernel

/-- 95_test_vectors.md K2: START from the state after reset. -/
theorem test_start_k2 : (after (step { State.reset with
    srcLen := 56, cfgW := 1, cfgH := 2, inbox := [.writeReg 0 1] })).map
    (fun t => (t.lLen, t.lW, t.lH, statusWord t, t.phase)) = some (56, 1, 2, 1, .hdr) := by decide

/-- 95_test_vectors.md F12: CLEAR after a fault. -/
theorem test_clear_f12 : (after (step { State.reset with
    phase := .fault, err := .truncatedData, errView := some .col, errInfo := 40, inbox := [.writeReg 0 2] })).map
    (fun t => (statusWord t, t.errInfo, t.phase)) = some (0, 0, .idle) := by decide

/-! ### States that meet the hypotheses of the statements, named meets_<the statement> -/

/-- An outcome that has a next state is one. -/
theorem exists_next {o : Host.Outcome State Fault Refusal} (h : (after o).isSome = true) : ∃ t, o = .next t := by
  cases o with
  | next t => exact ⟨t, rfl⟩
  | fault f => cases h
  | refused r => cases h

/-- An outcome whose next state passes a test has one with it. -/
theorem exists_next_with {o : Host.Outcome State Fault Refusal} {p : State → Bool}
    (h : ((after o).map p) = some true) : ∃ t, o = .next t ∧ p t = true := by
  cases o with
  | next t => exact ⟨t, rfl, Option.some.inj h⟩
  | fault f => cases h
  | refused r => cases h

/-- Program P7 with its header latched on the palette path and no view built, in the given phase and window. -/
def p7Selected (p : Phase) (window : Word) : State :=
  { p7 0 1 with
    phase := p, path := .palette, hdrSize := 40, hdrBitcount := 8, hdrClrused := 2, nColors := 2, lLen := window }

/-- P7 in P_VPAL, one byte short of the palette. -/
def shortPalette : State := p7Selected .vpal 47

/-- P7 in P_VCOL, one byte short of the colour plane. -/
def shortColour : State := { p7Selected .vcol 51 with vPal := mkView 40 2 1 32 .bgra }

/-- P7 in P_VMSK, one byte short of the mask. -/
def shortMask : State :=
  { p7Selected .vmsk 55 with vPal := mkView 40 2 1 32 .bgra, vCol := mkView 48 2 1 8 .c }

/-- P_SEL with the depth 16. -/
def selectSixteen : State := { withHeader 40 16 0 (inWindow [] 40 1 1) with phase := .sel }

theorem test_inv_p7_pixel : BlockInv (p7At 0 1 1) :=
  ⟨by unfold MemoryOk; decide, by unfold StatusOk; decide, by unfold HeaderOk; decide,
    by intro k; cases k <;> decide, by unfold PcOk hasMask; decide⟩

theorem test_inv_p7b_pixel : BlockInv (p7At 1 2 1) :=
  ⟨by unfold MemoryOk; decide, by unfold StatusOk; decide, by unfold HeaderOk; decide,
    by intro k; cases k <;> decide, by unfold PcOk hasMask; decide⟩

theorem test_inv_p3_pixel : BlockInv (p3At 0 0) :=
  ⟨by unfold MemoryOk; decide, by unfold StatusOk; decide, by unfold HeaderOk; decide,
    by intro k; cases k <;> decide, by unfold PcOk hasMask; decide⟩

theorem test_inv_p4_pixel : BlockInv (p4At 0 1) :=
  ⟨by unfold MemoryOk; decide, by unfold StatusOk; decide, by unfold HeaderOk; decide,
    by intro k; cases k <;> decide, by unfold PcOk hasMask; decide⟩

theorem test_inv_shortHeader : BlockInv (inWindow [] 35 1 1) :=
  ⟨by unfold MemoryOk; decide, by unfold StatusOk; decide, by unfold HeaderOk; decide,
    by intro k; cases k <;> decide, by unfold PcOk hasMask; decide⟩

theorem test_inv_selectSixteen : BlockInv selectSixteen :=
  ⟨by unfold MemoryOk; decide, by unfold StatusOk; decide, by unfold HeaderOk; decide,
    by intro k; cases k <;> decide, by unfold PcOk hasMask; decide⟩

theorem test_inv_shortPalette : BlockInv shortPalette :=
  ⟨by unfold MemoryOk; decide, by unfold StatusOk; decide, by unfold HeaderOk; decide,
    by intro k; cases k <;> decide, by unfold PcOk hasMask; decide⟩

theorem test_inv_shortColour : BlockInv shortColour :=
  ⟨by unfold MemoryOk; decide, by unfold StatusOk; decide, by unfold HeaderOk; decide,
    by intro k; cases k <;> decide, by unfold PcOk hasMask; decide⟩

theorem test_inv_shortMask : BlockInv shortMask :=
  ⟨by unfold MemoryOk; decide, by unfold StatusOk; decide, by unfold HeaderOk; decide,
    by intro k; cases k <;> decide, by unfold PcOk hasMask; decide⟩

theorem test_meets_StepKeepsInv : ∃ t, BlockInv (p7At 0 1 1) ∧ step (p7At 0 1 1) = .next t :=
  (exists_next (by decide +kernel)).imp fun _ h => ⟨test_inv_p7_pixel, h⟩

/-- A CTRL write that is pending. -/
def startPending : State := { p4 with inbox := [.writeReg 0 1] }

/-- A call of the row reader that is pending, of P4's colour view. -/
def callPending : State := { p4At 0 0 with call := some (callAt .col 0 0 .r) }

/-- A header of depth 1 in the shortest window that holds one, in the big-step view. -/
def headerPending : State := { inWindow (setBytes [] 14 [1]) 36 0 0 with grain := .operation }

theorem test_meets_StepRuns_command :
    startPending.inbox = .writeReg 0 1 :: [] ∧ decode (.ctrl 1) = .ok .start := by decide

theorem test_meets_StepRuns_call : callPending.inbox = [] ∧ callPending.call = some (callAt .col 0 0 .r) ∧
    (viewOf .col callPending).depth < 256 ∧
    decode (.viewDesc (BitVec.ofNat 8 (viewOf .col callPending).depth) (callAt .col 0 0 .r)) =
      .ok (.smpB32 .col 0 0 .r) := by decide

theorem test_meets_StepRuns_header : headerPending.inbox = [] ∧ headerPending.call = none ∧
    headerPending.phase = .hdr ∧ headerPending.grain = .operation ∧ 36 ≤ len headerPending ∧
    decode (.header ((List.range 36).map fun a => headerPending.src.get a)) = .ok (.decP1 0 0) := by decide +kernel

theorem test_meets_StepRuns_sequencer : (p4At 0 1).inbox = [] ∧ (p4At 0 1).call = none ∧
    sequencer (p4At 0 1) = some (.pixT32 0 1) := by decide

theorem test_meets_DecodeOfEncode :
    (Instr.smp4 .col (2 ^ 32 - 1) 0 .c).wellFormed = true ∧
    encode (.smp4 .col (2 ^ 32 - 1) 0 .c) = some (.viewDesc 4 (callAt .col (2 ^ 32 - 1) 0 .c)) := by decide

/-- The bitcount and colorsUsed of a header, as the statement reads them. -/
def readsAs (b : List Byte) (bitcount clrused : Nat) : Prop :=
  36 ≤ b.length ∧ (b.getD 14 0).toNat + 256 * (b.getD 15 0).toNat = bitcount ∧
  (b.getD 32 0).toNat + 256 * (b.getD 33 0).toNat + 65536 * (b.getD 34 0).toNat
    + 16777216 * (b.getD 35 0).toNat = clrused

theorem test_meets_HeaderSelectsModeByTable :
    readsAs (headerWith 1 0 0) 1 0 ∧ readsAs (headerWith 2 0 3) 2 3 ∧ readsAs (headerWith 4 0 0) 4 0 ∧
    readsAs (headerWith 8 0 2) 8 2 ∧ readsAs (headerWith 24 0 0) 24 0 ∧ readsAs (headerWith 32 0 0) 32 0 ∧
    readsAs (headerWith 32 0 1) 32 1 ∧ readsAs (headerWith 0xFF 0xFF 0) 65535 0 := by
  unfold readsAs; decide

theorem test_meets_HeaderFetchReads : ∀ a ∈ [0, 1, 2, 3, 14, 15, 32, 33, 34, 35],
    Memory.get (setBytes [] 4 [9, 9]) a = (inWindow [] 40 1 1).src.get a := by decide

theorem test_meets_CtrlWord :
    (0xFFFFFFFF : Word).getLsbD 0 = true ∧ (0x00000002 : Word).getLsbD 0 = false ∧
    (0x00000002 : Word).getLsbD 1 = true ∧ (0xFFFFFFFC : Word).getLsbD 0 = false ∧
    (0xFFFFFFFC : Word).getLsbD 1 = false := by decide

theorem test_meets_StartAndClear :
    State.reset.phase = .idle ∧ { State.reset with phase := .done }.phase = .done ∧
    { State.reset with phase := .fault }.phase = .fault := by decide

theorem test_meets_BusyIgnores : busy { p4 with inbox := [.writeReg 3 9] } = true ∧
    busy { p4 with inbox := [.writeReg 4 9] } = true ∧ busy { p4 with inbox := [.writeReg 5 9] } = true := by decide

theorem test_meets_HdrFetch :
    36 ≤ len (inWindow [] 36 1 1) ∧ len (inWindow [] 3 1 1) < 4 ∧ 4 ≤ len (inWindow [] 4 1 1) ∧
    len (inWindow [] 15 1 1) < 16 ∧ 16 ≤ len (inWindow [] 16 1 1) ∧ len (inWindow [] 35 1 1) < 36 := by decide

theorem test_meets_Select :
    (withHeader 40 8 1 p4).hdrBitcount.toNat ∈ [1, 2, 4, 8] ∧
    (withHeader 40 24 0 p4).hdrBitcount.toNat ∈ [24, 32] ∧ (withHeader 40 24 0 p4).hdrClrused.toNat = 0 ∧
    (withHeader 40 0 0 p4).hdrBitcount.toNat ∉ [1, 2, 4, 8, 24, 32] ∧
    (withHeader 40 32 1 p4).hdrBitcount.toNat ∈ [24, 32] ∧ (withHeader 40 32 1 p4).hdrClrused.toNat ≠ 0 := by decide

theorem test_meets_ViewMake :
    112 + rowBytes 2 1 * 2 = len (inWindow [] 120 2 2) ∧ len (inWindow [] 119 2 2) < 112 + rowBytes 2 1 * 2 ∧
    (p7At 0 1 0).path = .palette ∧ (p3At 0 0).hdrBitcount.toNat = 24 ∧
    ¬((p4At 0 0).path = .palette ∨ (p4At 0 0).hdrBitcount.toNat = 24) ∧
    imgW p4 * imgH p4 > 0 ∧ imgW (inWindow [] 40 0 5) * imgH (inWindow [] 40 0 5) = 0 := by decide

theorem test_meets_ValidViewIsImmutable : ∃ t, BlockInv (p7At 0 1 1) ∧ step (p7At 0 1 1) = .next t ∧
    (viewOf .col (p7At 0 1 1)).valid = true :=
  (exists_next (by decide +kernel)).imp fun _ h => ⟨test_inv_p7_pixel, h, rfl⟩

/-- A 3 by 2 colour view of a depth that ends exactly at the window's end. -/
def readyAt (depth : Nat) (fmt : Fmt) : State :=
  { State.reset with
    lLen := BitVec.ofNat 32 (8 + viewSize 3 2 depth), vCol := mkView 8 3 2 depth fmt }

theorem test_meets_SubByteSample : ∀ d ∈ [1, 2, 4],
    (viewOf .col (readyAt d .c)).valid = true ∧ 2 < (viewOf .col (readyAt d .c)).width ∧
    1 < (viewOf .col (readyAt d .c)).height ∧ Channel.c ∈ fmtLetters (viewOf .col (readyAt d .c)).fmt ∧
    ViewReady (readyAt d .c) (viewOf .col (readyAt d .c)) d := by unfold ViewReady; decide

theorem test_meets_WholeByteSample :
    (∀ d ∈ [8, 16], (viewOf .col (readyAt d .c)).valid = true ∧ 2 < (viewOf .col (readyAt d .c)).width ∧
      1 < (viewOf .col (readyAt d .c)).height ∧ Channel.c ∈ fmtLetters (viewOf .col (readyAt d .c)).fmt ∧
      (fmtLetters (viewOf .col (readyAt d .c)).fmt).length ≤ 1 ∧
      ViewReady (readyAt d .c) (viewOf .col (readyAt d .c)) d) ∧
    (2 < (readyAt 24 .bgr).vCol.width ∧ 1 < (readyAt 24 .bgr).vCol.height ∧
      Channel.r ∈ fmtLetters (readyAt 24 .bgr).vCol.fmt ∧ (fmtLetters (readyAt 24 .bgr).vCol.fmt).length ≤ 3 ∧
      (readyAt 24 .bgr).vCol.valid = true ∧ ViewReady (readyAt 24 .bgr) (readyAt 24 .bgr).vCol 24) ∧
    2 < (readyAt 32 .bgra).vCol.width ∧ 1 < (readyAt 32 .bgra).vCol.height ∧
      Channel.a ∈ fmtLetters (readyAt 32 .bgra).vCol.fmt ∧
      (fmtLetters (readyAt 32 .bgra).vCol.fmt).length ≤ 4 ∧ (readyAt 32 .bgra).vCol.valid = true ∧
      ViewReady (readyAt 32 .bgra) (readyAt 32 .bgra).vCol 32 := by unfold ViewReady; decide

theorem test_meets_SampleRefuses :
    (viewOf .col State.reset).valid = false ∧ (viewOf .col (readyAt 8 .c)).valid = true ∧
    (viewOf .col (readyAt 8 .c)).depth ≠ 4 ∧ (viewOf .col (readyAt 8 .c)).depth = 8 ∧
    (viewOf .col (readyAt 8 .c)).width ≤ 3 ∧ (viewOf .col (readyAt 8 .c)).height ≤ 2 ∧
    2 < (viewOf .col (readyAt 8 .c)).width ∧ 1 < (viewOf .col (readyAt 8 .c)).height ∧
    Channel.r ∉ fmtLetters (viewOf .col (readyAt 8 .c)).fmt ∧
    { readyAt 3 .c with call := some (callAt .col 0 0 .c) }.inbox = [] ∧
    (viewOf .col { readyAt 3 .c with call := some (callAt .col 0 0 .c) }).depth ∉ [1, 2, 4, 8, 16, 24, 32] := by
  decide

theorem test_meets_SampleStopsAtWindowEnd : ∀ d ∈ [1, 2, 4, 8, 16, 24, 32],
    (viewOf .col { readyAt d .c with lLen := 8 }).valid = true ∧
    0 < (viewOf .col { readyAt d .c with lLen := 8 }).width ∧
    0 < (viewOf .col { readyAt d .c with lLen := 8 }).height ∧
    Channel.c ∈ fmtLetters (viewOf .col { readyAt d .c with lLen := 8 }).fmt ∧
    (viewOf .col { readyAt d .c with lLen := 8 }).depth = d ∧
    len { readyAt d .c with lLen := 8 } ≤ (viewOf .col { readyAt d .c with lLen := 8 }).off + 0 := by decide

theorem test_meets_PixelOutsidePicture : imgW p4 ≤ 1 ∧ imgH p4 ≤ 2 := by decide

theorem test_meets_PixPalWrites : BlockInv (p7At 0 1 1) ∧ (p7At 0 1 1).phase = .pix ∧ (p7At 0 1 1).path = .palette ∧
    1 < imgW (p7At 0 1 1) ∧ 0 < imgH (p7At 0 1 1) ∧
    laneAt (p7At 0 1 1) 8 (40 + 4 * 2) 1 (imgH (p7At 0 1 1) - 1 - 0) < (p7At 0 1 1).nColors.toNat :=
  ⟨test_inv_p7_pixel, by decide⟩

theorem test_meets_PixPalIndexRange : BlockInv (p7At 1 2 1) ∧ (p7At 1 2 1).phase = .pix ∧
    (p7At 1 2 1).path = .palette ∧ 1 < imgW (p7At 1 2 1) ∧ 0 < imgH (p7At 1 2 1) ∧
    (p7At 1 2 1).nColors.toNat ≤ laneAt (p7At 1 2 1) 8 (40 + 4 * 2) 1 (imgH (p7At 1 2 1) - 1 - 0) :=
  ⟨test_inv_p7b_pixel, by decide⟩

theorem test_meets_PixT24 : BlockInv (p3At 0 0) ∧ (p3At 0 0).phase = .pix ∧ (p3At 0 0).path = .trueColour ∧
    (p3At 0 0).hdrBitcount.toNat = 24 ∧ 1 < imgW (p3At 0 0) ∧ 1 < imgH (p3At 0 0) :=
  ⟨test_inv_p3_pixel, by decide⟩

theorem test_meets_PixT32 : BlockInv (p4At 0 1) ∧ (p4At 0 1).phase = .pix ∧ (p4At 0 1).path = .trueColour ∧
    (p4At 0 1).hdrBitcount.toNat = 32 ∧ 0 < imgW (p4At 0 1) ∧ 1 < imgH (p4At 0 1) :=
  ⟨test_inv_p4_pixel, by decide⟩

theorem test_meets_PaletteModes : paletteMode 8 40 2 (.decP8 40 2) ∧ (p7 0 1).out.wf ∧
    planeEnd (p7 0 1) (planeEnd (p7 0 1) (palColOff 40 2 8) 8) 1 = len (p7 0 1) ∧
    ∀ x < imgW (p7 0 1), ∀ y < imgH (p7 0 1),
      laneAt (p7 0 1) 8 (palColOff 40 2 8) x (imgH (p7 0 1) - 1 - y) < paletteCount 8 (2 : Word).toNat :=
  ⟨by unfold paletteMode; decide, by decide, by decide, by decide⟩

theorem test_meets_T24 : p3.out.wf ∧ planeEnd p3 (planeEnd p3 (40 : Word).toNat 24) 1 = len p3 := by decide

theorem test_meets_T32 : p4.out.wf ∧ (40 : Word).toNat + 4 * imgW p4 * imgH p4 ≤ len p4 := by decide

/-- P7 in another window. -/
def p7In (window : Word) : State := { p7 0 1 with lLen := window }

theorem test_meets_Truncation :
    paletteMode 8 40 2 (.decP8 40 2) ∧ len (p7In 47) < palColOff 40 2 8 ∧ palColOff 40 2 8 ≤ len (p7In 48) ∧
    len (p7In 51) < planeEnd (p7In 51) (palColOff 40 2 8) 8 ∧
    planeEnd (p7In 52) (palColOff 40 2 8) 8 ≤ len (p7In 52) ∧
    len (p7In 55) < planeEnd (p7In 55) (planeEnd (p7In 55) (palColOff 40 2 8) 8) 1 ∧
    len (p7In 47) < planeEnd (p7In 47) (40 : Word).toNat 24 ∧
    planeEnd (p7In 48) (40 : Word).toNat 24 ≤ len (p7In 48) ∧
    len (p7In 51) < planeEnd (p7In 51) (planeEnd (p7In 51) (40 : Word).toNat 24) 1 ∧
    len (p7In 47) < (40 : Word).toNat + 4 * imgW (p7In 47) * imgH (p7In 47) :=
  ⟨by unfold paletteMode; decide, by decide⟩

theorem test_meets_IndexRange : paletteMode 8 40 2 (.decP8 40 2) ∧ (p7 1 2).out.wf ∧
    planeEnd (p7 1 2) (planeEnd (p7 1 2) (palColOff 40 2 8) 8) 1 ≤ len (p7 1 2) ∧ 1 < imgW (p7 1 2) ∧
    0 < imgH (p7 1 2) ∧ paletteCount 8 (2 : Word).toNat ≤ laneAt (p7 1 2) 8 (palColOff 40 2 8) 1 0 ∧
    ∀ x < imgW (p7 1 2), ∀ y ≤ 0, (y < 0 ∨ (y = 0 ∧ x < 1)) →
      laneAt (p7 1 2) 8 (palColOff 40 2 8) x (imgH (p7 1 2) - 1 - y) < paletteCount 8 (2 : Word).toNat :=
  ⟨by unfold paletteMode; decide, by decide, by decide, by decide, by decide, by decide, by decide⟩

theorem test_meets_FullPalette : paletteMode 4 40 0 (.decP4 40 0) ∧
    planeEnd p1 (planeEnd p1 ((40 : Word).toNat + 4 * 2 ^ 4) 4) 1 = len p1 :=
  ⟨by unfold paletteMode; decide, by decide⟩

theorem test_decodeMode_decT24 : decodeMode (.decT24 40) := .inr (.inl ⟨40, rfl⟩)

theorem test_meets_EmptyPicture : imgW (inWindow [] 48 0 5) = 0 ∧ imgH (inWindow [] 47 5 0) = 0 ∧
    paletteMode 1 40 0 (.decP1 40 0) ∧ palColOff 40 0 1 ≤ len (inWindow [] 48 0 5) ∧
    len (inWindow [] 47 5 0) < palColOff 40 0 1 ∧ imgW (inWindow [] 40 0 5) = 0 ∧
    (40 : Word).toNat ≤ len (inWindow [] 40 0 5) ∧ imgH (inWindow [] 39 5 0) = 0 ∧
    len (inWindow [] 39 5 0) < (40 : Word).toNat := ⟨by decide, by decide, by unfold paletteMode; decide, by decide⟩

/-- A whole P4 with its header, at P_HDR. -/
def p4Whole : State := inWindow (setBytes p4.src 0 (headerWith 32 0 0)) 56 1 2

theorem test_meets_SequencerRefines : ∃ t, p4Whole.inbox = [] ∧ p4Whole.call = none ∧ p4Whole.phase = .hdr ∧
    headerMode p4Whole = some (.decT32 40) ∧ exec (.decT32 40) p4Whole = .next t :=
  (exists_next (by decide +kernel)).imp fun _ h => ⟨rfl, rfl, rfl, by decide +kernel, h⟩

theorem test_meets_EveryOperationEnds : BlockInv (p7At 0 1 1) ∧ busy (p7At 0 1 1) = true ∧
    (p7At 0 1 1).inbox = [] ∧ (p7At 0 1 1).call = none ∧ (p7At 0 1 1).phase = .pix :=
  ⟨test_inv_p7_pixel, rfl, rfl, rfl, rfl⟩

theorem test_meets_NothingMoves : ∀ p ∈ [Phase.idle, .done, .fault],
    { State.reset with phase := p }.inbox = [] ∧ { State.reset with phase := p }.call = none ∧
    busy { State.reset with phase := p } = false := by decide

theorem test_meets_RaisedFault_header : ∃ t, step (inWindow [] 35 1 1) = .next t ∧ (t.phase == .fault) = true :=
  exists_next_with (by decide)

theorem test_meets_RaisedFault_select : ∃ t, step selectSixteen = .next t ∧ (t.phase == .fault) = true :=
  exists_next_with (by decide)

theorem test_meets_RaisedFault_views :
    (∃ t, step shortPalette = .next t ∧ (t.phase == .fault) = true) ∧
    (∃ t, step shortColour = .next t ∧ (t.phase == .fault) = true) ∧
    ∃ t, step shortMask = .next t ∧ (t.phase == .fault) = true :=
  ⟨exists_next_with (by decide), exists_next_with (by decide), exists_next_with (by decide)⟩

theorem test_meets_RaisedFault_pixel : ∃ t, step (p7At 1 2 1) = .next t ∧ (t.phase == .fault) = true :=
  exists_next_with (by decide)

theorem test_meets_BlockAccessDiscipline :
    (∃ t, exec (.pixT32 0 1) (p4At 0 1) = .next t) ∧
    (∀ a < len p4, Memory.get (Memory.set p4.src 56 0xFF) a = p4.src.get a) ∧
    (∃ u, exec (.pixT32 0 1) { p4At 0 1 with out := [(2, 9), (5, 7)] } = .next u) ∧ (p4At 0 1).out.wf ∧
    Memory.wf [(2, 9), (5, 7)] :=
  ⟨exists_next (by decide +kernel), by decide +kernel, exists_next (by decide +kernel), by decide, by decide⟩

theorem test_meets_WritesOnlyInsideOut : ∃ t, p4.out.wf ∧ exec (.decT32 40) p4 = .next t ∧
    imgW p4 * imgH p4 * 4 = 8 :=
  (exists_next (by decide +kernel)).imp fun _ h => ⟨by decide, h, by decide⟩

/-- A START about to happen in IDLE after reset, over P4. -/
def freshStart : State :=
  { State.reset with srcLen := 56, cfgW := 1, cfgH := 2, src := p4Whole.src, inbox := [.writeReg 0 1] }

/-- The same START after another operation has ended in FAULT. -/
def lateStart : State :=
  { p7In 47 with
    phase := .fault, err := .truncatedData, errView := some .pal, errInfo := 40, srcLen := 56, cfgW := 1, cfgH := 2
    src := p4Whole.src.set 60 7, out := [(3, 5)], inbox := [.writeReg 0 1] }

theorem test_meets_ResultDepends : busy freshStart = false ∧ busy lateStart = false ∧
    freshStart.inbox = [.writeReg 0 1] ∧ lateStart.inbox = [.writeReg 0 1] ∧ freshStart.call = lateStart.call ∧
    freshStart.grain = lateStart.grain ∧ freshStart.out.wf ∧ lateStart.out.wf ∧
    freshStart.srcLen = lateStart.srcLen ∧ freshStart.cfgW = lateStart.cfgW ∧ freshStart.cfgH = lateStart.cfgH ∧
    (∀ a < freshStart.srcLen.toNat, freshStart.src.get a = lateStart.src.get a) ∧
    (after (Sys2Proof.core.run 1 freshStart)).isSome = true := by decide +kernel

theorem test_meets_ResetInput : { p4 with inbox := [.reset] }.inbox = .reset :: [] := by decide

theorem test_meets_HostReadAnswers : { p4 with inbox := [.readReg 15] }.inbox = .readReg 15 :: [] ∧ busy p4 = true ∧
    { State.reset with phase := .done, inbox := [.readReg 9] }.phase = .done ∧ (9 : BitVec 4).toNat = 9 ∧
    10 ≤ (15 : BitVec 4).toNat := by decide

theorem test_meets_HostWrite : { p4 with inbox := [.writeReg 15 9] }.inbox = .writeReg 15 9 :: [] ∧
    (15 : BitVec 4) ≠ 0 ∧ (15 : BitVec 4) ≠ 3 ∧ (15 : BitVec 4) ≠ 4 ∧ (15 : BitVec 4) ≠ 5 := by decide

theorem test_meets_HostWritesOneSourceByte : p4.src.wf ∧ busy p4 = true ∧ len p4 ≤ (56 : Word).toNat ∧
    (55 : Word).toNat < len p4 ∧ busy State.reset = false ∧ (0xFFFFFFFE : Word).toNat < 2 ^ 32 - 1 ∧
    (0xFFFFFFFF : Word).toNat = 2 ^ 32 - 1 := by decide

theorem test_meets_HostReadsOut : { p4 with phase := .done }.phase = .done ∧ 7 < imgW p4 * imgH p4 * 4 ∧
    imgW p4 * imgH p4 * 4 ≤ 8 ∧ p4.phase ≠ .done := by decide

theorem test_meets_StatusWord : State.reset.phase = .idle ∧ State.reset.err = .none ∧ State.reset.errView = none ∧
    State.reset.path = .none ∧ p4.phase ∈ [.hdr, .sel, .vpal, .vcol, .vmsk, .pix] ∧ p4.err = .none ∧
    p4.errView = none ∧ { State.reset with phase := .done, path := .palette }.path = .palette ∧
    { State.reset with phase := .done, path := .trueColour }.path = .trueColour ∧
    lateStart.phase = .fault ∧ lateStart.err = .truncatedData ∧
    { lateStart with errView := some .col }.errView = some .col := by decide

/-- 95_test_vectors.md section 2.5 and K1: the codes of OutOfBounds, UnsupportedColorDepth, IndexRange, and of
TruncatedData in PAL and MSK. -/
theorem test_status_of_faults :
    statusWord { State.reset with phase := .fault, err := .outOfBounds } = 0x013 ∧
    statusWord { State.reset with phase := .fault, err := .unsupportedColorDepth } = 0x023 ∧
    statusWord { State.reset with phase := .fault, err := .indexRange } = 0x043 ∧
    statusWord { State.reset with phase := .fault, err := .truncatedData, errView := some .pal } = 0x133 ∧
    statusWord { State.reset with phase := .fault, err := .truncatedData, errView := some .msk } = 0x333 := by decide

theorem test_meets_MemRead : len (inWindow [] 35 1 1) < 32 + 4 ∧ 32 + 4 ≤ len (inWindow [] 36 1 1) ∧
    14 + 2 ≤ len (inWindow [] 16 1 1) ∧ 0 + 1 ≤ len (inWindow [] 1 1 1) ∧
    memRead 0 1 (inWindow [] 1 1 1) = .ok 0 := by decide

end Sys2Proof.Machine
end

/-! SUPPORT. Two runs of one part of an operation side by side: when they end alike, and what that takes for each
shared operation. The statements on noninterference (00_scope.md R3, R16) and the agreement of the two views of an
operation (R15) all rest on it. -/

namespace Sys2Proof.Machine

/-! ### Ends that are alike -/

/-- Two parts of an operation end alike: with values related by `V`, with raised states related by `E`, or with the
same stop. -/
def Flow.Alike {α β : Type} (V : α → β → Prop) (E : State → State → Prop) : Flow α → Flow β → Prop
  | .ok a, .ok b => V a b
  | .raised s, .raised u => E s u
  | .fault f, .fault g => f = g
  | .refused r, .refused q => r = q
  | _, _ => False

/-- Two steps end alike: in next states related by `R`, or with the same stop. -/
def OutcomesAlike (R : State → State → Prop) :
    Host.Outcome State Fault Refusal → Host.Outcome State Fault Refusal → Prop
  | .next s, .next u => R s u
  | .fault f, .fault g => f = g
  | .refused r, .refused q => r = q
  | _, _ => False

section Alike

variable {α β γ δ : Type} {V : α → β → Prop} {W : γ → δ → Prop} {E R : State → State → Prop}

theorem Flow.Alike.andThen {m : Flow α} {n : Flow β} {k : α → Flow γ} {l : β → Flow δ} (h : Alike V E m n)
    (hk : ∀ a b, V a b → Alike W E (k a) (l b)) : Alike W E (m.andThen k) (n.andThen l) := by
  cases m with
  | ok a => cases n with
    | ok b => exact hk a b h
    | _ => exact h.elim
  | raised _ => cases n with
    | raised _ => exact h
    | _ => exact h.elim
  | fault _ => cases n with
    | fault _ => exact h
    | _ => exact h.elim
  | refused _ => cases n with
    | refused _ => exact h
    | _ => exact h.elim

/-- A first part that raises nothing and is the same on both sides leaves the rest to compare. -/
theorem Flow.Alike.andThen_same {m : Flow α} {k : α → Flow γ} {l : α → Flow δ} (hm : ∀ t, m ≠ .raised t)
    (hk : ∀ a, Alike W E (k a) (l a)) : Alike W E (m.andThen k) (m.andThen l) := by
  cases m with
  | ok a => exact hk a
  | raised s => exact absurd rfl (hm s)
  | fault f => exact (rfl : f = f)
  | refused r => exact (rfl : r = r)

theorem Flow.Alike.outcome {m n : Flow State} (h : Alike R R m n) : OutcomesAlike R m.outcome n.outcome := by
  cases m <;> cases n <;> simp_all [Alike, OutcomesAlike]

/-- Ends whose values differ by a function and whose raised states are equal are one computation and that
function after it. -/
theorem Flow.Alike.eq_map {f : α → β} {m : Flow α} {n : Flow β}
    (h : Alike (fun a b => b = f a) (fun s u => u = s) m n) :
    n = m.andThen fun a => .ok (f a) := by
  cases m <;> cases n <;> simp_all [Alike]

theorem OutcomesAlike.of_next {o p : Host.Outcome State Fault Refusal} {t : State} (h : OutcomesAlike R o p)
    (ho : o = .next t) : ∃ v, p = .next v ∧ R t v := by
  subst ho
  cases p with
  | next v => exact ⟨v, rfl, h⟩
  | fault f => exact h.elim
  | refused r => exact h.elim

end Alike

/-! ### What the block reads besides its registers -/

/-- The two blocks were given the same LEN, W and H and the same bytes below LEN. -/
structure SameInputs (s u : State) : Prop where
  lLen : u.lLen = s.lLen
  lW : u.lW = s.lW
  lH : u.lH = s.lH
  window : ∀ a, a < len s → u.src.get a = s.src.get a

section SameInputs

variable {s u : State}

theorem SameInputs.len (h : SameInputs s u) : len u = len s := congrArg BitVec.toNat h.lLen
theorem SameInputs.imgW (h : SameInputs s u) : imgW u = imgW s := congrArg BitVec.toNat h.lW
theorem SameInputs.imgH (h : SameInputs s u) : imgH u = imgH s := congrArg BitVec.toNat h.lH

theorem SameInputs.readSrc (h : SameInputs s u) (a : Nat) : readSrc a u = readSrc a s := by
  unfold Machine.readSrc
  rw [h.len]
  split
  next ha => rw [h.window a ha]
  · rfl

theorem SameInputs.sample (h : SameInputs s u) (v : View) (x y : Nat) (ch : Channel) :
    sample v x y ch u = sample v x y ch s := by
  simp only [Machine.sample, smp1, smp2, smp4, smpB8, smpB16, smpB24, smpB32, subByteSample, wholeByteSample,
    h.readSrc]

end SameInputs

/-! ### One pixel of OUT -/

/-- The state with one byte of OUT written. -/
def putByte (a : Nat) (b : Byte) (s : State) : State := setOut (s.out.set a b) s

/-- The state with the four bytes of pixel (x, y) in OUT, in the order Emit writes them (43_composite.md R199). -/
def withPixel (x y : Nat) (r g b a : Byte) (s : State) : State :=
  let o := outAddr (imgW s) x y
  putByte (o + 3) a (putByte (o + 2) b (putByte (o + 1) g (putByte o r s)))

theorem setOut_setOut (m n : Memory) (s : State) : setOut m (setOut n s) = setOut m s := rfl

theorem withPixel_eq_setOut (x y : Nat) (r g b a : Byte) (s : State) :
    let o := outAddr (imgW s) x y
    withPixel x y r g b a s =
      setOut ((((s.out.set o r).set (o + 1) g).set (o + 2) b).set (o + 3) a) s := by
  simp only [withPixel, putByte, setOut_out, setOut_setOut]

theorem emit_eq_withPixel {x y : Nat} {r g b a : Byte} {s : State} (hx : x < imgW s) (hy : y < imgH s) :
    emit x y r g b a s = .ok (withPixel x y r g b a s) := by
  rw [emit_ok hx hy, withPixel_eq_setOut]

/-! ### The shared operations, side by side -/

section Operations

variable {s u : State} {V E : State → State → Prop}

theorem fetchHeader_alike (h : SameInputs s u)
    (hok : ∀ size bitcount clrused, V (latchHeader size bitcount clrused s) (latchHeader size bitcount clrused u))
    (hraise : ∀ n, E (enterFault .outOfBounds none n s) (enterFault .outOfBounds none n u)) :
    Flow.Alike V E (fetchHeader s) (fetchHeader u) := by
  rcases Nat.lt_or_ge (len s) 36 with hl | hl
  · rw [fetchHeader_raises hl, fetchHeader_raises (s := u) (h.len ▸ hl), h.len]
    exact hraise _
  · have hw (a n : Nat) (ha : a + n ≤ 36) :
        ((List.range n).map fun k => u.src.get (a + k)) = (List.range n).map fun k => s.src.get (a + k) :=
      List.map_congr_left fun k hk => h.window _ (by have := List.mem_range.mp hk; omega)
    rw [fetchHeader_ok hl, fetchHeader_ok (s := u) (h.len ▸ hl), hw 0 4 (by omega), hw 14 2 (by omega),
      hw 32 4 (by omega)]
    exact hok _ _ _

theorem selectPath_alike (hb : u.hdrBitcount = s.hdrBitcount) (hc : u.hdrClrused = s.hdrClrused)
    (hok : ∀ n p, V (setSelection n p s) (setSelection n p u))
    (hraise : ∀ n, E (enterFault .unsupportedColorDepth none n s) (enterFault .unsupportedColorDepth none n u)) :
    Flow.Alike V E (selectPath s) (selectPath u) := by
  unfold selectPath
  rw [hb, hc]
  dsimp only
  split <;> split
  · exact hok _ _
  · exact hraise _
  · exact hok _ _
  · exact hraise _

theorem makeView_alike {k : Slot} {o w h d : Nat} {f : Fmt} (hl : u.lLen = s.lLen)
    (hok : V (setView k (mkView o w h d f) s) (setView k (mkView o w h d f) u))
    (hraise : E (enterFault .truncatedData (some k) o s) (enterFault .truncatedData (some k) o u)) :
    Flow.Alike V E (makeView k o w h d f s) (makeView k o w h d f u) := by
  have hlen : len u = len s := congrArg BitVec.toNat hl
  unfold makeView
  rw [hlen]
  split
  · exact hraise
  · exact hok

theorem onImage_alike {x y : Nat} {m n : Flow State} (h : SameInputs s u)
    (hm : x < imgW s → y < imgH s → Flow.Alike V E m n) : Flow.Alike V E (onImage x y s m) (onImage x y u n) := by
  unfold onImage
  rw [h.imgW, h.imgH]
  split
  next hxy => exact hm hxy.1 hxy.2
  · exact (rfl : Refusal.pixelOutsideImage = .pixelOutsideImage)

/-- What two states have to do with each other for the pixel (x, y) to be produced alike: V relates them with the
pixel's four bytes written, E with an index fault taken. -/
structure PixelAlike (V E : State → State → Prop) (x y : Nat) (s u : State) : Prop where
  inputs : SameInputs s u
  written : x < imgW s → y < imgH s → ∀ r g b a, V (withPixel x y r g b a s) (withPixel x y r g b a u)
  raise : ∀ n, E (enterFault .indexRange none n s) (enterFault .indexRange none n u)

variable {x y : Nat}

theorem PixelAlike.emit (h : PixelAlike V E x y s u) (hx : x < imgW s) (hy : y < imgH s) (r g b a : Byte) :
    Flow.Alike V E (emit x y r g b a s) (emit x y r g b a u) := by
  rw [emit_eq_withPixel hx hy, emit_eq_withPixel (h.inputs.imgW ▸ hx) (h.inputs.imgH ▸ hy)]
  exact h.written hx hy r g b a

theorem palettePixel_alike (h : PixelAlike V E x y s u) (hn : u.nColors = s.nColors) (hp : u.vPal = s.vPal)
    (hc : u.vCol = s.vCol) (hm : u.vMsk = s.vMsk) :
    Flow.Alike V E (palettePixel x y s) (palettePixel x y u) := by
  refine onImage_alike h.inputs fun hx hy => ?_
  simp only [h.inputs.imgH, h.inputs.sample, hn, hp, hc, hm]
  refine .andThen_same (fun _ => sample_not_raised) fun i => ?_
  split
  · exact h.raise _
  refine .andThen_same (fun _ => sample_not_raised) fun r => ?_
  refine .andThen_same (fun _ => sample_not_raised) fun g => ?_
  refine .andThen_same (fun _ => sample_not_raised) fun b => ?_
  exact .andThen_same (fun _ => sample_not_raised) fun m => h.emit hx hy r g b _

theorem trueColour24Pixel_alike (h : PixelAlike V E x y s u) (hc : u.vCol = s.vCol) (hm : u.vMsk = s.vMsk) :
    Flow.Alike V E (trueColour24Pixel x y s) (trueColour24Pixel x y u) := by
  refine onImage_alike h.inputs fun hx hy => ?_
  simp only [h.inputs.imgH, h.inputs.sample, hc, hm]
  refine .andThen_same (fun _ => sample_not_raised) fun r => ?_
  refine .andThen_same (fun _ => sample_not_raised) fun g => ?_
  refine .andThen_same (fun _ => sample_not_raised) fun b => ?_
  exact .andThen_same (fun _ => sample_not_raised) fun m => h.emit hx hy r g b _

theorem trueColour32Pixel_alike (h : PixelAlike V E x y s u) (hc : u.vCol = s.vCol) :
    Flow.Alike V E (trueColour32Pixel x y s) (trueColour32Pixel x y u) := by
  refine onImage_alike h.inputs fun hx hy => ?_
  simp only [h.inputs.imgH, h.inputs.sample, hc]
  refine .andThen_same (fun _ => sample_not_raised) fun r => ?_
  refine .andThen_same (fun _ => sample_not_raised) fun g => ?_
  refine .andThen_same (fun _ => sample_not_raised) fun b => ?_
  exact .andThen_same (fun _ => sample_not_raised) fun a => h.emit hx hy r g b a

/-- The loops keep a relation that every pixel keeps. -/
theorem rowLoop_alike {body : Nat → Nat → State → Flow State}
    (hb : ∀ x y s u, V s u → Flow.Alike V E (body x y s) (body x y u)) (y n x : Nat) (h : V s u) :
    Flow.Alike V E (rowLoop body y n x s) (rowLoop body y n x u) := by
  induction n generalizing x s u with
  | zero => exact h
  | succ n ih => exact (hb x y s u h).andThen fun _ _ h => ih (x + 1) h

theorem imageLoop_alike {body : Nat → Nat → State → Flow State}
    (hb : ∀ x y s u, V s u → Flow.Alike V E (body x y s) (body x y u)) (w n y : Nat) (h : V s u) :
    Flow.Alike V E (imageLoop body w n y s) (imageLoop body w n y u) := by
  induction n generalizing y s u with
  | zero => exact h
  | succ n ih => exact (rowLoop_alike hb y w 0 h).andThen fun _ _ h => ih (y + 1) h

end Operations

end Sys2Proof.Machine

/-! SUPPORT. Two runs of one operation that differ in what stands around the block's registers: SRC beyond the window,
OUT, or the grain (00_scope.md R15, R16). -/

namespace Sys2Proof.Machine

theorem subByteSample_not_raised {v : View} {d x y : Nat} {ch : Channel} {s t : State} :
    subByteSample v d x y ch s ≠ .raised t := guarded_not_raised fun h => by
  rcases Flow.andThen_eq_raised.mp h with h | ⟨b, _, h⟩
  · exact readSrc_not_raised h
  · cases h

theorem wholeByteSample_not_raised {v : View} {d x y : Nat} {ch : Channel} {s t : State} :
    wholeByteSample v d x y ch s ≠ .raised t := guarded_not_raised readSrc_not_raised

/-! ### Updates that leave alone what is not the operation's -/

/-- What stands around the block's registers: the two memories, the host's two fields, and the grain. -/
structure Outside where
  src : Memory
  out : Memory
  inbox : List HostAccess
  hostData : Word
  grain : Grain

/-- The outside of a state. -/
def outside (s : State) : Outside := ⟨s.src, s.out, s.inbox, s.hostData, s.grain⟩

/-- The registers of a state with another outside. -/
def Outside.around (e : Outside) (s : State) : State :=
  { s with src := e.src, out := e.out, inbox := e.inbox, hostData := e.hostData, grain := e.grain }

@[simp] theorem outside_around (e : Outside) (s : State) : outside (e.around s) = e := rfl

/-- The update neither looks at the outside nor changes it. -/
def Blind (f : State → State) : Prop := ∀ e s, f (Outside.around e s) = e.around (f s)

theorem Blind.outside {f : State → State} (hf : Blind f) (s : State) : outside (f s) = outside s := by
  rw [show f s = (Machine.outside s).around (f s) from hf (Machine.outside s) s, outside_around]

theorem Blind.ite {c : State → Prop} [DecidablePred c] {f g : State → State}
    (hc : ∀ e s, c (Outside.around e s) ↔ c s) (hf : Blind f) (hg : Blind g) :
    Blind fun s => if c s then f s else g s := by
  intro e s
  by_cases h : c s
  · simp only [h, hc e s, if_true, hf e s]
  · simp only [h, hc e s, if_false, hg e s]

theorem blind_goto (p : Phase) : Blind (goto p) := fun _ _ => rfl
theorem blind_gotoPixel (y x : Nat) : Blind (gotoPixel y x) := fun _ _ => rfl
theorem blind_enterFault (c : ErrCode) (v : Option Slot) (n : Nat) : Blind (enterFault c v n) := fun _ _ => rfl
theorem blind_latchHeader (a b c : Nat) : Blind (latchHeader a b c) := fun _ _ => rfl
theorem blind_setSelection (n : Nat) (p : Path) : Blind (setSelection n p) := fun _ _ => rfl
theorem blind_keepSample (b : Byte) : Blind (keepSample b) := fun _ _ => rfl
theorem blind_setView (k : Slot) (v : View) : Blind (setView k v) := by cases k <;> exact fun _ _ => rfl
theorem blind_finish : Blind finish := blind_goto .done
theorem blind_startPixels : Blind startPixels := .ite (fun _ _ => .rfl) (blind_gotoPixel 0 0) blind_finish
theorem blind_advancePixel (x y : Nat) : Blind (advancePixel x y) :=
  .ite (fun _ _ => .rfl) (blind_gotoPixel y (x + 1)) (.ite (fun _ _ => .rfl) (blind_gotoPixel (y + 1) 0) blind_finish)
theorem blind_afterSelect : Blind afterSelect := .ite (fun _ _ => .rfl) (blind_goto .vpal) (blind_goto .vcol)
theorem blind_afterView (k : Slot) : Blind (afterView k) := by
  cases k with
  | pal => exact blind_goto .vcol
  | col => exact .ite (fun _ _ => .rfl) (blind_goto .vmsk) blind_startPixels
  | msk => exact blind_startPixels
theorem blind_latchOnStart : Blind fun s => goto .hdr (clearStatus (invalidateViews (latchOperands s))) :=
  fun _ _ => rfl
theorem blind_clearToIdle : Blind fun s => goto .idle (clearStatus s) := fun _ _ => rfl

/-! ### Two runs that differ outside -/

/-- Two runs of an operation, from `s₀` and from `u₀`, have come to `s` and `u`: the registers are alike, SRC and the
grain are each run's own from the start, and each byte of OUT is the same in both or written by neither. -/
structure Twin (s₀ u₀ s u : State) : Prop where
  rest : u = { s with src := u₀.src, out := u.out, grain := u₀.grain }
  src : s.src = s₀.src
  inbox : s.inbox = s₀.inbox
  hostData : s.hostData = s₀.hostData
  grain : s.grain = s₀.grain
  outSame : u₀.out = s₀.out → u.out = s.out
  outBytes : s₀.out.wf → u₀.out.wf → s.out.wf ∧ u.out.wf ∧
    ∀ a, u.out.get a = s.out.get a ∨ (s.out.get a = s₀.out.get a ∧ u.out.get a = u₀.out.get a)

/-- The two runs before they take LEN anew: it is still the first run's. -/
structure TwinInside (s₀ u₀ s u : State) : Prop extends Twin s₀ u₀ s u where
  lLen : s.lLen = s₀.lLen

/-- Two parts of an operation end with the two runs together, or in the same stop. -/
abbrev Flow.Twins (s₀ u₀ : State) : Flow State → Flow State → Prop :=
  Flow.Alike (TwinInside s₀ u₀) (TwinInside s₀ u₀)

section Twin

variable {s₀ u₀ s u : State}

theorem Twin.update {f : State → State} (h : Twin s₀ u₀ s u) (hf : Blind f) : Twin s₀ u₀ (f s) (f u) := by
  have hs := hf.outside s
  have hu : f u = Outside.around ⟨u₀.src, u.out, s.inbox, s.hostData, u₀.grain⟩ (f s) := by
    rw [← hf, ← show u = Outside.around ⟨u₀.src, u.out, s.inbox, s.hostData, u₀.grain⟩ s from h.rest]
  simp only [outside, Outside.mk.injEq] at hs
  obtain ⟨hsrc, hout, hinbox, hdata, hgrain⟩ := hs
  have huo : (f u).out = u.out := congrArg Outside.out (hf.outside u)
  refine ⟨?_, hsrc.trans h.src, hinbox.trans h.inbox, hdata.trans h.hostData, hgrain.trans h.grain, ?_, ?_⟩
  · rw [huo, hu]
    simp only [Outside.around, ← hinbox, ← hdata]
  · rw [huo, hout]; exact h.outSame
  · rw [huo, hout]; exact h.outBytes

theorem TwinInside.update {f : State → State} (h : TwinInside s₀ u₀ s u) (hf : Blind f)
    (hl : (f s).lLen = s.lLen) : TwinInside s₀ u₀ (f s) (f u) :=
  ⟨h.toTwin.update hf, hl.trans h.lLen⟩

/-- The same byte written in both runs. -/
theorem TwinInside.putByte (h : TwinInside s₀ u₀ s u) (a : Nat) (b : Byte) :
    TwinInside s₀ u₀ (putByte a b s) (putByte a b u) := by
  refine ⟨⟨?_, h.src, h.inbox, h.hostData, h.grain, fun h₀ => ?_, fun hs hu => ?_⟩, h.lLen⟩
  · have := congrArg (setOut (u.out.set a b)) h.rest
    exact this
  · show u.out.set a b = s.out.set a b
    rw [h.outSame h₀]
  · obtain ⟨ws, wu, hb⟩ := h.outBytes hs hu
    refine ⟨Memory.wf_set ws a b, Memory.wf_set wu a b, fun c => ?_⟩
    simp only [Machine.putByte, setOut_out, Memory.get_set ws, Memory.get_set wu]
    by_cases hc : c = a
    · simp [hc]
    · simpa [hc] using hb c

theorem TwinInside.withPixel (h : TwinInside s₀ u₀ s u) (x y : Nat) (r g b a : Byte) :
    TwinInside s₀ u₀ (withPixel x y r g b a s) (withPixel x y r g b a u) := by
  have hw : imgW u = imgW s := by rw [h.rest]; rfl
  unfold Machine.withPixel
  rw [hw]
  exact (((h.putByte _ r).putByte _ g).putByte _ b).putByte _ a

end Twin

/-! ### Every operation keeps the two runs together -/

section Operations

variable {s₀ u₀ s u : State}

theorem TwinInside.inputs (hw : ∀ a, a < len s₀ → u₀.src.get a = s₀.src.get a) (h : TwinInside s₀ u₀ s u) :
    SameInputs s u := by
  have hlen : len s = len s₀ := congrArg BitVec.toNat h.lLen
  refine ⟨by rw [h.rest], by rw [h.rest], by rw [h.rest], fun a ha => ?_⟩
  have hu : u.src = u₀.src := by rw [h.rest]
  rw [hu, h.src]
  exact hw a (hlen ▸ ha)

theorem TwinInside.pixel (hw : ∀ a, a < len s₀ → u₀.src.get a = s₀.src.get a) (h : TwinInside s₀ u₀ s u) (x y : Nat) :
    PixelAlike (TwinInside s₀ u₀) (TwinInside s₀ u₀) x y s u :=
  ⟨h.inputs hw, fun _ _ => h.withPixel x y, fun n => h.update (blind_enterFault _ _ n) rfl⟩

theorem Twin.view (h : Twin s₀ u₀ s u) (k : Slot) : viewOf k u = viewOf k s := by
  rw [h.rest]
  cases k <;> rfl

section Window

variable (hw : ∀ a, a < len s₀ → u₀.src.get a = s₀.src.get a)
include hw

theorem TwinInside.palettePixel (h : TwinInside s₀ u₀ s u) (x y : Nat) :
    Flow.Twins s₀ u₀ (palettePixel x y s) (palettePixel x y u) :=
  palettePixel_alike (h.pixel hw x y) (by rw [h.rest]) (h.view .pal) (h.view .col) (h.view .msk)

theorem TwinInside.trueColour24Pixel (h : TwinInside s₀ u₀ s u) (x y : Nat) :
    Flow.Twins s₀ u₀ (trueColour24Pixel x y s) (trueColour24Pixel x y u) :=
  trueColour24Pixel_alike (h.pixel hw x y) (h.view .col) (h.view .msk)

theorem TwinInside.trueColour32Pixel (h : TwinInside s₀ u₀ s u) (x y : Nat) :
    Flow.Twins s₀ u₀ (trueColour32Pixel x y s) (trueColour32Pixel x y u) :=
  trueColour32Pixel_alike (h.pixel hw x y) (h.view .col)

theorem TwinInside.produce {body : Nat → Nat → State → Flow State}
    (hb : ∀ x y s u, TwinInside s₀ u₀ s u → Flow.Twins s₀ u₀ (body x y s) (body x y u))
    (h : TwinInside s₀ u₀ s u) :
    Flow.Twins s₀ u₀ (produce body s) (produce body u) := by
  unfold Machine.produce
  rw [(h.inputs hw).imgW, (h.inputs hw).imgH]
  exact (imageLoop_alike hb _ _ 0 h).andThen fun _ _ h => h.update blind_finish rfl

omit hw in
theorem TwinInside.selectPath (h : TwinInside s₀ u₀ s u) :
    Flow.Twins s₀ u₀ (selectPath s) (selectPath u) :=
  selectPath_alike (by rw [h.rest]) (by rw [h.rest]) (fun n p => h.update (blind_setSelection n p) rfl)
    fun n => h.update (blind_enterFault _ _ n) rfl

omit hw in
theorem TwinInside.makeView (h : TwinInside s₀ u₀ s u) {k : Slot} {o w ht d : Nat} {f : Fmt} :
    Flow.Twins s₀ u₀ (makeView k o w ht d f s) (makeView k o w ht d f u) :=
  makeView_alike (by rw [h.rest]) (h.update (blind_setView k _) (by simp)) (h.update (blind_enterFault _ _ o) rfl)

theorem TwinInside.decodePalette (h : TwinInside s₀ u₀ s u) (d : Nat) (size clrused : Word) :
    Flow.Twins s₀ u₀ (decodePalette d size clrused s) (decodePalette d size clrused u) := by
  unfold Machine.decodePalette
  refine (h.update (blind_latchHeader _ _ _) rfl).selectPath.andThen fun s1 u1 h1 => ?_
  rw [show u1.hdrSize = s1.hdrSize by rw [h1.rest], show u1.nColors = s1.nColors by rw [h1.rest]]
  refine h1.makeView.andThen fun s2 u2 h2 => ?_
  rw [show u2.vPal = s2.vPal from h2.view .pal, (h2.inputs hw).imgW, (h2.inputs hw).imgH]
  refine h2.makeView.andThen fun s3 u3 h3 => ?_
  rw [show u3.vCol = s3.vCol from h3.view .col, (h3.inputs hw).imgW, (h3.inputs hw).imgH]
  exact h3.makeView.andThen fun _ _ h4 => h4.produce hw fun x y _ _ h => h.palettePixel hw x y

theorem TwinInside.decT24 (h : TwinInside s₀ u₀ s u) (size : Word) :
    OutcomesAlike (TwinInside s₀ u₀) (execDecT24 size s) (execDecT24 size u) := by
  refine Flow.Alike.outcome ((h.update (blind_latchHeader _ _ _) rfl).selectPath.andThen fun s1 u1 h1 => ?_)
  rw [show u1.hdrSize = s1.hdrSize by rw [h1.rest], (h1.inputs hw).imgW, (h1.inputs hw).imgH]
  refine h1.makeView.andThen fun s2 u2 h2 => ?_
  rw [show u2.vCol = s2.vCol from h2.view .col, (h2.inputs hw).imgW, (h2.inputs hw).imgH]
  exact h2.makeView.andThen fun _ _ h3 => h3.produce hw fun x y _ _ h => h.trueColour24Pixel hw x y

theorem TwinInside.decT32 (h : TwinInside s₀ u₀ s u) (size : Word) :
    OutcomesAlike (TwinInside s₀ u₀) (execDecT32 size s) (execDecT32 size u) := by
  refine Flow.Alike.outcome ((h.update (blind_latchHeader _ _ _) rfl).selectPath.andThen fun s1 u1 h1 => ?_)
  rw [show u1.hdrSize = s1.hdrSize by rw [h1.rest], (h1.inputs hw).imgW, (h1.inputs hw).imgH]
  exact h1.makeView.andThen fun _ _ h2 => h2.produce hw fun x y _ _ h => h.trueColour32Pixel hw x y

omit hw in
/-- A sample that answers alike is kept alike. -/
theorem TwinInside.returnSample (h : TwinInside s₀ u₀ s u) {m n : Flow Byte} (hm : n = m) (hr : ∀ t, m ≠ .raised t) :
    OutcomesAlike (TwinInside s₀ u₀) (returnSample m s) (returnSample n u) := by
  subst hm
  exact Flow.Alike.outcome (.andThen_same hr fun b => h.update (blind_keepSample b) rfl)

theorem TwinInside.subByte (h : TwinInside s₀ u₀ s u) (k : Slot) (d x y : Nat) (ch : Channel) :
    OutcomesAlike (TwinInside s₀ u₀) (Machine.returnSample (subByteSample (viewOf k s) d x y ch s) s)
      (Machine.returnSample (subByteSample (viewOf k u) d x y ch u) u) :=
  h.returnSample (by simp only [subByteSample, h.view, (h.inputs hw).readSrc]) fun _ => subByteSample_not_raised

theorem TwinInside.wholeByte (h : TwinInside s₀ u₀ s u) (k : Slot) (d x y : Nat) (ch : Channel) :
    OutcomesAlike (TwinInside s₀ u₀) (Machine.returnSample (wholeByteSample (viewOf k s) d x y ch s) s)
      (Machine.returnSample (wholeByteSample (viewOf k u) d x y ch u) u) :=
  h.returnSample (by simp only [wholeByteSample, h.view, (h.inputs hw).readSrc]) fun _ => wholeByteSample_not_raised

omit hw in
/-- A pixel body as a step: the next pixel after it. -/
theorem TwinInside.advance {body : Nat → Nat → State → Flow State}
    (hb : ∀ x y s u, TwinInside s₀ u₀ s u → Flow.Twins s₀ u₀ (body x y s) (body x y u))
    (h : TwinInside s₀ u₀ s u) (x y : Nat) :
    OutcomesAlike (TwinInside s₀ u₀) ((body x y s).andThen fun t => .ok (advancePixel x y t)).outcome
      ((body x y u).andThen fun t => .ok (advancePixel x y t)).outcome :=
  Flow.Alike.outcome ((hb x y s u h).andThen fun _ _ h => h.update (blind_advancePixel x y) (by simp))

/-- Every operation but the two host commands keeps the two runs together. -/
theorem TwinInside.exec (h : TwinInside s₀ u₀ s u) {i : Instr} (hs : i ≠ .start) (hc : i ≠ .clear) :
    OutcomesAlike (TwinInside s₀ u₀) (exec i s) (exec i u) := by
  cases i with
  | decP1 size clrused => exact (h.decodePalette hw 1 size clrused).outcome
  | decP2 size clrused => exact (h.decodePalette hw 2 size clrused).outcome
  | decP4 size clrused => exact (h.decodePalette hw 4 size clrused).outcome
  | decP8 size clrused => exact (h.decodePalette hw 8 size clrused).outcome
  | decT24 size => exact h.decT24 hw size
  | decT32 size => exact h.decT32 hw size
  | smp1 k x y ch => exact h.subByte hw k 1 x y ch
  | smp2 k x y ch => exact h.subByte hw k 2 x y ch
  | smp4 k x y ch => exact h.subByte hw k 4 x y ch
  | smpB8 k x y ch => exact h.wholeByte hw k 8 x y ch
  | smpB16 k x y ch => exact h.wholeByte hw k 16 x y ch
  | smpB24 k x y ch => exact h.wholeByte hw k 24 x y ch
  | smpB32 k x y ch => exact h.wholeByte hw k 32 x y ch
  | hdrFetch =>
    have hf := fetchHeader_alike (h.inputs hw) (fun a b c => h.update (blind_latchHeader a b c) rfl)
      fun n => h.update (blind_enterFault _ _ n) rfl
    exact Flow.Alike.outcome (hf.andThen fun _ _ h => h.update (blind_goto .sel) rfl)
  | select => exact Flow.Alike.outcome (h.selectPath.andThen fun _ _ h => h.update blind_afterSelect (by simp))
  | viewMake k o w ht d f =>
    exact Flow.Alike.outcome (h.makeView.andThen fun _ _ h => h.update (blind_afterView k) (by simp))
  | pixPal x y => exact h.advance (fun x y _ _ h => h.palettePixel hw x y) x y
  | pixT24 x y => exact h.advance (fun x y _ _ h => h.trueColour24Pixel hw x y) x y
  | pixT32 x y => exact h.advance (fun x y _ _ h => h.trueColour32Pixel hw x y) x y
  | start => exact absurd rfl hs
  | clear => exact absurd rfl hc

end Window

/-- The host commands read no memory at all. -/
theorem Twin.command (h : Twin s₀ u₀ s u) {i : Instr} (hi : i = .start ∨ i = .clear) :
    OutcomesAlike (Twin s₀ u₀) (exec i s) (exec i u) := by
  have hb : busy u = busy s := by rw [h.rest]; rfl
  rcases hi with rfl | rfl
  · simp only [Machine.exec, execStart, hb]
    split
    · exact h
    · exact h.update blind_latchOnStart
  · simp only [Machine.exec, execClear, hb]
    split
    · exact h
    · exact h.update blind_clearToIdle

theorem OutcomesAlike.imp {R Q : State → State → Prop} {o p : Host.Outcome State Fault Refusal}
    (h : OutcomesAlike R o p) (hq : ∀ s u, R s u → Q s u) : OutcomesAlike Q o p := by
  cases o <;> cases p <;> simp_all [OutcomesAlike]

/-- Two runs of any operation, from windows that hold the same bytes below LEN, end as twins. -/
theorem exec_twin (i : Instr) (h : TwinInside s u s u) (hw : ∀ a, a < len s → u.src.get a = s.src.get a) :
    OutcomesAlike (Twin s u) (exec i s) (exec i u) := by
  by_cases hi : i = .start ∨ i = .clear
  · exact h.toTwin.command hi
  · push Not at hi
    exact (h.exec hw hi.1 hi.2).imp fun _ _ h => h.toTwin

end Operations

/-! ### The three differences of R16 -/

theorem twin_refl (s : State) : TwinInside s s s s :=
  ⟨⟨rfl, rfl, rfl, rfl, rfl, fun _ => rfl, fun h _ => ⟨h, h, fun _ => .inl rfl⟩⟩, rfl⟩

theorem twin_of_src (m : Memory) (s : State) : TwinInside s { s with src := m } s { s with src := m } :=
  ⟨⟨rfl, rfl, rfl, rfl, rfl, fun _ => rfl, fun h _ => ⟨h, h, fun _ => .inl rfl⟩⟩, rfl⟩

theorem twin_of_grain (g : Grain) (s : State) : TwinInside s { s with grain := g } s { s with grain := g } :=
  ⟨⟨rfl, rfl, rfl, rfl, rfl, fun _ => rfl, fun h _ => ⟨h, h, fun _ => .inl rfl⟩⟩, rfl⟩

theorem twin_of_out (m : Memory) (s : State) : TwinInside s { s with out := m } s { s with out := m } :=
  ⟨⟨rfl, rfl, rfl, rfl, rfl, fun h => h, fun h h' => ⟨h, h', fun _ => .inr ⟨rfl, rfl⟩⟩⟩, rfl⟩

/-- No operation writes SRC, or touches the host's two fields or the grain. -/
theorem exec_keeps_outside {i : Instr} {s t : State} (h : exec i s = .next t) :
    t.src = s.src ∧ t.inbox = s.inbox ∧ t.hostData = s.hostData ∧ t.grain = s.grain := by
  obtain ⟨v, hv, htv⟩ := (exec_twin i (twin_refl s) fun _ _ => rfl).of_next h
  exact ⟨htv.src, htv.inbox, htv.hostData, htv.grain⟩

theorem OutcomesAlike.eq_onNext {R : State → State → Prop} {o p : Host.Outcome State Fault Refusal} {f : State → State}
    (h : OutcomesAlike R o p) (hf : ∀ t v, R t v → v = f t) : p = onNext f o := by
  cases o with
  | next t =>
    obtain ⟨v, rfl, hv⟩ := h.of_next rfl
    exact congrArg Host.Outcome.next (hf t v hv)
  | fault f => cases p <;> simp_all [OutcomesAlike, onNext]
  | refused r => cases p <;> simp_all [OutcomesAlike, onNext]

/-- Twins that started from one OUT differ in SRC and the grain only. -/
theorem Twin.eq {s₀ u₀ s u : State} (h : Twin s₀ u₀ s u) (ho : u₀.out = s₀.out) :
    u = { s with src := u₀.src, grain := u₀.grain } := by
  have hr := h.rest
  rw [h.outSame ho] at hr
  exact hr

/-- An operation does not look at SRC from LEN on. -/
theorem exec_with_src (i : Instr) (s : State) (m : Memory) (hm : ∀ a, a < len s → m.get a = s.src.get a) :
    exec i { s with src := m } = onNext (fun t => { t with src := m }) (exec i s) :=
  (exec_twin i (twin_of_src m s) hm).eq_onNext fun t v h => by
    rw [h.eq rfl, ← h.grain]

/-- The state in a grain (log 6). -/
def withGrain (g : Grain) (s : State) : State := { s with grain := g }

@[simp] theorem withGrain_imgW (g : Grain) (s : State) : imgW (withGrain g s) = imgW s := rfl
@[simp] theorem withGrain_imgH (g : Grain) (s : State) : imgH (withGrain g s) = imgH s := rfl

theorem withGrain_withGrain {g : Grain} (g' : Grain) {s : State} (hg : s.grain = g) :
    withGrain g (withGrain g' s) = s := by
  subst hg
  rfl

/-- An operation does not look at the grain. -/
theorem exec_withGrain (i : Instr) (g : Grain) (s : State) : exec i (withGrain g s) = onNext (withGrain g) (exec i s) :=
  (exec_twin i (twin_of_grain g s) fun _ _ => rfl).eq_onNext fun t v h => by
    rw [h.eq rfl, ← h.src]
    rfl

/-- Settles O41: a run beside itself for what is left alone, beside one with another SRC, and beside one with another
OUT. -/
theorem blockAccessDiscipline : Obligations.BlockAccessDiscipline := by
  intro i s
  refine ⟨fun t h => ?_, exec_with_src i s, fun m => ?_⟩
  · obtain ⟨hsrc, hinbox, hdata, -⟩ := exec_keeps_outside h
    exact ⟨hsrc, hinbox, hdata⟩
  · have h := exec_twin i (twin_of_out m s) fun _ _ => rfl
    revert h
    cases exec i s <;> cases exec i { s with out := m } <;> intro h
    case next.next t u =>
      refine ⟨?_, fun hs hm => (h.outBytes hs hm).2.2⟩
      have hr := h.rest
      rw [← h.src, ← h.grain] at hr
      exact hr
    all_goals exact h

end Sys2Proof.Machine

/-! SUPPORT. What a step decodes and runs (30_encoding.md R105 to R111, 43_composite.md R191), and where a sample's byte
is not in the window (00_scope.md R16). -/

namespace Sys2Proof.Machine

/-! ### What a step runs -/

/-- A header in the window that selects a mode is its `headerMode`, and no other is. -/
theorem headerMode_eq_some {s : State} {i : Instr} :
    headerMode s = some i ↔ 36 ≤ len s ∧ decode (.header (headerWindow s)) = .ok i := by
  unfold headerMode headerBytes
  by_cases hl : len s < 36
  · simp [hl]
  · cases decode (.header (headerWindow s)) <;> simp [hl, Nat.le_of_not_lt hl]

/-- The header selects the same mode on the same inputs. -/
theorem headerMode_congr {s u : State} (h : SameInputs s u) : headerMode u = headerMode s := by
  unfold headerMode
  rw [h.len]
  split
  · rfl
  next hl =>
    have hw : headerWindow u = headerWindow s := List.map_congr_left fun a ha => h.window a (by
      have := List.mem_range.mp ha
      omega)
    rw [hw]

theorem headerOperation_sequencer {s : State} (hg : s.grain = .sequencer) : headerOperation s = .hdrFetch := by
  simp [headerOperation, hg]

theorem headerOperation_mode {s : State} {i : Instr} (hg : s.grain = .operation) (hm : headerMode s = some i) :
    headerOperation s = i := by
  simp [headerOperation, hg, hm]

theorem headerOperation_no_mode {s : State} (hm : headerMode s = none) : headerOperation s = .hdrFetch := by
  cases hg : s.grain <;> simp [headerOperation, hg, hm]

/-- The depth field of a descriptor, as a byte, selects the mode of its depth (30_encoding.md R107). -/
theorem decode_viewDesc_ofNat {d : Nat} (hd : d < 256) (k : SampleCall) :
    decode (.viewDesc (BitVec.ofNat 8 d) k) = decodeSample d k := by
  simp only [decode, BitVec.toNat_ofNat, Nat.mod_eq_of_lt (show d < 2 ^ 8 from hd)]

/-- Settles O4, by the source of the operation: a CTRL write, a call of the row reader, a header, the sequencer. -/
theorem stepRunsDecodedOperation : Obligations.StepRunsDecodedOperation := by
  refine ⟨fun s w rest i hi hd => step_ctrl hi hd, fun s k i hi hc hdepth hd => ?_, fun s i hi hc hp hg hl hd => ?_,
    fun s i hi hc h => step_sequencer hi hc h⟩
  · rw [decode_viewDesc_ofNat hdepth] at hd
    exact step_call hi hc hd
  · have hm : headerMode s = some i := headerMode_eq_some.mpr ⟨hl, hd⟩
    exact step_sequencer hi hc ((sequencer_hdr hp).trans (congrArg some (headerOperation_mode hg hm)))

/-! ### The end of the window -/

theorem readSrc_outside {a : Nat} {s : State} (h : len s ≤ a) : readSrc a s = .fault .sourceAddressOutsideWindow :=
  if_neg (by omega)

section WindowEnd

variable {v : View} {d x y : Nat} {ch : Channel} {s : State}

/-- Inside its grid, a sub-byte sample of a byte outside the window stops the model. -/
theorem subByteSample_outside (hv : v.valid = true) (hx : x < v.width) (hy : y < v.height) (hc : ch ∈ fmtLetters v.fmt)
    (hd : v.depth = d) (hl : len s ≤ v.off + y * v.stride + x / (8 / d)) :
    returnSample (subByteSample v d x y ch s) s = .fault .sourceAddressOutsideWindow := by
  unfold subByteSample guarded
  rw [sampleGuard_none hv hd hx hy hc]
  simp only [subByteAddr, rowBase]
  rw [readSrc_outside hl]
  rfl

/-- Inside its grid, a whole-byte sample of a byte outside the window stops the model. -/
theorem wholeByteSample_outside (hv : v.valid = true) (hx : x < v.width) (hy : y < v.height)
    (hc : ch ∈ fmtLetters v.fmt) (hd : v.depth = d)
    (hl : len s ≤ v.off + y * v.stride + d / 8 * x + channelIdx v.fmt ch) :
    returnSample (wholeByteSample v d x y ch s) s = .fault .sourceAddressOutsideWindow := by
  unfold wholeByteSample guarded
  rw [sampleGuard_none hv hd hx hy hc]
  simp only [wholeByteAddr, rowBase, Nat.mul_comm x]
  rw [readSrc_outside hl]
  rfl

end WindowEnd

/-- Settles O22, mode by mode: the sub-byte modes read at `x / (8 / d)` of the row, the whole-byte modes at
`d / 8 * x` and the channel's position. -/
theorem sampleStopsAtWindowEnd : Obligations.SampleStopsAtWindowEnd := by
  intro s k x y ch hv hx hy hc row i d
  refine ⟨fun hd hl => ?_, fun hd hl => ?_, fun hd hl => ?_, fun hd hl => ?_, fun hd hl => ?_, fun hd hl => ?_,
    fun hd hl => ?_⟩
  · exact subByteSample_outside hv hx hy hc hd hl
  · exact subByteSample_outside hv hx hy hc hd hl
  · exact subByteSample_outside hv hx hy hc hd hl
  · exact wholeByteSample_outside hv hx hy hc hd (by rw [Nat.div_self (by omega), one_mul]; exact hl)
  · exact wholeByteSample_outside hv hx hy hc hd hl
  · exact wholeByteSample_outside hv hx hy hc hd hl
  · exact wholeByteSample_outside hv hx hy hc hd hl

end Sys2Proof.Machine

/-! SUPPORT. The sequencer's single steps against the big step of a decode mode (00_scope.md R15, 43_composite.md R190,
R191): each phase's step does the first part of what the mode still has to do, and goes on with the rest. -/

namespace Sys2Proof.Machine

/-! ### Runs that settle -/

theorem run_of_next {s t : State} (h : step s = .next t) (k : Nat) :
    Sys2Proof.core.run (k + 1) s = Sys2Proof.core.run k t := by
  have hs : Sys2Proof.core.step s = .next t := h
  simp only [Host.Core.run, hs]

theorem run_of_fault {s : State} {f : Fault} (h : step s = .fault f) (k : Nat) :
    Sys2Proof.core.run (k + 1) s = .fault f := by
  have hs : Sys2Proof.core.step s = .fault f := h
  simp only [Host.Core.run, hs]

theorem run_of_refused {s : State} {r : Refusal} (h : step s = .refused r) (k : Nat) :
    Sys2Proof.core.run (k + 1) s = .refused r := by
  have hs : Sys2Proof.core.step s = .refused r := h
  simp only [Host.Core.run, hs]

/-- After `n` steps and from then on, the run from `s` stands at the outcome `o`. -/
def Settles (n : Nat) (s : State) (o : Host.Outcome State Fault Refusal) : Prop :=
  ∀ k, n ≤ k → Sys2Proof.core.run k s = o

/-- Nothing is pending but what the sequencer invokes. -/
structure Alone (s : State) : Prop where
  inbox : s.inbox = []
  call : s.call = none

section Settles

variable {s : State} {n : Nat} {o : Host.Outcome State Fault Refusal}

theorem Settles.mono {m : Nat} (h : Settles n s o) (hm : n ≤ m) : Settles m s o := fun k hk => h k (hm.trans hk)

/-- A block that is left alone outside BUSY has settled. -/
theorem settles_ended (ha : Alone s) (hq : sequencer s = none) (n : Nat) : Settles n s (.next s) := by
  have hk (k : Nat) : Sys2Proof.core.run k s = .next s := by
    induction k with
    | zero => rfl
    | succ k ih => rw [run_of_next (step_waits ha.inbox ha.call hq), ih]
  exact fun k _ => hk k

theorem Settles.of_next {t : State} (hs : step s = .next t) (h : Settles n t o) : Settles (n + 1) s o := by
  intro k hk
  obtain ⟨k, rfl⟩ : ∃ j, k = j + 1 := ⟨k - 1, by omega⟩
  rw [run_of_next hs, h k (by omega)]

/-- The first part `m` of an operation, done as a step that then moves pc by `g`: where the rest `k` of the operation
is what the run settles at from there, the whole is what it settles at from here. -/
theorem settles_of_flow {m : Flow State} {g : State → State} {k : State → Flow State}
    (hs : step s = (m.andThen fun t => .ok (g t)).outcome) (hr : ∀ t, m = .raised t → Alone t ∧ t.phase = .fault)
    (hk : ∀ t, m = .ok t → Settles n (g t) (k t).outcome) : Settles (n + 1) s (m.andThen k).outcome := by
  cases m with
  | ok t => exact (hk t rfl).of_next hs
  | raised t =>
    obtain ⟨ha, hp⟩ := hr t rfl
    exact (settles_ended ha (sequencer_fault hp) n).of_next hs
  | fault f =>
    intro j hj
    obtain ⟨j, rfl⟩ : ∃ i, j = i + 1 := ⟨j - 1, by omega⟩
    exact run_of_fault hs j
  | refused r =>
    intro j hj
    obtain ⟨j, rfl⟩ : ∃ i, j = i + 1 := ⟨j - 1, by omega⟩
    exact run_of_refused hs j

end Settles

/-! ### What an operation's parts keep -/

theorem Alone.enterFault {s : State} (h : Alone s) (c : ErrCode) (v : Option Slot) (n : Nat) :
    Alone (enterFault c v n s) ∧ (enterFault c v n s).phase = .fault := ⟨⟨h.inbox, h.call⟩, rfl⟩

/-- SELECT's part answers with NCOLORS and the path written, or raises. -/
theorem selectPath_eq_ok {s t : State} (h : selectPath s = .ok t) : ∃ n p, t = setSelection n p s := by
  rcases selectPath_cases s with ⟨_, _, hs⟩ | ⟨_, _, hs⟩ | ⟨_, _, hs⟩ <;> rw [hs] at h <;> cases h
  · exact ⟨_, _, rfl⟩
  · exact ⟨_, _, rfl⟩

theorem selectPath_eq_raised {s t : State} (h : selectPath s = .raised t) :
    t = enterFault .unsupportedColorDepth none s.hdrBitcount.toNat s := by
  rcases selectPath_cases s with ⟨_, _, hs⟩ | ⟨_, _, hs⟩ | ⟨_, _, hs⟩ <;> rw [hs] at h <;> cases h
  rfl

theorem makeView_eq_ok {k : Slot} {o w h d : Nat} {f : Fmt} {s t : State} (e : makeView k o w h d f s = .ok t) :
    t = setView k (mkView o w h d f) s := by
  rcases makeView_cases k o w h d f s with ⟨_, hm⟩ | ⟨_, hm⟩ <;> rw [hm] at e <;> cases e
  rfl

theorem makeView_eq_raised {k : Slot} {o w h d : Nat} {f : Fmt} {s t : State} (e : makeView k o w h d f s = .raised t) :
    t = enterFault .truncatedData (some k) o s := by
  rcases makeView_cases k o w h d f s with ⟨_, hm⟩ | ⟨_, hm⟩ <;> rw [hm] at e <;> cases e
  rfl

theorem Flow.andThen_congr {α β : Type} {m : Flow α} {k l : α → Flow β} (h : ∀ a, m = .ok a → k a = l a) :
    m.andThen k = m.andThen l := by
  cases m with
  | ok a => exact h a rfl
  | _ => rfl

/-! ### The parts of an operation do not look at pc -/

theorem selectPath_goto (p : Phase) (s : State) :
    selectPath (goto p s) = (selectPath s).andThen fun t => .ok (goto p t) :=
  Flow.Alike.eq_map (f := goto p) (selectPath_alike rfl rfl (fun _ _ => rfl) fun _ => rfl)

theorem makeView_goto (p : Phase) (k : Slot) (o w h d : Nat) (f : Fmt) (s : State) :
    makeView k o w h d f (goto p s) = (makeView k o w h d f s).andThen fun t => .ok (goto p t) :=
  Flow.Alike.eq_map (f := goto p) (makeView_alike rfl (by cases k <;> rfl) rfl)

/-- The pixel body of a state's path and depth (43_composite.md R190). -/
def pixelBody (s : State) : Nat → Nat → State → Flow State :=
  if s.path = .palette then palettePixel
  else if s.hdrBitcount.toNat = 24 then trueColour24Pixel
  else trueColour32Pixel

theorem exec_pixelOperation (s t : State) :
    exec (pixelOperation s) t = ((pixelBody s s.x s.y t).andThen fun u => .ok (advancePixel s.x s.y u)).outcome := by
  unfold pixelOperation pixelBody
  split
  · rfl
  split <;> rfl

theorem pixelAlike_gotoPixel (x y j i : Nat) (s : State) :
    PixelAlike (fun t u => u = gotoPixel j i t) (fun t u => u = t) x y s (gotoPixel j i s) :=
  ⟨⟨rfl, rfl, rfl, fun _ _ => rfl⟩, fun _ _ _ _ _ _ => rfl, fun _ => rfl⟩

theorem pixelBody_gotoPixel (s : State) (x y j i : Nat) (t : State) :
    pixelBody s x y (gotoPixel j i t) = (pixelBody s x y t).andThen fun u => .ok (gotoPixel j i u) := by
  unfold pixelBody
  split
  · exact (palettePixel_alike (pixelAlike_gotoPixel x y j i t) rfl rfl rfl rfl).eq_map
  split
  · exact (trueColour24Pixel_alike (pixelAlike_gotoPixel x y j i t) rfl rfl).eq_map
  · exact (trueColour32Pixel_alike (pixelAlike_gotoPixel x y j i t) rfl).eq_map

/-- A pixel writes OUT and nothing else. -/
theorem pixelBody_eq_ok {s t u : State} {x y : Nat} (h : pixelBody s x y t = .ok u) : u = setOut u.out t := by
  have he : ∃ r g b a, emit x y r g b a t = .ok u := by
    unfold pixelBody at h
    split at h
    · exact palettePixel_eq_ok h
    split at h
    · exact trueColour24Pixel_eq_ok h
    · exact trueColour32Pixel_eq_ok h
  obtain ⟨r, g, b, a, he⟩ := he
  exact emit_frame he

theorem pixelBody_eq_raised {s t u : State} {x y : Nat} (h : pixelBody s x y t = .raised u) :
    ∃ n, u = enterFault .indexRange none n t := by
  unfold pixelBody at h
  split at h
  · obtain ⟨i, -, -, hu⟩ := palettePixel_eq_raised h
    exact ⟨_, hu⟩
  split at h
  · exact absurd h trueColour24Pixel_not_raised
  · exact absurd h trueColour32Pixel_not_raised

theorem afterSelect_goto (p : Phase) (s : State) : afterSelect (goto p s) = afterSelect s := rfl

theorem afterView_goto (p : Phase) (k : Slot) (s : State) : afterView k (goto p s) = afterView k s := by
  cases k <;> rfl

/-! ### What the operation still has to do, from each phase on -/

/-- From pixel (x, y) of a w by h picture on: the rest of its row, the rows after it, and the end. -/
def pixelsFrom (body : Nat → Nat → State → Flow State) (w h x y : Nat) (s : State) : Flow State :=
  ((rowLoop body y (w - x) x s).andThen fun t => imageLoop body w (h - (y + 1)) (y + 1) t).andThen fun t =>
    .ok (finish t)

section Loops

variable {body : Nat → Nat → State → Flow State} {w h x y : Nat}

theorem pixelsFrom_pixel (hx : x < w) (s : State) :
    pixelsFrom body w h x y s = (body x y s).andThen (pixelsFrom body w h (x + 1) y) := by
  unfold pixelsFrom
  rw [show w - x = w - (x + 1) + 1 by omega]
  simp only [rowLoop, Flow.andThen_assoc]

theorem pixelsFrom_row (hy : y + 1 < h) (s : State) : pixelsFrom body w h w y s = pixelsFrom body w h 0 (y + 1) s := by
  unfold pixelsFrom
  rw [show h - (y + 1) = h - (y + 1 + 1) + 1 by omega, Nat.sub_self, Nat.sub_zero]
  rfl

theorem pixelsFrom_end (hy : h ≤ y + 1) (s : State) : pixelsFrom body w h w y s = .ok (finish s) := by
  unfold pixelsFrom
  rw [show h - (y + 1) = 0 by omega, Nat.sub_self]
  rfl

theorem imageLoop_of_no_width (n y : Nat) (s : State) : imageLoop body 0 n y s = .ok s := by
  induction n generalizing y with
  | zero => rfl
  | succ n ih => exact ih (y + 1)

theorem produce_of_picture {s : State} (hs : imgW s * imgH s > 0) :
    produce body s = pixelsFrom body (imgW s) (imgH s) 0 0 s := by
  have hh : 0 < imgH s := Nat.pos_of_mul_pos_left hs
  unfold produce pixelsFrom
  rw [show imgH s = imgH s - (0 + 1) + 1 by omega]
  rfl

theorem produce_of_no_picture {s : State} (hs : imgW s * imgH s = 0) : produce body s = .ok (finish s) := by
  unfold produce
  rcases Nat.mul_eq_zero.mp hs with hw | hh
  · rw [hw, imageLoop_of_no_width]; rfl
  · rw [hh]; rfl

end Loops

/-- From the first pixel on. -/
def fromPixels (s : State) : Flow State := produce (pixelBody s) s

/-- From the mask view on. -/
def fromMask (s : State) : Flow State :=
  (makeView .msk (viewEnd s.vCol) (imgW s) (imgH s) 1 .a s).andThen fromPixels

/-- Where the colour view of the path starts (43_composite.md R192, R193). -/
def colourOff (s : State) : Nat := if s.path = .palette then viewEnd s.vPal else s.hdrSize.toNat

/-- The format of the colour view of the path. -/
def colourFmt (s : State) : Fmt := if s.path = .palette then .c else trueColourFmt s.hdrBitcount.toNat

theorem colourView_eq_viewMake (s : State) :
    colourView s = .viewMake .col (colourOff s) (imgW s) (imgH s) s.hdrBitcount.toNat (colourFmt s) := by
  unfold colourView colourOff colourFmt
  split <;> rfl

/-- From the colour view on. -/
def fromColour (s : State) : Flow State :=
  (makeView .col (colourOff s) (imgW s) (imgH s) s.hdrBitcount.toNat (colourFmt s) s).andThen fun t =>
    if t.path = .palette ∨ t.hdrBitcount.toNat = 24 then fromMask t else fromPixels t

/-- From the palette view on. -/
def fromPalette (s : State) : Flow State :=
  (makeView .pal s.hdrSize.toNat s.nColors.toNat 1 32 .bgra s).andThen fromColour

/-- From SELECT on. -/
def fromSelect (s : State) : Flow State :=
  (selectPath s).andThen fun t => if t.path = .palette then fromPalette t else fromColour t

/-! ### The sequencer does it, phase by phase -/

theorem step_gotoPixel {s : State} (ha : Alone s) (x y : Nat) :
    step (gotoPixel y x s) =
      ((pixelBody s x y s).andThen fun t => .ok (advancePixel x y (gotoPixel y x t))).outcome := by
  rw [step_sequencer (s := gotoPixel y x s) ha.inbox ha.call (sequencer_pix rfl), exec_pixelOperation]
  show ((pixelBody s x y (gotoPixel y x s)).andThen _).outcome = _
  rw [pixelBody_gotoPixel, Flow.andThen_assoc]
  rfl

/-- A run that is at pixel (x, y) settles at what the loops answer from that pixel on. -/
theorem pixelsFrom_settles (n x y : Nat) (s : State) (ha : Alone s) (hx : x < imgW s) (hy : y < imgH s)
    (hn : imgW s - x + imgW s * (imgH s - (y + 1)) ≤ n) :
    Settles n (gotoPixel y x s) (pixelsFrom (pixelBody s) (imgW s) (imgH s) x y s).outcome := by
  induction n generalizing x y s with
  | zero => omega
  | succ n ih =>
    rw [pixelsFrom_pixel hx]
    refine settles_of_flow (step_gotoPixel ha x y) (fun t h => ?_) fun t h => ?_
    · obtain ⟨i, rfl⟩ := pixelBody_eq_raised h
      exact ha.enterFault _ _ _
    rw [pixelBody_eq_ok h]
    generalize t.out = m
    have ht : Alone (setOut m s) := ⟨ha.inbox, ha.call⟩
    by_cases hx' : x + 1 < imgW s
    · rw [show advancePixel x y (gotoPixel y x (setOut m s)) = gotoPixel y (x + 1) (setOut m s) from if_pos hx']
      exact ih (x + 1) y (setOut m s) ht hx' hy (by simp only [setOut_imgW, setOut_imgH]; omega)
    rw [show x + 1 = imgW s by omega]
    by_cases hy' : y + 1 < imgH s
    · rw [show advancePixel x y (gotoPixel y x (setOut m s)) = gotoPixel (y + 1) 0 (setOut m s) from
        (if_neg hx').trans (if_pos hy'), pixelsFrom_row hy']
      refine ih 0 (y + 1) (setOut m s) ht (Nat.zero_lt_of_lt hx) hy' ?_
      have hrows : imgW s * (imgH s - (y + 1)) = imgW s * (imgH s - (y + 1 + 1)) + imgW s := by
        rw [show imgH s - (y + 1) = imgH s - (y + 1 + 1) + 1 by omega, Nat.mul_succ]
      simp only [setOut_imgW, setOut_imgH]
      omega
    · rw [show advancePixel x y (gotoPixel y x (setOut m s)) = finish (setOut m s) from
        (if_neg hx').trans (if_neg hy'), pixelsFrom_end (by omega)]
      exact settles_ended (s := finish (setOut m s)) ⟨ha.inbox, ha.call⟩ (sequencer_done rfl) n

section Phases

variable {s : State} {n : Nat}

theorem fromPixels_settles (ha : Alone s) (hn : imgW s * imgH s ≤ n) :
    Settles n (startPixels s) (fromPixels s).outcome := by
  unfold fromPixels
  by_cases hs : imgW s * imgH s > 0
  · rw [produce_of_picture hs, show startPixels s = gotoPixel 0 0 s from if_pos hs]
    have hh : 0 < imgH s := Nat.pos_of_mul_pos_left hs
    refine pixelsFrom_settles n 0 0 s ha (Nat.pos_of_mul_pos_right hs) hh ?_
    obtain ⟨k, hk⟩ : ∃ k, imgH s = k + 1 := ⟨imgH s - 1, by omega⟩
    rw [hk, Nat.mul_succ] at hn
    rw [hk, Nat.sub_zero, Nat.zero_add, Nat.add_sub_cancel]
    omega
  · rw [produce_of_no_picture (by omega), show startPixels s = finish s from if_neg hs]
    exact settles_ended (s := finish s) ⟨ha.inbox, ha.call⟩ (sequencer_done rfl) _

/-- The phase of a VIEW.MAKE settles at the view and then at what the run settles at after it. -/
theorem makeView_settles {p : Phase} {k : Slot} {o w h d : Nat} {f : Fmt} {rest : State → Flow State}
    (ha : Alone s) (hq : sequencer (goto p s) = some (.viewMake k o w h d f))
    (hk : Settles n (afterView k (setView k (mkView o w h d f) s)) (rest (setView k (mkView o w h d f) s)).outcome) :
    Settles (n + 1) (goto p s) ((makeView k o w h d f s).andThen rest).outcome := by
  have hs : step (goto p s) = ((makeView k o w h d f s).andThen fun t => .ok (afterView k (goto p t))).outcome := by
    rw [step_sequencer (s := goto p s) ha.inbox ha.call hq]
    simp only [exec, execViewMake, makeView_goto, Flow.andThen_assoc, Flow.ok_andThen]
  refine settles_of_flow hs (fun t h => ?_) fun t h => ?_
  · rw [makeView_eq_raised h]
    exact ha.enterFault _ _ _
  · rw [makeView_eq_ok h, afterView_goto]
    exact hk

theorem Alone.setView (h : Alone s) (k : Slot) (v : View) : Alone (setView k v s) :=
  ⟨(setView_inbox k v s).trans h.inbox, (setView_call k v s).trans h.call⟩

theorem fromMask_settles (ha : Alone s) (hn : imgW s * imgH s ≤ n) :
    Settles (n + 1) (goto .vmsk s) (fromMask s).outcome := by
  refine makeView_settles ha (sequencer_vmsk rfl) ?_
  exact fromPixels_settles (ha.setView _ _) (by simpa using hn)

theorem fromColour_settles (ha : Alone s) (hn : imgW s * imgH s ≤ n) :
    Settles (n + 2) (goto .vcol s) (fromColour s).outcome := by
  refine makeView_settles ha ((sequencer_vcol rfl).trans (congrArg some (colourView_eq_viewMake (goto .vcol s)))) ?_
  have ht := ha.setView .col (mkView (colourOff s) (imgW s) (imgH s) s.hdrBitcount.toNat (colourFmt s))
  simp only [afterView]
  split
  · exact fromMask_settles ht (by simpa using hn)
  · exact fromPixels_settles ht (by simpa using Nat.le_succ_of_le hn)

theorem fromPalette_settles (ha : Alone s) (hn : imgW s * imgH s ≤ n) :
    Settles (n + 3) (goto .vpal s) (fromPalette s).outcome := by
  refine makeView_settles ha (sequencer_vpal rfl) ?_
  exact fromColour_settles (ha.setView _ _) (by simpa using hn)

theorem fromSelect_settles (ha : Alone s) (hn : imgW s * imgH s ≤ n) :
    Settles (n + 4) (goto .sel s) (fromSelect s).outcome := by
  have hs : step (goto .sel s) = ((selectPath s).andThen fun t => .ok (afterSelect (goto .sel t))).outcome := by
    rw [step_sequencer (s := goto .sel s) ha.inbox ha.call (sequencer_sel rfl)]
    simp only [exec, execSelect, selectPath_goto, Flow.andThen_assoc, Flow.ok_andThen]
  refine settles_of_flow hs (fun t h => ?_) fun t h => ?_
  · rw [selectPath_eq_raised h]
    exact ha.enterFault _ _ _
  · obtain ⟨c, p, rfl⟩ := selectPath_eq_ok h
    have ht : Alone (setSelection c p s) := ⟨ha.inbox, ha.call⟩
    rw [afterSelect_goto]
    unfold afterSelect
    split
    · exact fromPalette_settles ht (by simpa using hn)
    · exact (fromColour_settles ht (by simpa using hn)).mono (Nat.le_succ _)

/-- The header fields as HDR.FETCH latches them (42_select.md R170). -/
def latchFields (s : State) : State :=
  latchHeader (headerField (headerWindow s) 0 4) (headerField (headerWindow s) 14 2)
    (headerField (headerWindow s) 32 4) s

theorem fetchHeader_eq_latchFields (hl : 36 ≤ len s) : fetchHeader s = .ok (latchFields s) := by
  rw [fetchHeader_ok hl]
  rfl

/-- From P_HDR, the single steps settle at what SELECT and all after it answer on the latched header. -/
theorem hdr_settles (ha : Alone s) (hp : s.phase = .hdr) (hg : s.grain = .sequencer) (hl : 36 ≤ len s)
    (hn : imgW s * imgH s ≤ n) : Settles (n + 5) s (fromSelect (latchFields s)).outcome := by
  have hs : step s = .next (goto .sel (latchFields s)) := by
    rw [step_sequencer ha.inbox ha.call (sequencer_hdr hp), headerOperation_sequencer hg]
    simp only [exec, execHdrFetch, fetchHeader_eq_latchFields hl, Flow.ok_andThen, Flow.outcome_ok]
  exact (fromSelect_settles (s := latchFields s) ⟨ha.inbox, ha.call⟩ (by simpa [latchFields] using hn)).of_next hs

end Phases

/-! ### The six decode modes are what the phases have to do -/

theorem selectPath_palette {s : State} (hn : paletteCount s.hdrBitcount.toNat s.hdrClrused.toNat ≠ 0)
    (hd : paletteDepth s.hdrBitcount.toNat = true) :
    selectPath s = .ok (setSelection (paletteCount s.hdrBitcount.toNat s.hdrClrused.toNat) .palette s) := by
  rcases selectPath_cases s with ⟨_, _, hs⟩ | ⟨h0, _, _⟩ | ⟨hr, _, _⟩
  · exact hs
  · exact absurd h0 hn
  · exact absurd hd (by simp [hr hn])

theorem selectPath_trueColour {s : State} (hn : paletteCount s.hdrBitcount.toNat s.hdrClrused.toNat = 0)
    (hd : trueColourDepth s.hdrBitcount.toNat = true) :
    selectPath s = .ok (setSelection (paletteCount s.hdrBitcount.toNat s.hdrClrused.toNat) .trueColour s) := by
  rcases selectPath_cases s with ⟨h0, _, _⟩ | ⟨_, _, hs⟩ | ⟨_, hr, _⟩
  · exact absurd hn h0
  · exact hs
  · exact absurd hd (by simp [hr hn])

/-- A depth of at most 8 always has a palette (42_select.md R171). -/
theorem paletteCount_ne_zero {d : Nat} (hd : d ≤ 8) (c : Nat) : paletteCount d c ≠ 0 := by
  unfold paletteCount
  split
  · exact (Nat.two_pow_pos d).ne'
  · omega

section Modes

variable {s : State}

/-- The palette path from the colour view on (43_composite.md R192). -/
theorem fromColour_palette (hp : s.path = .palette) :
    fromColour s = (makeView .col (viewEnd s.vPal) (imgW s) (imgH s) s.hdrBitcount.toNat .c s).andThen fun t =>
      (makeView .msk (viewEnd t.vCol) (imgW t) (imgH t) 1 .a t).andThen (produce palettePixel) := by
  simp only [fromColour, colourOff, colourFmt, hp, if_true]
  refine Flow.andThen_congr fun t ht => ?_
  have htp : t.path = .palette := by rw [makeView_eq_ok ht, setView_path, hp]
  rw [if_pos (.inl htp)]
  refine Flow.andThen_congr fun u hu => ?_
  have hup : u.path = .palette := by rw [makeView_eq_ok hu, setView_path, htp]
  simp only [fromPixels, pixelBody, hup, if_true]

/-- Depth 24 from the colour view on (43_composite.md R193). -/
theorem fromColour_depth24 (hp : s.path = .trueColour) (hb : s.hdrBitcount.toNat = 24) :
    fromColour s = (makeView .col s.hdrSize.toNat (imgW s) (imgH s) 24 .bgr s).andThen fun t =>
      (makeView .msk (viewEnd t.vCol) (imgW t) (imgH t) 1 .a t).andThen (produce trueColour24Pixel) := by
  simp only [fromColour, colourOff, colourFmt, hp, hb, reduceCtorEq, if_false]
  refine Flow.andThen_congr fun t ht => ?_
  have htp : t.path = .trueColour := by rw [makeView_eq_ok ht, setView_path, hp]
  have htb : t.hdrBitcount.toNat = 24 := by rw [makeView_eq_ok ht, setView_hdrBitcount, hb]
  rw [if_pos (.inr htb)]
  refine Flow.andThen_congr fun u hu => ?_
  have hup : u.path = .trueColour := by rw [makeView_eq_ok hu, setView_path, htp]
  have hub : u.hdrBitcount.toNat = 24 := by rw [makeView_eq_ok hu, setView_hdrBitcount, htb]
  simp only [fromPixels, pixelBody, hup, hub, reduceCtorEq, if_false, if_true]

/-- Depth 32 from the colour view on (43_composite.md R193). -/
theorem fromColour_depth32 (hp : s.path = .trueColour) (hb : s.hdrBitcount.toNat = 32) :
    fromColour s =
      (makeView .col s.hdrSize.toNat (imgW s) (imgH s) 32 .bgra s).andThen (produce trueColour32Pixel) := by
  simp only [fromColour, colourOff, colourFmt, hp, hb, reduceCtorEq, if_false]
  refine Flow.andThen_congr fun t ht => ?_
  have htp : t.path = .trueColour := by rw [makeView_eq_ok ht, setView_path, hp]
  have htb : t.hdrBitcount.toNat = 32 := by rw [makeView_eq_ok ht, setView_hdrBitcount, hb]
  simp [fromPixels, pixelBody, htp, htb]

theorem decodePalette_eq_fromSelect {d : Nat} (hd : paletteDepth d = true) (size clrused : Word) (s : State) :
    decodePalette d size clrused s = fromSelect (latchHeader size.toNat d clrused.toNat s) := by
  have hd8 : d ≤ 8 := by simp [paletteDepth] at hd; omega
  have hb : (latchHeader size.toNat d clrused.toNat s).hdrBitcount.toNat = d := by
    simp only [latchHeader_hdrBitcount, BitVec.toNat_ofNat]
    omega
  have hs := selectPath_palette (s := latchHeader size.toNat d clrused.toNat s)
    (by rw [hb]; exact paletteCount_ne_zero hd8 _) (by rw [hb]; exact hd)
  unfold decodePalette fromSelect
  rw [hs, Flow.ok_andThen, Flow.ok_andThen, if_pos (setSelection_path _ _ _)]
  refine Flow.andThen_congr fun t ht => ?_
  have htp : t.path = .palette := by rw [makeView_eq_ok ht, setView_path, setSelection_path]
  have htb : t.hdrBitcount.toNat = d := by rw [makeView_eq_ok ht, setView_hdrBitcount, setSelection_hdrBitcount, hb]
  rw [fromColour_palette htp, htb]

theorem execDecT24_eq_fromSelect (size : Word) (s : State) :
    execDecT24 size s = (fromSelect (latchHeader size.toNat 24 0 s)).outcome := by
  have hs := selectPath_trueColour (s := latchHeader size.toNat 24 0 s) rfl rfl
  unfold execDecT24 fromSelect
  rw [hs, Flow.ok_andThen, Flow.ok_andThen, setSelection_path, if_neg (by simp), fromColour_depth24 rfl rfl]

theorem execDecT32_eq_fromSelect (size : Word) (s : State) :
    execDecT32 size s = (fromSelect (latchHeader size.toNat 32 0 s)).outcome := by
  have hs := selectPath_trueColour (s := latchHeader size.toNat 32 0 s) rfl rfl
  unfold execDecT32 fromSelect
  rw [hs, Flow.ok_andThen, Flow.ok_andThen, setSelection_path, if_neg (by simp), fromColour_depth32 rfl rfl]

theorem latchHeader_ofNat (a b c : Nat) (s : State) :
    latchHeader (BitVec.ofNat 32 a).toNat b (BitVec.ofNat 32 c).toNat s = latchHeader a b c s := by
  simp only [latchHeader, BitVec.ofNat_toNat, BitVec.setWidth_eq]

/-- NCOLORS is 0 at a true-colour depth only where colorsUsed is (42_select.md R171). -/
theorem eq_zero_of_paletteCount {b c : Nat} (h : paletteCount b c = 0) : c = 0 := by
  unfold paletteCount at h
  split at h
  next hc => exact hc.1
  · exact h

/-- The mode that the header selects is SELECT and all after it on the header's three fields (43_composite.md R190). -/
theorem exec_headerMode {i : Instr} (hm : headerMode s = some i) : exec i s = (fromSelect (latchFields s)).outcome := by
  obtain ⟨-, hd⟩ := headerMode_eq_some.mp hm
  unfold latchFields
  have hlen : ¬(headerWindow s).length < headerBytes := by simp [headerWindow]
  simp only [decode, decodeHeader, if_neg hlen] at hd
  generalize headerField (headerWindow s) 0 4 = size at hd ⊢
  generalize headerField (headerWindow s) 14 2 = bitcount at hd ⊢
  generalize headerField (headerWindow s) 32 4 = clrused at hd ⊢
  have hpal (d : Nat) (h : paletteDepth d = true) :
      (decodePalette d (BitVec.ofNat 32 size) (BitVec.ofNat 32 clrused) s).outcome =
        (fromSelect (latchHeader size d clrused s)).outcome := by
    rw [decodePalette_eq_fromSelect h, latchHeader_ofNat]
  have hlatch (d : Nat) : latchHeader (BitVec.ofNat 32 size).toNat d 0 s = latchHeader size d 0 s :=
    latchHeader_ofNat size d 0 s
  by_cases hn : paletteCount bitcount clrused = 0
  · obtain rfl := eq_zero_of_paletteCount hn
    rw [if_pos hn] at hd
    split at hd
    next hb => cases hd; rw [hb, ← hlatch]; exact execDecT24_eq_fromSelect _ s
    split at hd
    next hb => cases hd; rw [hb, ← hlatch]; exact execDecT32_eq_fromSelect _ s
    cases hd
  · rw [if_neg hn] at hd
    split at hd
    next hb => cases hd; rw [hb]; exact hpal 1 rfl
    split at hd
    next hb => cases hd; rw [hb]; exact hpal 2 rfl
    split at hd
    next hb => cases hd; rw [hb]; exact hpal 4 rfl
    split at hd
    next hb => cases hd; rw [hb]; exact hpal 8 rfl
    cases hd

end Modes

/-- In as many steps as the bound of R271, the single steps end as the header's decode mode does. -/
theorem run_eq_exec_headerMode {s : State} {i : Instr} (ha : Alone s) (hp : s.phase = .hdr) (hg : s.grain = .sequencer)
    (hm : headerMode s = some i) : Sys2Proof.core.run (5 + imgW s * imgH s) s = exec i s := by
  obtain ⟨hl, -⟩ := headerMode_eq_some.mp hm
  rw [exec_headerMode hm]
  exact hdr_settles ha hp hg hl le_rfl _ (by omega)

/-- The same of a block in either grain, seen from the single steps. -/
theorem run_withGrain_eq {s : State} {i : Instr} (ha : Alone s) (hp : s.phase = .hdr) (hm : headerMode s = some i) :
    Sys2Proof.core.run (5 + imgW s * imgH s) (withGrain .sequencer s) = onNext (withGrain .sequencer) (exec i s) := by
  have hm' : headerMode (withGrain .sequencer s) = some i :=
    (headerMode_congr ⟨rfl, rfl, rfl, fun _ _ => rfl⟩).trans hm
  have hr := run_eq_exec_headerMode (s := withGrain .sequencer s) ⟨ha.inbox, ha.call⟩ hp rfl hm'
  rwa [withGrain_imgW, withGrain_imgH, exec_withGrain] at hr

/-- Settles O36: the big step, taken in the grain of the single steps, is where they settle. -/
theorem sequencerRefinesDecodeMode : Obligations.SequencerRefinesDecodeMode := by
  intro s i t hi hc hp hm he
  have hr := run_withGrain_eq ⟨hi, hc⟩ hp hm
  rw [he] at hr
  exact ⟨5 + imgW s * imgH s, le_rfl, hr⟩

end Sys2Proof.Machine

/-! SUPPORT. Two blocks with any past that are given the same inputs and a START (00_scope.md R3): what they have in
common in each phase, and that every step keeps it. -/

namespace Sys2Proof.Machine

/-! ### What two such blocks have in common -/

/-- In every phase: all but what only earlier operations wrote, and SRC below LEN. The grain and the size of the
picture are `g`, `w` and `h`. -/
structure Beside (g : Grain) (w h : Word) (s u : State) : Prop where
  rest : u = { s with
    hdrSize := u.hdrSize, hdrBitcount := u.hdrBitcount, hdrClrused := u.hdrClrused, nColors := u.nColors
    vPal := u.vPal, vCol := u.vCol, vMsk := u.vMsk, src := u.src, out := u.out
    hostData := u.hostData, sampled := u.sampled, draws := u.draws }
  window : ∀ a, a < len s → u.src.get a = s.src.get a
  alone : Alone s
  grain : s.grain = g
  lW : s.lW = w
  lH : s.lH = h
  wf : s.out.wf
  wf' : u.out.wf

/-- The header latches agree. -/
structure SameHeader (s u : State) : Prop where
  size : u.hdrSize = s.hdrSize
  bitcount : u.hdrBitcount = s.hdrBitcount
  clrused : u.hdrClrused = s.hdrClrused

/-- All that the pixel bodies read besides SRC and the picture's size agrees. -/
structure SamePlanes (s u : State) : Prop where
  header : SameHeader s u
  nColors : u.nColors = s.nColors
  vPal : s.path = .palette → u.vPal = s.vPal
  vCol : u.vCol = s.vCol
  vMsk : hasMask s → u.vMsk = s.vMsk

/-- How many bytes of OUT the running operation has written, in the order of addresses (43_composite.md R206). -/
def written (s : State) : Nat :=
  match s.phase with
  | .pix => outAddr (imgW s) s.x s.y
  | .done => outSize s
  | _ => 0

/-- Two blocks on the same inputs: in each phase they agree on all that the operation has written by then. -/
structure SideBySide (g : Grain) (w h : Word) (s u : State) : Prop extends Beside g w h s u where
  header : s.phase = .sel ∨ selected s.phase → SameHeader s u
  nColors : selected s.phase → u.nColors = s.nColors
  vPal : s.phase = .vcol ∨ s.phase = .vmsk → s.path = .palette → u.vPal = s.vPal
  vCol : s.phase = .vmsk → u.vCol = s.vCol
  planes : s.phase = .pix → SamePlanes s u
  out : ∀ a, a < written s → u.out.get a = s.out.get a

section Beside

variable {g : Grain} {w h : Word} {s u : State}

theorem Beside.inputs (hb : Beside g w h s u) : SameInputs s u :=
  ⟨by rw [hb.rest], by rw [hb.rest], by rw [hb.rest], hb.window⟩

theorem Beside.alone' (hb : Beside g w h s u) : Alone u := by
  rw [hb.rest]
  exact ⟨hb.alone.inbox, hb.alone.call⟩

theorem Beside.path (hb : Beside g w h s u) : u.path = s.path := by rw [hb.rest]
theorem Beside.phase (hb : Beside g w h s u) : u.phase = s.phase := by rw [hb.rest]

theorem Beside.goto (hb : Beside g w h s u) (p : Phase) : Beside g w h (goto p s) (goto p u) :=
  ⟨congrArg (Machine.goto p) hb.rest, hb.window, ⟨hb.alone.inbox, hb.alone.call⟩, hb.grain, hb.lW, hb.lH, hb.wf, hb.wf'⟩

theorem Beside.gotoPixel (hb : Beside g w h s u) (y x : Nat) : Beside g w h (gotoPixel y x s) (gotoPixel y x u) :=
  ⟨congrArg (Machine.gotoPixel y x) hb.rest, hb.window, ⟨hb.alone.inbox, hb.alone.call⟩, hb.grain, hb.lW, hb.lH,
    hb.wf, hb.wf'⟩

theorem Beside.enterFault (hb : Beside g w h s u) (c : ErrCode) (v : Option Slot) (n : Nat) :
    Beside g w h (enterFault c v n s) (enterFault c v n u) :=
  ⟨congrArg (Machine.enterFault c v n) hb.rest, hb.window, ⟨hb.alone.inbox, hb.alone.call⟩, hb.grain, hb.lW, hb.lH,
    hb.wf, hb.wf'⟩

theorem Beside.latchHeader (hb : Beside g w h s u) (a b c : Nat) :
    Beside g w h (latchHeader a b c s) (latchHeader a b c u) :=
  ⟨congrArg (Machine.latchHeader a b c) hb.rest, hb.window, ⟨hb.alone.inbox, hb.alone.call⟩, hb.grain, hb.lW, hb.lH,
    hb.wf, hb.wf'⟩

theorem Beside.setSelection (hb : Beside g w h s u) (n : Nat) (p : Path) :
    Beside g w h (setSelection n p s) (setSelection n p u) :=
  ⟨congrArg (Machine.setSelection n p) hb.rest, hb.window, ⟨hb.alone.inbox, hb.alone.call⟩, hb.grain, hb.lW, hb.lH,
    hb.wf, hb.wf'⟩

theorem Beside.setView (hb : Beside g w h s u) (k : Slot) (v : View) :
    Beside g w h (setView k v s) (setView k v u) := by
  cases k <;>
    exact ⟨congrArg (Machine.setView _ v) hb.rest, hb.window, ⟨hb.alone.inbox, hb.alone.call⟩, hb.grain, hb.lW, hb.lH,
      hb.wf, hb.wf'⟩

theorem Beside.putByte (hb : Beside g w h s u) (a : Nat) (b : Byte) : Beside g w h (putByte a b s) (putByte a b u) :=
  ⟨congrArg (Machine.setOut (u.out.set a b)) hb.rest, hb.window, ⟨hb.alone.inbox, hb.alone.call⟩, hb.grain, hb.lW,
    hb.lH, Memory.wf_set hb.wf a b, Memory.wf_set hb.wf' a b⟩

theorem Beside.withPixel (hb : Beside g w h s u) (x y : Nat) (r gr b a : Byte) :
    Beside g w h (withPixel x y r gr b a s) (withPixel x y r gr b a u) := by
  unfold Machine.withPixel
  rw [hb.inputs.imgW]
  exact (((hb.putByte _ r).putByte _ gr).putByte _ b).putByte _ a

end Beside

theorem withPixel_get {s : State} (hw : s.out.wf) (x y : Nat) (r g b a : Byte) (c : Nat) :
    (withPixel x y r g b a s).out.get c =
      let o := outAddr (imgW s) x y
      if c = o + 3 then a else if c = o + 2 then b else if c = o + 1 then g else if c = o then r else s.out.get c := by
  rw [withPixel_eq_setOut]
  exact get_emit hw _ r g b a c

/-! ### Each phase's step keeps it -/

section Phases

variable {g : Grain} {w h : Word} {s u : State}

/-- Where nothing of the operation is known in common: P_IDLE, P_HDR, P_FAULT. -/
theorem sideBySide_of_unselected (hb : Beside g w h s u) (hp : s.phase = .idle ∨ s.phase = .hdr ∨ s.phase = .fault) :
    SideBySide g w h s u := by
  refine ⟨hb, ?_, ?_, ?_, ?_, ?_, ?_⟩ <;> rcases hp with hp | hp | hp <;> simp [hp, selected, written]

theorem Beside.fault (hb : Beside g w h s u) (c : ErrCode) (v : Option Slot) (n : Nat) :
    SideBySide g w h (Machine.enterFault c v n s) (Machine.enterFault c v n u) :=
  sideBySide_of_unselected (hb.enterFault c v n) (.inr (.inr rfl))

theorem sideBySide_sel (hb : Beside g w h s u) (hh : SameHeader s u) :
    SideBySide g w h (goto .sel s) (goto .sel u) := by
  refine ⟨hb.goto .sel, fun _ => ⟨hh.size, hh.bitcount, hh.clrused⟩, ?_, ?_, ?_, ?_, ?_⟩ <;> simp [selected, written]

theorem sideBySide_vpal (hb : Beside g w h s u) (hh : SameHeader s u) (hn : u.nColors = s.nColors) :
    SideBySide g w h (goto .vpal s) (goto .vpal u) := by
  refine ⟨hb.goto .vpal, fun _ => ⟨hh.size, hh.bitcount, hh.clrused⟩, fun _ => hn, ?_, ?_, ?_, ?_⟩ <;> simp [written]

theorem sideBySide_vcol (hb : Beside g w h s u) (hh : SameHeader s u) (hn : u.nColors = s.nColors)
    (hp : s.path = .palette → u.vPal = s.vPal) : SideBySide g w h (goto .vcol s) (goto .vcol u) := by
  refine ⟨hb.goto .vcol, fun _ => ⟨hh.size, hh.bitcount, hh.clrused⟩, fun _ => hn, fun _ => hp, ?_, ?_, ?_⟩ <;>
    simp [written]

theorem sideBySide_vmsk (hb : Beside g w h s u) (hh : SameHeader s u) (hn : u.nColors = s.nColors)
    (hp : s.path = .palette → u.vPal = s.vPal) (hc : u.vCol = s.vCol) :
    SideBySide g w h (goto .vmsk s) (goto .vmsk u) := by
  refine ⟨hb.goto .vmsk, fun _ => ⟨hh.size, hh.bitcount, hh.clrused⟩, fun _ => hn, fun _ => hp, fun _ => hc, ?_, ?_⟩ <;>
    simp [written]

theorem sideBySide_pix (hb : Beside g w h s u) (hp : SamePlanes s u) {x y : Nat}
    (ho : ∀ a, a < outAddr (imgW s) x y → u.out.get a = s.out.get a) :
    SideBySide g w h (gotoPixel y x s) (gotoPixel y x u) := by
  have hpl : SamePlanes (gotoPixel y x s) (gotoPixel y x u) := ⟨⟨hp.header.size, hp.header.bitcount, hp.header.clrused⟩,
    hp.nColors, hp.vPal, hp.vCol, hp.vMsk⟩
  exact ⟨hb.gotoPixel y x, fun _ => hpl.header, fun _ => hpl.nColors, fun _ => hpl.vPal, fun _ => hpl.vCol,
    fun _ => hpl, ho⟩

theorem sideBySide_done (hb : Beside g w h s u) (hp : SamePlanes s u)
    (ho : ∀ a, a < outSize s → u.out.get a = s.out.get a) : SideBySide g w h (finish s) (finish u) := by
  have hpl : SamePlanes (finish s) (finish u) := ⟨⟨hp.header.size, hp.header.bitcount, hp.header.clrused⟩,
    hp.nColors, hp.vPal, hp.vCol, hp.vMsk⟩
  exact ⟨hb.goto .done, fun _ => hpl.header, fun _ => hpl.nColors, fun _ => hpl.vPal, fun _ => hpl.vCol,
    fun _ => hpl, ho⟩

theorem sideBySide_startPixels (hb : Beside g w h s u) (hp : SamePlanes s u) :
    SideBySide g w h (startPixels s) (startPixels u) := by
  unfold startPixels
  rw [hb.inputs.imgW, hb.inputs.imgH]
  split
  next => exact sideBySide_pix hb hp (by simp [outAddr])
  next hs => exact sideBySide_done hb hp (by simp [outSize]; omega)

/-- After pixel (x, y), with all bytes up to its end in common. -/
theorem sideBySide_advancePixel (hb : Beside g w h s u) (hp : SamePlanes s u) {x y : Nat} (hx : x < imgW s)
    (hy : y < imgH s) (ho : ∀ a, a < outAddr (imgW s) x y + 4 → u.out.get a = s.out.get a) :
    SideBySide g w h (advancePixel x y s) (advancePixel x y u) := by
  unfold advancePixel
  rw [hb.inputs.imgW, hb.inputs.imgH]
  split
  next => exact sideBySide_pix hb hp fun a ha => ho a (by unfold outAddr at *; omega)
  next hx' =>
    have hrow : y * imgW s + x + 1 = (y + 1) * imgW s := by rw [Nat.succ_mul]; omega
    split
    next => exact sideBySide_pix hb hp fun a ha => ho a (by unfold outAddr at *; omega)
    next hy' =>
      have hh : imgW s * imgH s = (y + 1) * imgW s := by rw [Nat.mul_comm, show imgH s = y + 1 by omega]
      exact sideBySide_done hb hp fun a ha => ho a (by unfold outAddr outSize at *; omega)

/-- A step that does a part of the operation and then moves pc. -/
theorem outcomesAlike_of_flow {R : State → State → Prop} {m n : Flow State} {f : State → State}
    (hm : Flow.Alike (fun t v => R (f t) (f v)) R m n) :
    OutcomesAlike R (m.andThen fun t => .ok (f t)).outcome (n.andThen fun t => .ok (f t)).outcome :=
  Flow.Alike.outcome (hm.andThen fun _ _ h => h)

theorem SideBySide.hdrFetch (hs : SideBySide g w h s u) :
    OutcomesAlike (SideBySide g w h) (exec .hdrFetch s) (exec .hdrFetch u) :=
  outcomesAlike_of_flow (fetchHeader_alike hs.inputs
    (fun a b c => sideBySide_sel (hs.latchHeader a b c) ⟨rfl, rfl, rfl⟩) fun n => hs.fault _ _ n)

theorem SideBySide.select (hs : SideBySide g w h s u) (hp : s.phase = .sel) :
    OutcomesAlike (SideBySide g w h) (exec .select s) (exec .select u) := by
  have hh := hs.header (.inl hp)
  refine outcomesAlike_of_flow (selectPath_alike hh.bitcount hh.clrused (fun n p => ?_) fun n => hs.fault _ _ n)
  have hb := hs.setSelection n p
  have hh' : SameHeader (setSelection n p s) (setSelection n p u) := ⟨hh.size, hh.bitcount, hh.clrused⟩
  unfold afterSelect
  rw [hb.path]
  split
  · exact sideBySide_vpal hb hh' rfl
  next hpal => exact sideBySide_vcol hb hh' rfl fun h => absurd h hpal

theorem SideBySide.paletteView (hs : SideBySide g w h s u) (hp : s.phase = .vpal) (o c : Nat) :
    OutcomesAlike (SideBySide g w h) (exec (.viewMake .pal o c 1 32 .bgra) s)
      (exec (.viewMake .pal o c 1 32 .bgra) u) := by
  have hsel : selected s.phase = true := by rw [hp]; rfl
  have hh := hs.header (.inr hsel)
  exact outcomesAlike_of_flow (makeView_alike hs.inputs.lLen (sideBySide_vcol (hs.setView .pal _)
    ⟨hh.size, hh.bitcount, hh.clrused⟩ (hs.nColors hsel) fun _ => rfl) (hs.fault _ _ o))

theorem SideBySide.colourView (hs : SideBySide g w h s u) (hp : s.phase = .vcol) (o wd ht d : Nat) (f : Fmt) :
    OutcomesAlike (SideBySide g w h) (exec (.viewMake .col o wd ht d f) s) (exec (.viewMake .col o wd ht d f) u) := by
  have hsel : selected s.phase = true := by rw [hp]; rfl
  have hh := hs.header (.inr hsel)
  have hn := hs.nColors hsel
  have hpal := hs.vPal (.inl hp)
  refine outcomesAlike_of_flow (makeView_alike hs.inputs.lLen ?_ (hs.fault _ _ o))
  have hb := hs.setView .col (mkView o wd ht d f)
  have hh' : SameHeader (setView .col (mkView o wd ht d f) s) (setView .col (mkView o wd ht d f) u) :=
    ⟨hh.size, hh.bitcount, hh.clrused⟩
  simp only [afterView, hb.path, hh'.bitcount]
  split
  · exact sideBySide_vmsk hb hh' hn hpal rfl
  next hm => exact sideBySide_startPixels hb ⟨hh', hn, hpal, rfl, fun h => absurd h hm⟩

theorem SideBySide.maskView (hs : SideBySide g w h s u) (hp : s.phase = .vmsk) (o wd ht : Nat) :
    OutcomesAlike (SideBySide g w h) (exec (.viewMake .msk o wd ht 1 .a) s) (exec (.viewMake .msk o wd ht 1 .a) u) := by
  have hsel : selected s.phase = true := by rw [hp]; rfl
  have hh := hs.header (.inr hsel)
  exact outcomesAlike_of_flow (makeView_alike hs.inputs.lLen (sideBySide_startPixels (hs.setView .msk _)
    ⟨⟨hh.size, hh.bitcount, hh.clrused⟩, hs.nColors hsel, hs.vPal (.inr hp), hs.vCol hp, fun _ => rfl⟩)
    (hs.fault _ _ o))

/-- In P_PIX the two runs write the same four bytes, or take the same fault. -/
theorem SideBySide.pixelAlike (hs : SideBySide g w h s u) (hp : s.phase = .pix) :
    PixelAlike (fun t v => SideBySide g w h (advancePixel s.x s.y t) (advancePixel s.x s.y v)) (SideBySide g w h)
      s.x s.y s u := by
  have hpl := hs.planes hp
  refine ⟨hs.inputs, fun hx hy r gr b a => ?_, fun n => hs.fault _ _ n⟩
  have hb := hs.withPixel s.x s.y r gr b a
  have hout : ∀ c, c < outAddr (imgW s) s.x s.y + 4 →
      (withPixel s.x s.y r gr b a u).out.get c = (withPixel s.x s.y r gr b a s).out.get c := by
    intro c hc
    have hold (h : c < outAddr (imgW s) s.x s.y) : u.out.get c = s.out.get c :=
      hs.out c (by simpa only [written, hp] using h)
    rw [withPixel_get hs.wf, withPixel_get hs.wf', hs.inputs.imgW]
    dsimp only
    split_ifs with h3 h2 h1 h0
    · rfl
    · rfl
    · rfl
    · rfl
    · exact hold (by omega)
  rw [withPixel_eq_setOut, withPixel_eq_setOut] at hb hout ⊢
  exact sideBySide_advancePixel hb
    ⟨⟨hpl.header.size, hpl.header.bitcount, hpl.header.clrused⟩, hpl.nColors, hpl.vPal, hpl.vCol, hpl.vMsk⟩ hx hy hout

theorem SideBySide.pixel (hs : SideBySide g w h s u) (hp : s.phase = .pix) :
    OutcomesAlike (SideBySide g w h) (exec (pixelOperation s) s) (exec (pixelOperation s) u) := by
  have hpl := hs.planes hp
  rw [exec_pixelOperation, exec_pixelOperation]
  refine outcomesAlike_of_flow ?_
  unfold pixelBody
  split
  next hpal =>
    exact palettePixel_alike (hs.pixelAlike hp) hpl.nColors (hpl.vPal hpal) hpl.vCol (hpl.vMsk (.inl hpal))
  split
  next hb => exact trueColour24Pixel_alike (hs.pixelAlike hp) hpl.vCol (hpl.vMsk (.inr hb))
  next => exact trueColour32Pixel_alike (hs.pixelAlike hp) hpl.vCol

theorem colourView_congr (hb : Beside g w h s u) (hh : SameHeader s u) (hp : s.path = .palette → u.vPal = s.vPal) :
    colourView u = colourView s := by
  unfold colourView
  rw [hb.path, hh.size, hh.bitcount, hb.inputs.imgW, hb.inputs.imgH]
  split
  next hpal => rw [hp hpal]
  · rfl

theorem pixelOperation_congr (hb : Beside g w h s u) (hh : SameHeader s u) : pixelOperation u = pixelOperation s := by
  have hx : u.x = s.x := by rw [hb.rest]
  have hy : u.y = s.y := by rw [hb.rest]
  unfold pixelOperation
  rw [hb.path, hh.bitcount, hx, hy]

/-- The two blocks invoke the same operation, where P_HDR means HDR.FETCH. -/
theorem SideBySide.step_fetch (hs : SideBySide g w h s u) (hf : s.phase = .hdr → headerOperation s = .hdrFetch)
    (hf' : s.phase = .hdr → headerOperation u = .hdrFetch) : OutcomesAlike (SideBySide g w h) (step s) (step u) := by
  have run {i : Instr} (hi : sequencer s = some i) (hi' : sequencer u = some i)
      (he : OutcomesAlike (SideBySide g w h) (exec i s) (exec i u)) :
      OutcomesAlike (SideBySide g w h) (step s) (step u) := by
    rw [step_sequencer hs.alone.inbox hs.alone.call hi, step_sequencer hs.alone'.inbox hs.alone'.call hi']
    exact he
  have stay (hq : sequencer s = none) (hq' : sequencer u = none) :
      OutcomesAlike (SideBySide g w h) (step s) (step u) := by
    rw [step_waits hs.alone.inbox hs.alone.call hq, step_waits hs.alone'.inbox hs.alone'.call hq']
    exact hs
  have hu := hs.phase
  cases hp : s.phase <;> rw [hp] at hu
  case idle => exact stay (sequencer_idle hp) (sequencer_idle hu)
  case done => exact stay (sequencer_done hp) (sequencer_done hu)
  case fault => exact stay (sequencer_fault hp) (sequencer_fault hu)
  case hdr =>
    exact run ((sequencer_hdr hp).trans (congrArg some (hf hp))) ((sequencer_hdr hu).trans (congrArg some (hf' hp)))
      hs.hdrFetch
  case sel => exact run (sequencer_sel hp) (sequencer_sel hu) (hs.select hp)
  all_goals have hsel : selected s.phase = true := by rw [hp]; rfl
  all_goals have hh := hs.header (.inr hsel)
  case vpal =>
    refine run (sequencer_vpal hp) ?_ (hs.paletteView hp _ _)
    rw [sequencer_vpal hu, hh.size, hs.nColors hsel]
  case vcol =>
    have hc := colourView_eq_viewMake s
    refine run ((sequencer_vcol hp).trans (congrArg some hc)) ?_ (hs.colourView hp _ _ _ _ _)
    rw [sequencer_vcol hu, ← hc, colourView_congr hs.toBeside hh (hs.vPal (.inl hp))]
  case vmsk =>
    refine run (sequencer_vmsk hp) ?_ (hs.maskView hp _ _ _)
    rw [sequencer_vmsk hu, hs.vCol hp, hs.inputs.imgW, hs.inputs.imgH]
  case pix =>
    refine run (sequencer_pix hp) ?_ (hs.pixel hp)
    rw [sequencer_pix hu, pixelOperation_congr hs.toBeside hh]

theorem OutcomesAlike.of_fault {R : State → State → Prop} {o p : Host.Outcome State Fault Refusal} {f : Fault}
    (ho : OutcomesAlike R o p) (hf : o = .fault f) : p = .fault f := by
  subst hf
  cases p <;> simp_all [OutcomesAlike]

theorem OutcomesAlike.of_refused {R : State → State → Prop} {o p : Host.Outcome State Fault Refusal} {r : Refusal}
    (ho : OutcomesAlike R o p) (hr : o = .refused r) : p = .refused r := by
  subst hr
  cases p <;> simp_all [OutcomesAlike]

/-- Runs whose every step keeps a relation keep it. -/
theorem run_alike {R : State → State → Prop} (hR : ∀ s u, R s u → OutcomesAlike R (step s) (step u)) (k : Nat)
    (hs : R s u) : OutcomesAlike R (Sys2Proof.core.run k s) (Sys2Proof.core.run k u) := by
  induction k generalizing s u with
  | zero => exact hs
  | succ k ih =>
    have h := hR s u hs
    cases ht : step s with
    | next t =>
      obtain ⟨v, hv, hr⟩ := h.of_next ht
      rw [run_of_next ht, run_of_next hv]
      exact ih hr
    | fault f =>
      rw [run_of_fault ht, run_of_fault (h.of_fault ht)]
      exact (rfl : f = f)
    | refused r =>
      rw [run_of_refused ht, run_of_refused (h.of_refused ht)]
      exact (rfl : r = r)

/-- In the grain of the single steps, P_HDR is HDR.FETCH. -/
theorem SideBySide.step_sequencer (hs : SideBySide .sequencer w h s u) :
    OutcomesAlike (SideBySide .sequencer w h) (step s) (step u) :=
  hs.step_fetch (fun _ => headerOperation_sequencer hs.grain)
    fun _ => headerOperation_sequencer (by rw [hs.rest]; exact hs.grain)

theorem SideBySide.withGrain (hs : SideBySide g w h s u) (g' : Grain) :
    SideBySide g' w h (withGrain g' s) (withGrain g' u) := by
  have hb : Beside g' w h (Machine.withGrain g' s) (Machine.withGrain g' u) :=
    ⟨congrArg (Machine.withGrain g') hs.rest, hs.window, ⟨hs.alone.inbox, hs.alone.call⟩, rfl, hs.lW, hs.lH, hs.wf,
      hs.wf'⟩
  refine ⟨hb, fun hp => ?_, ?_, ?_, ?_, fun hp => ?_, ?_⟩
  · have hh := hs.header hp
    exact ⟨hh.size, hh.bitcount, hh.clrused⟩
  · exact hs.nColors
  · exact hs.vPal
  · exact hs.vCol
  · have hpl := hs.planes hp
    exact ⟨⟨hpl.header.size, hpl.header.bitcount, hpl.header.clrused⟩, hpl.nColors, hpl.vPal, hpl.vCol, hpl.vMsk⟩
  · exact hs.out

/-- The big step of a decode mode is where the single steps end, so it keeps the two blocks side by side too. -/
theorem SideBySide.headerMode (hs : SideBySide g w h s u) (hp : s.phase = .hdr) {i : Instr}
    (hm : headerMode s = some i) : OutcomesAlike (SideBySide g w h) (exec i s) (exec i u) := by
  have hm' : Machine.headerMode u = some i := (headerMode_congr hs.inputs).trans hm
  have hrun := run_alike (fun _ _ h => h.step_sequencer) (5 + imgW s * imgH s) (hs.withGrain .sequencer)
  have hrs := run_withGrain_eq hs.alone hp hm
  have hru := run_withGrain_eq hs.alone' (hs.phase.trans hp) hm'
  rw [hs.inputs.imgW, hs.inputs.imgH] at hru
  rw [hrs, hru] at hrun
  have hgs {t : State} (ht : exec i s = .next t) : t.grain = g := (exec_keeps_outside ht).2.2.2.trans hs.grain
  have hgu {v : State} (hv : exec i u = .next v) : v.grain = g :=
    (exec_keeps_outside hv).2.2.2.trans (by rw [hs.rest]; exact hs.grain)
  revert hrun hgs hgu
  cases exec i s <;> cases exec i u <;> intro hrun hgs hgu
  case next.next t v =>
    have h := hrun.withGrain g
    rw [withGrain_withGrain .sequencer (hgs rfl), withGrain_withGrain .sequencer (hgu rfl)] at h
    exact h
  all_goals exact hrun

theorem SideBySide.step (hs : SideBySide g w h s u) : OutcomesAlike (SideBySide g w h) (step s) (step u) := by
  have hm' := headerMode_congr hs.inputs
  have hgu : u.grain = s.grain := by rw [hs.rest]
  by_cases hbig : s.phase = .hdr ∧ s.grain = .operation ∧ ∃ i, Machine.headerMode s = some i
  · obtain ⟨hp, hg, i, hm⟩ := hbig
    rw [Machine.step_sequencer hs.alone.inbox hs.alone.call (sequencer_hdr hp), headerOperation_mode hg hm,
      Machine.step_sequencer hs.alone'.inbox hs.alone'.call (sequencer_hdr (hs.phase.trans hp)),
      headerOperation_mode (hgu.trans hg) (hm'.trans hm)]
    exact hs.headerMode hp hm
  · have hfetch (hp : s.phase = .hdr) : headerOperation s = .hdrFetch ∧ headerOperation u = .hdrFetch := by
      cases hg : s.grain with
      | sequencer => exact ⟨headerOperation_sequencer hg, headerOperation_sequencer (hgu.trans hg)⟩
      | operation =>
        have hm : Machine.headerMode s = none :=
          Option.eq_none_iff_forall_ne_some.mpr fun i hi => hbig ⟨hp, hg, i, hi⟩
        exact ⟨headerOperation_no_mode hm, headerOperation_no_mode (hm'.trans hm)⟩
    exact hs.step_fetch (fun hp => (hfetch hp).1) fun hp => (hfetch hp).2

end Phases

/-! ### From the START on -/

/-- The state right after a START that the block took from its inbox (44_host_commands.md R220). -/
def started (s : State) : State := goto .hdr (clearStatus (invalidateViews (latchOperands (setInbox [] s))))

theorem step_start {s : State} (hb : busy s = false) (hi : s.inbox = [.writeReg 0 1]) : step s = .next (started s) := by
  have hb' : busy (setInbox [] s) = false := hb
  rw [step_ctrl hi (i := .start) rfl]
  simp only [exec, execStart, hb', Bool.false_eq_true, if_false]
  rfl

theorem sideBySide_started {s u : State} (hs : s.call = none) (hu : u.call = none) (hg : s.grain = u.grain)
    (ws : s.out.wf) (wu : u.out.wf) (hl : s.srcLen = u.srcLen) (hw : s.cfgW = u.cfgW) (hh : s.cfgH = u.cfgH)
    (hsrc : ∀ a, a < s.srcLen.toNat → s.src.get a = u.src.get a) :
    SideBySide s.grain s.cfgW s.cfgH (started s) (started u) := by
  refine sideBySide_of_unselected ⟨?_, ?_, ⟨rfl, hs⟩, rfl, rfl, rfl, ws, wu⟩ (.inr (.inl rfl))
  · simp [started, goto, clearStatus, invalidateViews, latchOperands, setInbox, hs, hu, hg, hl, hw, hh]
  · intro a ha
    exact (hsrc a ha).symm

/-- Settles O43: the first step is the START, after which the two blocks run side by side. -/
theorem resultDependsOnInputsOnly : Obligations.ResultDependsOnInputsOnly := by
  intro s u hbs hbu his hiu hcs hcu hg ws wu hl hw hh hsrc k t hk hrun
  obtain ⟨k, rfl⟩ : ∃ j, k = j + 1 := ⟨k - 1, by omega⟩
  rw [run_of_next (step_start hbs his)] at hrun
  rw [run_of_next (step_start hbu hiu)]
  have h := run_alike (fun _ _ h => h.step) k (sideBySide_started hcs hcu hg ws wu hl hw hh hsrc)
  obtain ⟨v, hv, htv⟩ := h.of_next hrun
  refine ⟨v, hv, htv.phase, by rw [htv.rest], by rw [htv.rest], by rw [htv.rest], fun hd => ?_⟩
  have hsel : selected t.phase = true := by rw [hd]; rfl
  have hhd := htv.header (.inr hsel)
  refine ⟨htv.path, hhd.size, hhd.bitcount, hhd.clrused, htv.nColors hsel, fun a ha => htv.out a ?_⟩
  simp only [written, hd, outSize, imgW, imgH, htv.lW, htv.lH]
  exact ha

end Sys2Proof.Machine

/-! SUPPORT. What moves in a step, and that whatever moves keeps the invariant: the sequencer's single steps by phase
(43_composite.md R191), a whole decode mode through the same phases (R190), the host's commands and accesses, and the
reset input. -/

namespace Sys2Proof.Machine

/-! ### What a step can be -/

/-- What moves in a step from `s` to `t` that leaves the accesses `rest` pending (log 5): nothing, a call of the row
reader, the operation the sequencer invokes, a command of the host, or another access of the host. -/
inductive Moves (s : State) (rest : List HostAccess) (t : State) : Prop
  | nothing (ht : t = setInbox rest s)
  | sample (k : SampleCall) (i : Instr) (hd : decodeSample (viewOf k.slot s).depth k = .ok i)
      (he : exec i (takeCall (setInbox rest s)) = .next t)
  | block (i : Instr) (hq : sequencer (setInbox rest s) = some i) (he : exec i (setInbox rest s) = .next t)
  | command (w : Word) (i : Instr) (hi : s.inbox = .writeReg 0 w :: rest) (hd : decode (.ctrl w) = .ok i)
      (he : exec i (setInbox rest s) = .next t)
  | host (a : HostAccess) (hi : s.inbox = a :: rest) (he : hostAccess a (setInbox rest s) = .next t)

theorem fetchBlock_moves {s t : State} {rest : List HostAccess}
    (h : runFetched (fetchBlock (setInbox rest s)) = .next t) : Moves s rest t := by
  unfold fetchBlock at h
  cases hc : (setInbox rest s).call with
  | some k =>
    simp only [hc, viewOf_setInbox] at h
    cases hd : decodeSample (viewOf k.slot s).depth k with
    | ok i => rw [hd] at h; exact .sample k i hd h
    | error e => rw [hd] at h; cases h
  | none =>
    simp only [hc] at h
    cases hq : sequencer (setInbox rest s) with
    | some i => rw [hq] at h; exact .block i hq h
    | none => rw [hq] at h; cases h; exact .nothing rfl

/-- Every step is one of these moves. -/
theorem step_moves {s t : State} (h : step s = .next t) : ∃ rest, Moves s rest t := by
  cases hi : s.inbox with
  | nil =>
    have hs : setInbox [] s = s := by rw [← hi]; rfl
    refine ⟨[], fetchBlock_moves ?_⟩
    rw [hs, ← h, step, fetch, hi]
  | cons a rest =>
    refine ⟨rest, ?_⟩
    by_cases hy : a = .yield
    · subst hy
      exact fetchBlock_moves (by rw [← step_yield hi, h])
    by_cases hc : ∃ w, a = .writeReg 0 w
    · obtain ⟨w, rfl⟩ := hc
      cases hd : decode (.ctrl w) with
      | ok i => exact .command w i hi hd (by rw [← step_ctrl hi hd, h])
      | error e => rw [step_ctrl_none hi hd] at h; cases h; exact .nothing rfl
    · exact .host a hi (by rw [← step_host hi hy fun w hw => hc ⟨w, hw⟩, h])

theorem returnSample_next {m : Flow Byte} {s t : State} (hm : ∀ u, m ≠ .raised u) (h : returnSample m s = .next t) :
    ∃ b, t = keepSample b s := by
  cases m with
  | ok b => cases h; exact ⟨b, rfl⟩
  | raised u => exact absurd rfl (hm u)
  | fault f => cases h
  | refused r => cases h

/-- A call of the row reader keeps the sample, and changes nothing else (41_sample.md R150). -/
theorem exec_decodeSample_next {d : Nat} {k : SampleCall} {i : Instr} {s t : State} (hd : decodeSample d k = .ok i)
    (h : exec i s = .next t) : ∃ b, t = keepSample b s := by
  unfold decodeSample at hd
  split at hd
  · cases hd; exact returnSample_next (fun _ => subByteSample_not_raised) h
  split at hd
  · cases hd; exact returnSample_next (fun _ => subByteSample_not_raised) h
  split at hd
  · cases hd; exact returnSample_next (fun _ => subByteSample_not_raised) h
  split at hd
  · cases hd; exact returnSample_next (fun _ => wholeByteSample_not_raised) h
  split at hd
  · cases hd; exact returnSample_next (fun _ => wholeByteSample_not_raised) h
  split at hd
  · cases hd; exact returnSample_next (fun _ => wholeByteSample_not_raised) h
  split at hd
  · cases hd; exact returnSample_next (fun _ => wholeByteSample_not_raised) h
  · cases hd

/-- A CTRL word issues START where its bit 0 is set, and CLEAR or nothing else where it is not
(44_host_commands.md R222). -/
theorem decode_ctrl_eq_ok {w : Word} {i : Instr} (h : decode (.ctrl w) = .ok i) :
    (i = .start ∧ w.getLsbD 0 = true) ∨ i = .clear := by
  simp only [decode, decodeCtrl] at h
  split at h
  next hw => cases h; exact .inl ⟨rfl, hw⟩
  split at h
  · cases h; exact .inr rfl
  · cases h

/-! ### What the host's accesses leave unchanged -/

/-- A read of a register changes the answer and the count of draws. -/
theorem readReg_frame (n : BitVec 4) (s : State) :
    readReg n s = { s with hostData := (readReg n s).hostData, draws := (readReg n s).draws } := by
  unfold readReg answerStatus answerReadBack
  repeat' split
  all_goals rfl

/-- A write of a register other than CTRL changes the operand registers at most. -/
theorem writeOperand_frame (n : BitVec 4) (v : Word) (s : State) :
    writeOperand n v s = { s with
      srcLen := (writeOperand n v s).srcLen, cfgW := (writeOperand n v s).cfgW, cfgH := (writeOperand n v s).cfgH } := by
  unfold writeOperand
  split <;> rfl

theorem writeSrc_next {a : Word} {b : Byte} {s t : State} (h : writeSrc a b s = .next t) :
    t = { s with src := s.src.set a.toNat b } := by
  unfold writeSrc at h
  split at h
  · cases h
  split at h
  · cases h
  · cases h; rfl

/-- A read of OUT changes the answer and the count of draws. -/
theorem readOut_next {a : Nat} {s t : State} (h : readOut a s = .next t) :
    t = { s with hostData := t.hostData, draws := t.draws } := by
  unfold readOut at h
  split at h
  · split at h
    · cases h; rfl
    · cases h
  · cases h; rfl

/-! ### The single steps keep the invariant -/

section Invariant

variable {s t : State}

theorem inv_setInbox (h : BlockInv s) (rest : List HostAccess) : BlockInv (setInbox rest s) := inv_frame h rfl

/-- Every access of the host that issues no command keeps the invariant. -/
theorem inv_hostAccess (h : BlockInv s) {a : HostAccess} (he : hostAccess a s = .next t) : BlockInv t := by
  cases a with
  | writeReg n v => cases he; rw [writeOperand_frame]; exact inv_frame h rfl
  | readReg n => cases he; rw [readReg_frame]; exact inv_frame h rfl
  | writeSrc a b =>
    rw [writeSrc_next he]
    exact ⟨⟨Memory.wf_set h.memory.1 _ _, h.memory.2⟩, h.status, h.header, h.views, h.pc⟩
  | readOut a => rw [readOut_next he]; exact inv_frame h rfl
  | reset => cases he; exact inv_resetEvent h
  | yield => cases he; exact h

/-! ### A whole decode mode keeps the invariant, phase by phase -/

/-- Wherever this part of an operation answers, the invariant holds. -/
def EndsInv (m : Flow State) : Prop := ∀ t, m.outcome = .next t → BlockInv t

/-- The first part `m` of an operation, as a step that then moves pc by `g`, keeps the invariant; where the rest `k`
keeps it from there, the whole does. -/
theorem EndsInv.andThen {m : Flow State} {g : State → State} {k : State → Flow State}
    (hm : EndsInv (m.andThen fun u => .ok (g u))) (hk : ∀ u, m = .ok u → BlockInv (g u) → EndsInv (k u)) :
    EndsInv (m.andThen k) := by
  cases m with
  | ok u => exact hk u rfl (hm (g u) rfl)
  | raised u => exact hm
  | fault f => exact hm
  | refused r => exact hm

/-- VIEW.MAKE as a step of any phase does not look at pc. -/
theorem exec_viewMake_goto (p : Phase) (k : Slot) (o w h d : Nat) (f : Fmt) (s : State) :
    exec (.viewMake k o w h d f) (goto p s) =
      ((makeView k o w h d f s).andThen fun t => .ok (afterView k t)).outcome := by
  simp only [exec, execViewMake, makeView_goto, Flow.andThen_assoc, Flow.ok_andThen, afterView_goto]

theorem exec_select_goto (p : Phase) (s : State) :
    exec .select (goto p s) = ((selectPath s).andThen fun t => .ok (afterSelect t)).outcome := by
  simp only [exec, execSelect, selectPath_goto, Flow.andThen_assoc, Flow.ok_andThen, afterSelect_goto]

/-- The pixel bodies write OUT in canonical form. -/
theorem pixelBody_wf {u : State} {x y : Nat} (hw : t.out.wf) (h : pixelBody s x y t = .ok u) : u.out.wf := by
  have he : ∃ r g b a, emit x y r g b a t = .ok u := by
    unfold pixelBody at h
    split at h
    · exact palettePixel_eq_ok h
    split at h
    · exact trueColour24Pixel_eq_ok h
    · exact trueColour32Pixel_eq_ok h
  obtain ⟨r, g, b, a, he⟩ := he
  exact emit_wf hw he

/-- What the pixels before it leave a pixel with: another OUT, in canonical form. -/
def OtherOut (s u : State) : Prop := ∃ m : Memory, m.wf ∧ u = setOut m s

theorem OtherOut.pixelBody {u v : State} {x y : Nat} (h : OtherOut s u) (he : pixelBody s x y u = .ok v) :
    OtherOut s v := by
  obtain ⟨m, hm, rfl⟩ := h
  refine ⟨v.out, pixelBody_wf (t := setOut m s) hm he, ?_⟩
  exact (pixelBody_eq_ok he).trans (setOut_setOut _ _ _)

theorem OtherOut.inv {u : State} (h : OtherOut s u) (hs : BlockInv (gotoPixel 0 0 s)) :
    BlockInv (gotoPixel 0 0 u) := by
  obtain ⟨m, hm, rfl⟩ := h
  exact ⟨⟨hs.memory.1, hm⟩, hs.status, hs.header, hs.views, hs.pc⟩

/-- After the last pixel the operation has ended well (43_composite.md R209). -/
theorem inv_finish (h : BlockInv (gotoPixel 0 0 s)) : BlockInv (finish s) := by
  obtain ⟨hy, hx⟩ := h.pc.1 rfl
  simp only [gotoPixel_y, gotoPixel_x, gotoPixel_imgH, gotoPixel_imgW] at hy hx
  have hend : advancePixel (imgW s - 1) (imgH s - 1) (gotoPixel 0 0 s) = finish s :=
    (if_neg (by rw [gotoPixel_imgW]; omega)).trans (if_neg (by rw [gotoPixel_imgH]; omega))
  rw [← hend]
  exact inv_advance h rfl (by rw [gotoPixel_imgH]; omega)

theorem inv_fromPixels (h : BlockInv (startPixels s)) : EndsInv (fromPixels s) := by
  intro t he
  unfold fromPixels at he
  by_cases hs : imgW s * imgH s > 0
  · rw [show startPixels s = gotoPixel 0 0 s from if_pos hs] at h
    have hkeep : ∀ x y u v, OtherOut s u → pixelBody s x y u = .ok v → OtherOut s v := fun _ _ _ _ hu hv =>
      hu.pixelBody hv
    have h0 : OtherOut s s := ⟨s.out, h.memory.2, rfl⟩
    rcases Flow.outcome_eq_next.mp he with he | he
    · obtain ⟨u, hu, he⟩ := Flow.andThen_eq_ok.mp he
      cases he
      exact inv_finish ((imageLoop_keeps hkeep _ 0 s u h0 hu).inv h)
    · rcases Flow.andThen_eq_raised.mp he with he | ⟨u, -, he⟩
      · obtain ⟨x, y, u, hu, -, -, hr⟩ := imageLoop_raised hkeep _ 0 s t h0 he
        obtain ⟨n, rfl⟩ := pixelBody_eq_raised hr
        exact inv_enterFault (c := .indexRange) (w := none) (n := n) (hu.inv h) (by simp) (by simp)
      · cases he
  · rw [show startPixels s = finish s from if_neg hs] at h
    rw [produce_of_no_picture (by omega)] at he
    cases he
    exact h

theorem inv_fromMask (h : BlockInv (goto .vmsk s)) : EndsInv (fromMask s) := by
  refine EndsInv.andThen (g := afterView .msk) (fun t he => inv_vmsk h rfl ?_) fun u _ hu => inv_fromPixels hu
  exact (exec_viewMake_goto ..).trans he

theorem inv_fromColour (h : BlockInv (goto .vcol s)) : EndsInv (fromColour s) := by
  refine EndsInv.andThen (g := afterView .col) (fun t he => inv_vcol h rfl ?_) fun u _ hu => ?_
  · rw [colourView_eq_viewMake]
    exact (exec_viewMake_goto ..).trans he
  · simp only [afterView] at hu
    split at hu
    next hm => rw [if_pos hm]; exact inv_fromMask hu
    next hm => rw [if_neg hm]; exact inv_fromPixels hu

theorem inv_fromPalette (h : BlockInv (goto .vpal s)) : EndsInv (fromPalette s) := by
  refine EndsInv.andThen (g := afterView .pal) (fun t he => inv_vpal h rfl ?_) fun u _ hu => inv_fromColour hu
  exact (exec_viewMake_goto ..).trans he

theorem inv_fromSelect (h : BlockInv (goto .sel s)) : EndsInv (fromSelect s) := by
  refine EndsInv.andThen (g := afterSelect) (fun t he => inv_select h rfl ?_) fun u _ hu => ?_
  · exact (exec_select_goto ..).trans he
  · unfold afterSelect at hu
    split at hu
    next hp => rw [if_pos hp]; exact inv_fromPalette hu
    next hp => rw [if_neg hp]; exact inv_fromColour hu

/-- A decode mode goes through the phases that the sequencer takes, so it keeps the invariant as they do. -/
theorem inv_headerMode (h : BlockInv s) (hp : s.phase = .hdr) {i : Instr} (hm : headerMode s = some i)
    (he : exec i s = .next t) : BlockInv t := by
  obtain ⟨hl, -⟩ := headerMode_eq_some.mp hm
  have hsel : BlockInv (goto .sel (latchFields s)) := inv_hdrFetch h hp (by
    simp only [exec, execHdrFetch, fetchHeader_eq_latchFields hl, Flow.ok_andThen, Flow.outcome_ok])
  exact inv_fromSelect hsel t (by rw [← exec_headerMode hm, he])

/-- P_HDR runs HDR.FETCH or the mode that the header selects. -/
theorem headerOperation_cases (s : State) : headerOperation s = .hdrFetch ∨ headerMode s = some (headerOperation s) := by
  cases hg : s.grain with
  | sequencer => exact .inl (headerOperation_sequencer hg)
  | operation =>
    cases hm : headerMode s with
    | none => exact .inl (headerOperation_no_mode hm)
    | some i => rw [headerOperation_mode hg hm]; exact .inr rfl

/-- Whatever the sequencer invokes keeps the invariant, in either grain. -/
theorem inv_sequencer (h : BlockInv s) {i : Instr} (hq : sequencer s = some i) (he : exec i s = .next t) :
    BlockInv t := by
  cases hp : s.phase with
  | idle => simp [sequencer_idle hp] at hq
  | hdr =>
    rw [sequencer_hdr hp] at hq
    cases hq
    rcases headerOperation_cases s with hf | hm
    · rw [hf] at he; exact inv_hdrFetch h hp he
    · exact inv_headerMode h hp hm he
  | sel => rw [sequencer_sel hp] at hq; cases hq; exact inv_select h hp he
  | vpal => rw [sequencer_vpal hp] at hq; cases hq; exact inv_vpal h hp he
  | vcol => rw [sequencer_vcol hp] at hq; cases hq; exact inv_vcol h hp he
  | vmsk => rw [sequencer_vmsk hp] at hq; cases hq; exact inv_vmsk h hp he
  | pix => rw [sequencer_pix hp] at hq; cases hq; exact inv_pix h hp he
  | done => simp [sequencer_done hp] at hq
  | fault => simp [sequencer_fault hp] at hq

end Invariant

/-- Settles O3, by what moves in the step. -/
theorem stepKeepsInv : Obligations.StepKeepsInv := by
  intro s t h hs
  obtain ⟨rest, hm⟩ := step_moves hs
  have hr := inv_setInbox h rest
  cases hm with
  | nothing ht => rw [ht]; exact hr
  | sample k i hd he =>
    obtain ⟨b, rfl⟩ := exec_decodeSample_next hd he
    exact inv_frame hr rfl
  | block i hq he => exact inv_sequencer hr hq he
  | command w i hi hd he =>
    rcases decode_ctrl_eq_ok hd with ⟨rfl, -⟩ | rfl
    · exact inv_start hr he
    · exact inv_clear hr he
  | host a hi he => exact inv_hostAccess hr he

end Sys2Proof.Machine

/-! SUPPORT. A valid view descriptor in a step (10_state.md R32): the sequencer builds a view only in a slot that holds
no valid one, and of the host only START and the reset input make one invalid. -/

namespace Sys2Proof.Machine

section Views

variable {s t : State} {k : Slot}

theorem viewOf_afterSelect (k : Slot) (s : State) : viewOf k (afterSelect s) = viewOf k s := by cases k <;> simp
theorem viewOf_afterView (k l : Slot) (s : State) : viewOf k (afterView l s) = viewOf k s := by cases k <;> simp

/-- VIEW.MAKE writes its own slot only. -/
theorem viewOf_viewMake {l : Slot} {o w h d : Nat} {f : Fmt} (hk : k ≠ l)
    (he : exec (.viewMake l o w h d f) s = .next t) : viewOf k t = viewOf k s := by
  simp only [exec, execViewMake] at he
  rcases makeView_cases l o w h d f s with ⟨-, hm⟩ | ⟨-, hm⟩ <;> rw [hm] at he <;> cases he
  · rw [viewOf_afterView, viewOf_setView_other hk]
  · exact viewOf_enterFault ..

/-- A pixel writes no descriptor. -/
theorem viewOf_pixelOperation (he : exec (pixelOperation s) s = .next t) : viewOf k t = viewOf k s := by
  rw [exec_pixelOperation] at he
  rcases Flow.outcome_eq_next.mp he with he | he
  · obtain ⟨u, hu, he⟩ := Flow.andThen_eq_ok.mp he
    cases he
    rw [viewOf_advancePixel, pixelBody_eq_ok hu, viewOf_setOut]
  · rcases Flow.andThen_eq_raised.mp he with he | ⟨u, -, he⟩
    · obtain ⟨n, rfl⟩ := pixelBody_eq_raised he
      exact viewOf_enterFault ..
    · cases he

/-- Before the first view is built, none is valid (10_state.md R31). -/
theorem no_view_before_vcol (h : BlockInv s) (hp : s.phase = .hdr ∨ s.phase = .sel ∨ s.phase = .vpal) (k : Slot) :
    (viewOf k s).valid = false := by
  obtain ⟨-, hnone, -⟩ := h.pc
  obtain ⟨hpal, hcol, hmsk⟩ := hnone hp
  cases k with
  | pal => exact hpal
  | col => exact hcol
  | msk => exact hmsk

/-- Whatever the sequencer invokes, the valid descriptors stay: a view is built only where none is valid. -/
theorem sequencer_keeps_valid (h : BlockInv s) {i : Instr} (hq : sequencer s = some i) (he : exec i s = .next t)
    (hv : (viewOf k s).valid = true) : viewOf k t = viewOf k s := by
  have hbefore (hp : s.phase = .hdr ∨ s.phase = .sel ∨ s.phase = .vpal) : viewOf k t = viewOf k s := by
    rw [no_view_before_vcol h hp k] at hv
    cases hv
  obtain ⟨-, -, hvcol, hvmsk, -⟩ := h.pc
  cases hp : s.phase with
  | idle => simp [sequencer_idle hp] at hq
  | hdr => exact hbefore (.inl hp)
  | sel => exact hbefore (.inr (.inl hp))
  | vpal => exact hbefore (.inr (.inr hp))
  | vcol =>
    rw [sequencer_vcol hp, colourView_eq_viewMake] at hq
    cases hq
    obtain ⟨hcol, -⟩ := hvcol hp
    refine viewOf_viewMake (fun hk => ?_) he
    rw [hk, viewOf_col, hcol] at hv
    cases hv
  | vmsk =>
    rw [sequencer_vmsk hp] at hq
    cases hq
    obtain ⟨-, hmsk⟩ := hvmsk hp
    refine viewOf_viewMake (fun hk => ?_) he
    rw [hk, viewOf_msk, hmsk] at hv
    cases hv
  | pix => rw [sequencer_pix hp] at hq; cases hq; exact viewOf_pixelOperation he
  | done => simp [sequencer_done hp] at hq
  | fault => simp [sequencer_fault hp] at hq

/-- START keeps the descriptors where it is ignored, and else makes them all invalid (44_host_commands.md R220). -/
theorem viewOf_start (he : exec .start s = .next t) : viewOf k t = viewOf k s ∨ (viewOf k t).valid = false := by
  simp only [exec, execStart] at he
  split at he
  · cases he; exact .inl rfl
  · cases he; exact .inr (by simp only [viewOf_goto, viewOf_clearStatus, viewOf_invalidateViews])

theorem viewOf_clear (he : exec .clear s = .next t) : viewOf k t = viewOf k s := by
  simp only [exec, execClear] at he
  split at he
  · cases he; rfl
  · cases he; rw [viewOf_goto, viewOf_clearStatus]

theorem viewOf_resetEvent (k : Slot) (s : State) : (viewOf k (resetEvent s)).valid = false := by
  simp only [resetEvent, viewOf_goto, viewOf_invalidateViews]

/-- A descriptor is one of three registers. -/
theorem viewOf_congr (hpal : t.vPal = s.vPal) (hcol : t.vCol = s.vCol) (hmsk : t.vMsk = s.vMsk) :
    viewOf k t = viewOf k s := by
  cases k with
  | pal => exact hpal
  | col => exact hcol
  | msk => exact hmsk

/-- No access of the host but the reset input touches a descriptor. -/
theorem viewOf_hostAccess {a : HostAccess} (ha : a ≠ .reset) (he : hostAccess a s = .next t) :
    viewOf k t = viewOf k s := by
  cases a with
  | writeReg n v => cases he; rw [writeOperand_frame]; exact viewOf_congr rfl rfl rfl
  | readReg n => cases he; rw [readReg_frame]; exact viewOf_congr rfl rfl rfl
  | writeSrc a b => rw [writeSrc_next he]; exact viewOf_congr rfl rfl rfl
  | readOut a => rw [readOut_next he]; exact viewOf_congr rfl rfl rfl
  | reset => exact absurd rfl ha
  | yield => cases he; rfl

end Views

/-- Settles O18, by what moves in the step. -/
theorem validViewIsImmutable : Obligations.ValidViewIsImmutable := by
  intro s t k h hs hv
  obtain ⟨rest, hm⟩ := step_moves hs
  have hr := viewOf_setInbox k rest s
  cases hm with
  | nothing ht => rw [ht]; exact .inl hr
  | sample c i hd he =>
    obtain ⟨b, rfl⟩ := exec_decodeSample_next hd he
    exact .inl (by rw [viewOf_keepSample, viewOf_takeCall, hr])
  | block i hq he => exact .inl ((sequencer_keeps_valid (inv_setInbox h rest) hq he (by rw [hr, hv])).trans hr)
  | command w i hi hd he =>
    rcases decode_ctrl_eq_ok hd with ⟨rfl, hw⟩ | rfl
    · exact (viewOf_start he).imp (fun e => e.trans hr) fun e => ⟨e, rest, .inr ⟨w, hw, hi⟩⟩
    · exact .inl ((viewOf_clear he).trans hr)
  | host a hi he =>
    by_cases ha : a = .reset
    · subst ha
      cases he
      exact .inr ⟨viewOf_resetEvent k _, rest, .inl hi⟩
    · exact .inl ((viewOf_hostAccess ha he).trans hr)

end Sys2Proof.Machine

/-! SUPPORT. The state after reset (10_state.md R38), what each host access answers and changes (10_state.md R21 to R39,
70_reset_and_hazards.md R265), and the fields of the STATUS word (10_state.md R23). -/

namespace Sys2Proof.Machine

/-! ### Reset -/

/-- Settles O1: after reset the sequencer invokes nothing and no access is pending. -/
theorem resetLeavesIdleNoFaultNoView : Obligations.ResetLeavesIdleNoFaultNoView := by
  refine ⟨rfl, rfl, rfl, fun k => ?_, rfl, rfl, rfl, step_waits rfl rfl (sequencer_idle rfl)⟩
  cases k <;> rfl

/-- Settles O2: with nothing selected, no view valid and no fault, each part of the invariant asks for nothing more. -/
theorem invHoldsAtReset : Obligations.InvHoldsAtReset := by
  refine ⟨reset_memory_wf, ?_, ?_, fun k hk => ?_, ?_⟩
  · simp [StatusOk, State.reset, selected]
  · simp [HeaderOk, State.reset, selected]
  · cases k <;> cases hk
  · simp [PcOk, State.reset]

/-! ### Reads of the registers, one lemma a row of R21 -/

section ReadReg

variable {n : BitVec 4} {s : State}

theorem readReg_ctrl (h : n.toNat = 0) : readReg n s = answer 0 s := by simp only [readReg, h]
theorem readReg_status (h : n.toNat = 1) : readReg n s = answerStatus s := by simp only [readReg, h]
theorem readReg_errInfo (h : n.toNat = 2) : readReg n s = answer s.errInfo s := by simp only [readReg, h]
theorem readReg_srcLen (h : n.toNat = 3) : readReg n s = answer s.srcLen s := by simp only [readReg, h]
theorem readReg_cfgW (h : n.toNat = 4) : readReg n s = answer s.cfgW s := by simp only [readReg, h]
theorem readReg_cfgH (h : n.toNat = 5) : readReg n s = answer s.cfgH s := by simp only [readReg, h]
theorem readReg_hdrSize (h : n.toNat = 6) : readReg n s = answerReadBack s.hdrSize s := by simp only [readReg, h]
theorem readReg_hdrBitcount (h : n.toNat = 7) : readReg n s = answerReadBack s.hdrBitcount s := by
  simp only [readReg, h]
theorem readReg_hdrClrused (h : n.toNat = 8) : readReg n s = answerReadBack s.hdrClrused s := by
  simp only [readReg, h]
theorem readReg_nColors (h : n.toNat = 9) : readReg n s = answerReadBack s.nColors s := by simp only [readReg, h]

theorem readReg_reserved (h : 10 ≤ n.toNat) : readReg n s = answer 0 s := by
  unfold readReg
  split
  case h_11 => rfl
  all_goals omega

theorem answerReadBack_done (w : Word) (h : s.phase = .done) : answerReadBack w s = answer w s := if_pos h
theorem answerReadBack_free (w : Word) (h : s.phase ≠ .done) : answerReadBack w s = answerFree s := if_neg h

/-- The four read-back registers answer a free value outside DONE (10_state.md R39). -/
theorem readReg_readBack_free (h : s.phase ≠ .done) (h6 : 6 ≤ n.toNat) (h9 : n.toNat ≤ 9) :
    readReg n s = answerFree s := by
  obtain hn | hn | hn | hn : n.toNat = 6 ∨ n.toNat = 7 ∨ n.toNat = 8 ∨ n.toNat = 9 := by omega
  · rw [readReg_hdrSize hn, answerReadBack_free _ h]
  · rw [readReg_hdrBitcount hn, answerReadBack_free _ h]
  · rw [readReg_hdrClrused hn, answerReadBack_free _ h]
  · rw [readReg_nColors hn, answerReadBack_free _ h]

theorem answerStatus_specified (h : s.phase = .idle ∨ s.phase = .done) : answerStatus s = answer (statusWord s) s :=
  if_neg (by rcases h with h | h <;> simp [pathUnspecified, busy, h])

/-- Where R23 leaves PATH open, its two bits are drawn. -/
theorem answerStatus_open (h : busy s = true ∨ s.phase = .fault) :
    answerStatus s = { s with
      hostData := statusWith s ((Config.freeWord s.draws).setWidth 2), draws := s.draws + 1 } :=
  if_pos (by rcases h with h | h <;> simp [pathUnspecified, h])

end ReadReg

/-- Settles O45, register by register. -/
theorem hostReadAnswers : Obligations.HostReadAnswers := by
  intro s n rest hi
  refine ⟨readReg n (setInbox rest s), step_host hi (by simp) (by simp), readReg_frame n (setInbox rest s), ?_⟩
  refine ⟨fun h => ?_, fun h hp => ?_, fun h hp => ?_, fun h => ?_, fun h => ?_, fun h => ?_, fun h => ?_,
    fun hp => ⟨fun h => ?_, fun h => ?_, fun h => ?_, fun h => ?_⟩, fun hp h6 h9 => ?_, fun h => ?_⟩
  · rw [readReg_ctrl h]; rfl
  · rw [readReg_status h, answerStatus_specified (s := setInbox rest s) hp]; rfl
  · rw [readReg_status h, answerStatus_open (s := setInbox rest s) hp]; exact ⟨rfl, rfl⟩
  · rw [readReg_errInfo h]; rfl
  · rw [readReg_srcLen h]; rfl
  · rw [readReg_cfgW h]; rfl
  · rw [readReg_cfgH h]; rfl
  · rw [readReg_hdrSize h, answerReadBack_done (s := setInbox rest s) _ hp]; rfl
  · rw [readReg_hdrBitcount h, answerReadBack_done (s := setInbox rest s) _ hp]; rfl
  · rw [readReg_hdrClrused h, answerReadBack_done (s := setInbox rest s) _ hp]; rfl
  · rw [readReg_nColors h, answerReadBack_done (s := setInbox rest s) _ hp]; rfl
  · rw [readReg_readBack_free (s := setInbox rest s) hp h6 h9]; exact ⟨rfl, rfl⟩
  · rw [readReg_reserved h]; rfl

/-! ### Writes of the registers -/

/-- A register that is neither CTRL nor an operand takes no write (10_state.md R21). -/
theorem writeOperand_ignored {n : BitVec 4} (h3 : n ≠ 3) (h4 : n ≠ 4) (h5 : n ≠ 5) (w : Word) (s : State) :
    writeOperand n w s = s := by
  unfold writeOperand
  split
  next h => exact absurd (BitVec.eq_of_toNat_eq h) h3
  next h => exact absurd (BitVec.eq_of_toNat_eq h) h4
  next h => exact absurd (BitVec.eq_of_toNat_eq h) h5
  · rfl

/-- Settles O46: a write of a register other than CTRL is `writeOperand`, register by register. -/
theorem hostWriteReachesOperandsOnly : Obligations.HostWriteReachesOperandsOnly := by
  intro s n w rest hi hn
  have hs : step s = .next (writeOperand n w (setInbox rest s)) := step_host hi (by simp) fun v e => hn (by cases e; rfl)
  refine ⟨fun h => ?_, fun h => ?_, fun h => ?_, fun h3 h4 h5 => ?_⟩
  · rw [hs, h]; rfl
  · rw [hs, h]; rfl
  · rw [hs, h]; rfl
  · rw [hs, writeOperand_ignored h3 h4 h5]; rfl

/-! ### The host's accesses to SRC and OUT -/

section Bytes

variable {a : Word} {b : Byte} {s : State}

theorem writeSrc_absent (ha : a.toNat = 2 ^ 32 - 1) : writeSrc a b s = .fault .sourceAddressAbsent :=
  if_pos (by omega)

theorem writeSrc_running (ha : a.toNat < 2 ^ 32 - 1) (hb : busy s = true) (hl : a.toNat < len s) :
    writeSrc a b s = .refused .hostWritesSourceWhileBusy :=
  (if_neg (by omega)).trans (if_pos ⟨hb, hl⟩)

theorem writeSrc_taken (ha : a.toNat < 2 ^ 32 - 1) (h : busy s = false ∨ len s ≤ a.toNat) :
    writeSrc a b s = .next { s with src := s.src.set a.toNat b } :=
  (if_neg (by omega)).trans (if_neg fun ⟨hb, hl⟩ => by
    rcases h with h | h
    · rw [h] at hb; cases hb
    · omega)

theorem readOut_stored {c : Nat} (hp : s.phase = .done) (hc : c < outSize s) :
    readOut c s = .next (answer ((s.out.get c).setWidth 32) s) :=
  (if_pos hp).trans (if_pos hc)

theorem readOut_absent {c : Nat} (hp : s.phase = .done) (hc : outSize s ≤ c) :
    readOut c s = .fault .outputAddressAbsent :=
  (if_pos hp).trans (if_neg (by omega))

theorem readOut_free {c : Nat} (hp : s.phase ≠ .done) :
    readOut c s = .next { s with
      hostData := ((Config.freeWord s.draws).setWidth 8).setWidth 32, draws := s.draws + 1 } :=
  if_neg hp

end Bytes

/-- Settles O47: a write of SRC is `writeSrc`, and the written memory is read back by the laws of a byte space. -/
theorem hostWritesOneSourceByte : Obligations.HostWritesOneSourceByte := by
  intro s a b rest hw hi
  have hs : step s = writeSrc a b (setInbox rest s) := step_host hi (by simp) (by simp)
  rw [hs]
  refine ⟨fun ha h => ⟨_, writeSrc_taken ha h, ?_, fun c hc => ?_, rfl⟩, fun ha hb hl => ?_, fun ha => ?_⟩
  · exact Memory.get_set_same hw a.toNat b
  · exact Memory.get_set_other hw b hc
  · exact writeSrc_running ha hb hl
  · exact writeSrc_absent ha

/-- Settles O48: a read of OUT is `readOut`, in DONE and elsewhere. -/
theorem hostReadsOutOnlyInDone : Obligations.HostReadsOutOnlyInDone := by
  intro s a rest hi
  have hs : step s = readOut a (setInbox rest s) := step_host hi (by simp) (by simp)
  rw [hs]
  refine ⟨fun hp ha => ?_, fun hp ha => ?_, fun hp => ?_⟩
  · exact readOut_stored hp ha
  · exact readOut_absent hp ha
  · exact readOut_free hp

/-! ### The STATUS word -/

/-- The higher part of a word counts multiples of what the lower part can hold. -/
theorem toNat_append_eq_mul_add {m n : Nat} (x : BitVec m) (y : BitVec n) :
    (x ++ y).toNat = x.toNat * 2 ^ n + y.toNat := by
  rw [BitVec.toNat_append, ← Nat.shiftLeft_add_eq_or_of_lt y.isLt, Nat.shiftLeft_eq]

section Status

variable (s : State) (p : BitVec 2)

/-- The STATUS word as a number: each field at its place (10_state.md R23). -/
theorem statusWith_toNat :
    (statusWith s p).toNat = 1024 * p.toNat + 256 * (errViewBits s.errView).toNat
      + 16 * (errCodeBits s.err).toNat + (stateCode s.phase).toNat := by
  have h0 (n : Nat) : (0 : BitVec n).toNat = 0 := BitVec.toNat_zero
  simp only [statusWith, toNat_append_eq_mul_add, h0]
  omega

/-- Each field of a STATUS word, read back from its place. -/
theorem statusWith_fields :
    (statusWith s p).toNat % 4 = (stateCode s.phase).toNat ∧ (statusWith s p).toNat / 4 % 4 = 0 ∧
    (statusWith s p).toNat / 16 % 16 = (errCodeBits s.err).toNat ∧
    (statusWith s p).toNat / 256 % 4 = (errViewBits s.errView).toNat ∧
    (statusWith s p).toNat / 1024 % 4 = p.toNat ∧ (statusWith s p).toNat / 4096 = 0 := by
  have hstate := (stateCode s.phase).isLt
  have herr := (errCodeBits s.err).isLt
  have hview := (errViewBits s.errView).isLt
  have hpath := p.isLt
  rw [statusWith_toNat]
  omega

/-- The six phases between START and the end have one STATE (10_state.md R30). -/
theorem stateCode_busy {ph : Phase} (h : ph ∈ [Phase.hdr, .sel, .vpal, .vcol, .vmsk, .pix]) : stateCode ph = 1 := by
  revert h
  cases ph <;> simp [stateCode]

/-- The numbers of 10_state.md R23, R30 and 60_exceptions.md R230, whatever PATH is. -/
theorem statusFields_statusWith : StatusFields s (statusWith s p) := by
  obtain ⟨hstate, hlow, herr, hview, -, hhigh⟩ := statusWith_fields s p
  unfold StatusFields
  simp only [hstate, herr, hview]
  refine ⟨fun h => ?_, fun h => ?_, fun h => ?_, fun h => ?_, hlow, fun h => ?_, fun h => ?_, fun h => ?_,
    fun h => ?_, fun h => ?_, fun h => ?_, fun h => ?_, fun h => ?_, fun h => ?_, hhigh⟩
  case refine_2 => rw [stateCode_busy h]; rfl
  all_goals rw [h]; rfl

/-- The mask 0xFFFFF3FF in the widths of STATUS's fields: all but PATH. -/
def exceptPath : BitVec (20 + 2 + 2 + 4 + 2 + 2) :=
  BitVec.allOnes 20 ++ (0 : BitVec 2) ++ BitVec.allOnes 2 ++ BitVec.allOnes 4 ++ BitVec.allOnes 2 ++ BitVec.allOnes 2

theorem exceptPath_eq : exceptPath = 0xFFFFF3FF := rfl

theorem fields_and_exceptPath (r : BitVec 20) (v : BitVec 2) (e : BitVec 4) (z c : BitVec 2) :
    (r ++ p ++ v ++ e ++ z ++ c) &&& exceptPath = r ++ (0 : BitVec 2) ++ v ++ e ++ z ++ c := by
  have h0 : p &&& (0 : BitVec 2) = 0 := BitVec.and_zero
  simp only [exceptPath, BitVec.and_append, BitVec.and_allOnes, h0]

/-- Masked with 0xFFFFF3FF, the STATUS word is the one with PATH 0 (30_encoding.md R112). -/
theorem statusWith_masked : statusWith s p &&& 0xFFFFF3FF = statusWith s 0 := by
  rw [← exceptPath_eq]
  exact fields_and_exceptPath p 0 (errViewBits s.errView) (errCodeBits s.err) 0 (stateCode s.phase)

end Status

/-- Settles O49: the fields from their places, and the worked values from the fields. -/
theorem statusWordFromFields : Obligations.StatusWordFromFields := by
  refine ⟨fun s => ⟨statusFields_statusWith s _, fun p => ⟨statusFields_statusWith s p, ?_⟩⟩, fun s => ?_,
    fun s he hv => ⟨fun hp hpath => ?_, fun hp => ?_, fun hp hpath => ?_, fun hp hpath => ?_⟩, fun s hp he hv => ?_⟩
  · obtain ⟨-, -, -, -, hpath, -⟩ := statusWith_fields s p
    exact hpath
  · obtain ⟨-, -, -, -, hpath, -⟩ := statusWith_fields s (pathBits s.path)
    unfold statusWord
    rw [hpath]
    exact ⟨fun h => by rw [h]; rfl, fun h => by rw [h]; rfl, fun h => by rw [h]; rfl⟩
  · simp only [statusWord, statusWith, he, hv, hp, hpath]; rfl
  · have hbusy : statusWith s 0 = 0x00000001 := by
      simp only [statusWith, he, hv, stateCode_busy hp]; rfl
    exact ⟨(statusWith_masked s _).trans hbusy, fun p => (statusWith_masked s p).trans hbusy⟩
  · simp only [statusWord, statusWith, he, hv, hp, hpath]; rfl
  · simp only [statusWord, statusWith, he, hv, hp, hpath]; rfl
  · have hfault : statusWith s 0 = 0x00000233 := by
      simp only [statusWith, he, hv, hp]; rfl
    exact ⟨(statusWith_masked s _).trans hfault, fun p => (statusWith_masked s p).trans hfault⟩

end Sys2Proof.Machine

/-! SUPPORT. That the block's own step never stops the model (43_composite.md R191): every sample it makes lies inside
the window (20_memory.md R73) and every byte it writes inside OUT (R79). And what MemRead answers (R61, R62). -/

namespace Sys2Proof.Machine

/-! ### MemRead -/

section MemRead

variable {a : Nat} {s : State}

theorem memRead_one (h : a + 1 ≤ len s) : memRead a 1 s = .ok (srcByte s a) := memRead_ok h

theorem memRead_two (h : a + 2 ≤ len s) : memRead a 2 s = .ok (le16 s a) := memRead_ok h

/-- Four bytes, by Horner's rule in the model and by place values in the rule (20_memory.md R62). -/
theorem memRead_four (h : a + 4 ≤ len s) : memRead a 4 s = .ok (le32 s a) := by
  have hle : leNat ((List.range 4).map fun k => s.src.get (a + k)) =
      srcByte s a + 256 * (srcByte s (a + 1) + 256 * (srcByte s (a + 2) + 256 * srcByte s (a + 3))) := rfl
  rw [memRead_ok h, hle]
  unfold le32
  congr 1
  ring

theorem memRead_lt {n v : Nat} (h : memRead a n s = .ok v) : v < 2 ^ (8 * n) := by
  rcases Nat.lt_or_ge (len s) (a + n) with hl | hl
  · rw [memRead_raises hl] at h
    cases h
  · rw [memRead_ok hl] at h
    cases h
    have hlt := leNat_lt ((List.range n).map fun k => s.src.get (a + k))
    rw [List.length_map, List.length_range] at hlt
    rwa [Nat.pow_mul]

end MemRead

/-- Settles O51, by whether the whole access fits in the window. -/
theorem memReadIsLittleEndianAndChecked : Obligations.MemReadIsLittleEndianAndChecked := by
  intro s a
  exact ⟨fun n _ hl => ⟨_, memRead_raises hl, rfl⟩, memRead_one, memRead_two, memRead_four, fun n v => memRead_lt⟩

/-! ### Every sample of a valid view lies inside the window -/

/-- Every admitted view has a depth below 8, or room in each pixel for the letters of its format (10_state.md R33). -/
theorem admittedView_depth {k : Slot} {d : Nat} {f : Fmt} (h : admittedView k d f = true) :
    (d = 1 ∨ d = 2 ∨ d = 4) ∨ ((d = 8 ∨ d = 16 ∨ d = 24 ∨ d = 32) ∧ (fmtLetters f).length ≤ d / 8) := by
  unfold admittedView at h
  split at h
  next => obtain rfl := eq_of_beq h; decide
  next =>
    have hd : d = 1 ∨ d = 2 ∨ d = 4 ∨ d = 8 := by simpa using h
    rcases hd with rfl | rfl | rfl | rfl <;> decide
  next => obtain rfl := eq_of_beq h; decide
  next => obtain rfl := eq_of_beq h; decide
  next => obtain rfl := eq_of_beq h; decide
  next => cases h

theorem channelIdx_lt {f : Fmt} {ch : Channel} (h : ch ∈ fmtLetters f) : channelIdx f ch < (fmtLetters f).length :=
  List.findIdx_lt_length_of_exists ⟨ch, h, beq_self_eq_true ch⟩

/-- A sample of a valid view, in its grid and of a channel of its format, has its byte in the window (20_memory.md
R73). -/
theorem sample_of_viewsOk {s : State} {k : Slot} {v : View} {x y : Nat} {ch : Channel} (h : ViewsOk s)
    (hk : viewOf k s = v) (hv : v.valid = true) (hx : x < v.width) (hy : y < v.height) (hc : ch ∈ fmtLetters v.fmt) :
    ∃ b, sample v x y ch s = .ok b := by
  subst hk
  obtain ⟨hmk, hfit, hadm⟩ := h k hv
  generalize viewOf k s = v at hmk hfit hadm hx hy hc
  have hend : v.off + stride v.width v.depth * v.height ≤ len s := by rw [hmk] at hfit; exact hfit
  rw [hmk]
  rcases admittedView_depth hadm with hd | ⟨hd, hroom⟩
  · exact ⟨_, sample_subByte hd hx hy hc hend⟩
  · exact ⟨_, sample_wholeByte hd hx hy hc ((channelIdx_lt hc).trans_le hroom) hend⟩

/-! ### What does not stop the model -/

/-- This part of an operation does not stop the model: it answers, or it takes a fault of the spec. -/
inductive Flow.NoStop {α : Type} : Flow α → Prop
  | ok (a : α) : NoStop (.ok a)
  | raised {t : State} (ht : t.phase = .fault) : NoStop (.raised t)

section NoStop

variable {α β : Type}

theorem Flow.NoStop.andThen {m : Flow α} {k : α → Flow β} (hm : m.NoStop) (hk : ∀ a, (k a).NoStop) :
    (m.andThen k).NoStop := by
  cases hm with
  | ok a => exact hk a
  | raised ht => exact .raised ht

theorem Flow.NoStop.of_ok {m : Flow α} (h : ∃ a, m = .ok a) : m.NoStop := by
  obtain ⟨a, rfl⟩ := h
  exact .ok a

/-- A part of an operation done as a step that then moves pc by `g`, to a phase other than IDLE. -/
theorem Flow.NoStop.step {m : Flow State} {g : State → State} (hm : m.NoStop) (hg : ∀ t, (g t).phase ≠ .idle) :
    ∃ t, (m.andThen fun u => .ok (g u)).outcome = .next t ∧ t.phase ≠ .idle := by
  cases hm with
  | ok u => exact ⟨g u, rfl, hg u⟩
  | @raised t ht => exact ⟨t, rfl, by rw [ht]; decide⟩

end NoStop

theorem raise_noStop {α : Type} (c : ErrCode) (w : Option Slot) (n : Nat) (s : State) :
    (raise c w n s : Flow α).NoStop := .raised rfl

theorem fetchHeader_noStop (s : State) : (fetchHeader s).NoStop := by
  rcases Nat.lt_or_ge (len s) 36 with hl | hl
  · rw [fetchHeader_raises hl]; exact .raised rfl
  · rw [fetchHeader_ok hl]; exact .ok _

theorem selectPath_noStop (s : State) : (selectPath s).NoStop := by
  rcases selectPath_cases s with ⟨-, -, hs⟩ | ⟨-, -, hs⟩ | ⟨-, -, hs⟩ <;> rw [hs]
  · exact .ok _
  · exact .ok _
  · exact .raised rfl

theorem makeView_noStop (k : Slot) (o w h d : Nat) (f : Fmt) (s : State) : (makeView k o w h d f s).NoStop := by
  rcases makeView_cases k o w h d f s with ⟨-, hm⟩ | ⟨-, hm⟩ <;> rw [hm]
  · exact .ok _
  · exact .raised rfl

/-! ### A pixel of a block in P_PIX -/

theorem colourPlane_valid (s : State) : (colourPlane s).valid = true := by unfold colourPlane; split <;> rfl
theorem colourPlane_width (s : State) : (colourPlane s).width = imgW s := by unfold colourPlane; split <;> rfl
theorem colourPlane_height (s : State) : (colourPlane s).height = imgH s := by unfold colourPlane; split <;> rfl
theorem colourPlane_fmt (s : State) : (colourPlane s).fmt = colourFmt s := by
  unfold colourPlane colourFmt; split <;> rfl

/-- The stored row of an output row is a row of the picture (43_composite.md R194). -/
theorem sourceRow_lt {h y : Nat} (hy : y < h) : sourceRow h y < h := by
  unfold sourceRow
  omega

section Pixel

variable {s : State} {x y : Nat}

theorem emit_noStop (hx : x < imgW s) (hy : y < imgH s) (r g b a : Byte) : (emit x y r g b a s).NoStop :=
  .of_ok ⟨_, emit_eq_withPixel hx hy⟩

theorem colour_sample_noStop (h : BlockInv s) (hp : s.phase = .pix) (hx : x < imgW s) (hy : y < imgH s) {ch : Channel}
    (hc : ch ∈ fmtLetters (colourFmt s)) : (sample s.vCol x (sourceRow (imgH s) y) ch s).NoStop := by
  obtain ⟨-, -, -, -, -, hcol, -⟩ := h.pc
  rw [hcol (.inr (.inl hp))]
  exact .of_ok (sample_of_viewsOk (k := .col) h.views (hcol (.inr (.inl hp))) (colourPlane_valid s)
    (by rwa [colourPlane_width]) (by rw [colourPlane_height]; exact sourceRow_lt hy) (by rwa [colourPlane_fmt]))

theorem mask_sample_noStop (h : BlockInv s) (hp : s.phase = .pix) (hm : hasMask s) (hx : x < imgW s)
    (hy : y < imgH s) : (sample s.vMsk x (sourceRow (imgH s) y) .a s).NoStop := by
  obtain ⟨-, -, -, -, -, -, hmsk⟩ := h.pc
  obtain ⟨hmask, -⟩ := hmsk (.inl hp)
  rw [hmask hm]
  exact .of_ok (sample_of_viewsOk (k := .msk) h.views (hmask hm) rfl hx (sourceRow_lt hy) (List.mem_singleton.mpr rfl))

/-- An index below NCOLORS has its entry in the palette (43_composite.md R208). -/
theorem palette_sample_noStop (h : BlockInv s) (hp : s.phase = .pix) (hpath : s.path = .palette) {i : Nat}
    (hi : i < s.nColors.toNat) {ch : Channel} (hc : ch ∈ fmtLetters .bgra) : (sample s.vPal i 0 ch s).NoStop := by
  obtain ⟨-, -, -, -, hpal, -, -⟩ := h.pc
  obtain ⟨hview, -⟩ := hpal (.inr (.inr (.inl hp)))
  rw [hview hpath]
  exact .of_ok (sample_of_viewsOk (k := .pal) h.views (hview hpath) rfl hi Nat.one_pos hc)

theorem palettePixel_noStop (h : BlockInv s) (hp : s.phase = .pix) (hpath : s.path = .palette) (hx : x < imgW s)
    (hy : y < imgH s) : (palettePixel x y s).NoStop := by
  have hfmt : colourFmt s = .c := if_pos hpath
  unfold palettePixel
  rw [onImage_ok hx hy]
  refine (colour_sample_noStop h hp hx hy (by rw [hfmt]; decide)).andThen fun i => ?_
  split
  · exact raise_noStop ..
  next hi =>
    have entry {ch : Channel} (hc : ch ∈ fmtLetters .bgra) : (sample s.vPal i.toNat 0 ch s).NoStop :=
      palette_sample_noStop h hp hpath (Nat.lt_of_not_ge hi) hc
    refine (entry (by decide)).andThen fun r => ?_
    refine (entry (by decide)).andThen fun g => ?_
    refine (entry (by decide)).andThen fun b => ?_
    exact (mask_sample_noStop h hp (.inl hpath) hx hy).andThen fun m => emit_noStop hx hy ..

theorem trueColour24Pixel_noStop (h : BlockInv s) (hp : s.phase = .pix) (hpath : s.path ≠ .palette)
    (hb : s.hdrBitcount.toNat = 24) (hx : x < imgW s) (hy : y < imgH s) : (trueColour24Pixel x y s).NoStop := by
  have hfmt : colourFmt s = .bgr := by rw [colourFmt, if_neg hpath, hb]; rfl
  have colour {ch : Channel} (hc : ch ∈ fmtLetters .bgr) := colour_sample_noStop h hp hx hy (hfmt ▸ hc)
  unfold trueColour24Pixel
  rw [onImage_ok hx hy]
  refine (colour (by decide)).andThen fun r => ?_
  refine (colour (by decide)).andThen fun g => ?_
  refine (colour (by decide)).andThen fun b => ?_
  exact (mask_sample_noStop h hp (.inr hb) hx hy).andThen fun m => emit_noStop hx hy ..

theorem trueColour32Pixel_noStop (h : BlockInv s) (hp : s.phase = .pix) (hpath : s.path ≠ .palette)
    (hb : s.hdrBitcount.toNat = 32) (hx : x < imgW s) (hy : y < imgH s) : (trueColour32Pixel x y s).NoStop := by
  have hfmt : colourFmt s = .bgra := by rw [colourFmt, if_neg hpath, hb]; rfl
  have colour {ch : Channel} (hc : ch ∈ fmtLetters .bgra) := colour_sample_noStop h hp hx hy (hfmt ▸ hc)
  unfold trueColour32Pixel
  rw [onImage_ok hx hy]
  refine (colour (by decide)).andThen fun r => ?_
  refine (colour (by decide)).andThen fun g => ?_
  refine (colour (by decide)).andThen fun b => ?_
  exact (colour (by decide)).andThen fun a => emit_noStop hx hy ..

/-- On the true-colour path the admitted depths are 24 and 32 (42_select.md R173). -/
theorem bitcount_of_trueColour (h : BlockInv s) (hsel : selected s.phase = true) (hpath : s.path ≠ .palette) :
    s.hdrBitcount.toNat = 24 ∨ s.hdrBitcount.toNat = 32 := by
  obtain ⟨-, -, -, -, -, hsome⟩ := h.status
  obtain ⟨-, hhdr⟩ := h.header
  obtain ⟨-, -, htrue⟩ := hhdr hsel
  obtain ⟨-, hd⟩ := htrue ((path_cases _ (hsome hsel)).resolve_left hpath)
  exact trueColour_cases hd

theorem pixelBody_noStop (h : BlockInv s) (hp : s.phase = .pix) (hx : x < imgW s) (hy : y < imgH s) :
    (pixelBody s x y s).NoStop := by
  unfold pixelBody
  split
  next hpath => exact palettePixel_noStop h hp hpath hx hy
  next hpath =>
    split
    next hb => exact trueColour24Pixel_noStop h hp hpath hb hx hy
    next hb =>
      have hd := bitcount_of_trueColour h (by rw [hp]; rfl) hpath
      exact trueColour32Pixel_noStop h hp hpath (hd.resolve_left hb) hx hy

end Pixel

/-! ### The sequencer's single steps -/

theorem startPixels_not_idle (t : State) : (startPixels t).phase ≠ .idle := by unfold startPixels; split <;> simp

theorem afterSelect_not_idle (t : State) : (afterSelect t).phase ≠ .idle := by unfold afterSelect; split <;> simp

theorem afterView_not_idle (k : Slot) (t : State) : (afterView k t).phase ≠ .idle := by
  cases k with
  | pal => simp [afterView]
  | col =>
    simp only [afterView]
    split
    · simp
    · exact startPixels_not_idle t
  | msk => exact startPixels_not_idle t

theorem advancePixel_not_idle (x y : Nat) (t : State) : (advancePixel x y t).phase ≠ .idle := by
  unfold advancePixel
  split
  · simp
  split <;> simp

section Steps

variable {s : State}

theorem exec_hdrFetch_next (s : State) : ∃ t, exec .hdrFetch s = .next t ∧ t.phase ≠ .idle :=
  (fetchHeader_noStop s).step fun _ => by simp

theorem exec_viewMake_next (k : Slot) (o w h d : Nat) (f : Fmt) (s : State) :
    ∃ t, exec (.viewMake k o w h d f) s = .next t ∧ t.phase ≠ .idle :=
  (makeView_noStop k o w h d f s).step (afterView_not_idle k)

/-- A single step of the sequencer answers, in each phase that has one. -/
theorem exec_single_next (h : BlockInv s) {i : Instr} (hq : sequencer s = some i)
    (hf : s.phase = .hdr → headerOperation s = .hdrFetch) : ∃ t, exec i s = .next t ∧ t.phase ≠ .idle := by
  cases hp : s.phase with
  | idle => simp [sequencer_idle hp] at hq
  | hdr => rw [sequencer_hdr hp, hf hp] at hq; cases hq; exact exec_hdrFetch_next s
  | sel => rw [sequencer_sel hp] at hq; cases hq; exact (selectPath_noStop s).step afterSelect_not_idle
  | vpal => rw [sequencer_vpal hp] at hq; cases hq; exact exec_viewMake_next ..
  | vcol => rw [sequencer_vcol hp, colourView_eq_viewMake] at hq; cases hq; exact exec_viewMake_next ..
  | vmsk => rw [sequencer_vmsk hp] at hq; cases hq; exact exec_viewMake_next ..
  | pix =>
    rw [sequencer_pix hp] at hq
    cases hq
    obtain ⟨hin, -⟩ := h.pc
    obtain ⟨hy, hx⟩ := hin hp
    rw [exec_pixelOperation]
    exact (pixelBody_noStop h hp hx hy).step (advancePixel_not_idle _ _)
  | done => simp [sequencer_done hp] at hq
  | fault => simp [sequencer_fault hp] at hq

/-! ### A whole decode mode, where the single steps end -/

/-- A block beside itself. -/
theorem sideBySide_refl (ha : Alone s) (hw : s.out.wf) : SideBySide s.grain s.lW s.lH s s :=
  ⟨⟨rfl, fun _ _ => rfl, ha, rfl, rfl, rfl, hw, hw⟩, fun _ => ⟨rfl, rfl, rfl⟩, fun _ => rfl, fun _ _ => rfl,
    fun _ => rfl, fun _ => ⟨⟨rfl, rfl, rfl⟩, rfl, fun _ => rfl, rfl, fun _ => rfl⟩, fun _ _ => rfl⟩

/-- A step of a block that is left alone leaves it alone, in its grain. -/
theorem Alone.step {t : State} (ha : Alone s) (hw : s.out.wf) (hs : step s = .next t) :
    Alone t ∧ t.grain = s.grain := by
  obtain ⟨v, -, htv⟩ := (sideBySide_refl ha hw).step.of_next hs
  exact ⟨htv.alone, htv.grain⟩

/-- A block that has been started, meets the invariant, and is left alone to take single steps. -/
structure Going (s : State) : Prop where
  inv : BlockInv s
  alone : Alone s
  grain : s.grain = .sequencer
  started : s.phase ≠ .idle

theorem Going.step (h : Going s) : ∃ t, step s = .next t ∧ Going t := by
  have hnext : ∃ t, Machine.step s = .next t ∧ t.phase ≠ .idle := by
    cases hq : sequencer s with
    | none => exact ⟨s, step_waits h.alone.inbox h.alone.call hq, h.started⟩
    | some i =>
      rw [step_sequencer h.alone.inbox h.alone.call hq]
      exact exec_single_next h.inv hq fun _ => headerOperation_sequencer h.grain
  obtain ⟨t, ht, hidle⟩ := hnext
  obtain ⟨ha, hg⟩ := h.alone.step h.inv.memory.2 ht
  exact ⟨t, ht, stepKeepsInv s t h.inv ht, ha, hg.trans h.grain, hidle⟩

theorem Going.run (h : Going s) (k : Nat) : ∃ t, Sys2Proof.core.run k s = .next t ∧ Going t := by
  induction k generalizing s with
  | zero => exact ⟨s, rfl, h⟩
  | succ k ih =>
    obtain ⟨t, ht, hgo⟩ := h.step
    rw [run_of_next ht]
    exact ih hgo

theorem onNext_eq_next {f : State → State} {o : Host.Outcome State Fault Refusal} {u : State}
    (h : onNext f o = .next u) : ∃ t, o = .next t ∧ f t = u := by
  cases o with
  | next t => exact ⟨t, rfl, Host.Outcome.next.inj h⟩
  | fault f => cases h
  | refused r => cases h

/-- The mode that the header selects is where the single steps end, and none of them stops (00_scope.md R15). -/
theorem exec_headerMode_next (h : BlockInv s) (ha : Alone s) (hp : s.phase = .hdr) {i : Instr}
    (hm : headerMode s = some i) : ∃ t, exec i s = .next t ∧ t.phase ≠ .idle := by
  have hgo : Going (withGrain .sequencer s) :=
    ⟨inv_frame h rfl, ⟨ha.inbox, ha.call⟩, rfl, by show s.phase ≠ .idle; rw [hp]; decide⟩
  obtain ⟨u, hu, hgu⟩ := hgo.run (5 + imgW s * imgH s)
  rw [run_withGrain_eq ha hp hm] at hu
  obtain ⟨t, ht, rfl⟩ := onNext_eq_next hu
  exact ⟨t, ht, hgu.started⟩

/-- Whatever the sequencer invokes answers, in either grain, and does not leave BUSY for IDLE. -/
theorem exec_sequencer_next (h : BlockInv s) (ha : Alone s) {i : Instr} (hq : sequencer s = some i) :
    ∃ t, exec i s = .next t ∧ t.phase ≠ .idle := by
  by_cases hmode : s.phase = .hdr ∧ headerMode s = some (headerOperation s)
  · obtain ⟨hp, hm⟩ := hmode
    rw [sequencer_hdr hp] at hq
    cases hq
    exact exec_headerMode_next h ha hp hm
  · exact exec_single_next h hq fun hp => (headerOperation_cases s).resolve_right fun hm => hmode ⟨hp, hm⟩

end Steps

/-- Settles O38, by whether the sequencer invokes an operation. -/
theorem blockStepNeverStops : Obligations.BlockStepNeverStops := by
  intro s h hi hc
  cases hq : sequencer s with
  | none =>
    refine ⟨s, step_waits hi hc hq, fun hb => ?_⟩
    rw [← sequencer_isSome, hq] at hb
    cases hb
  | some i =>
    obtain ⟨t, ht, hidle⟩ := exec_sequencer_next h ⟨hi, hc⟩ hq
    exact ⟨t, (step_sequencer hi hc hq).trans ht, fun _ => hidle⟩

end Sys2Proof.Machine

/-! SUPPORT. The decoder and the encoder (30_encoding.md R91, R105 to R111): a header's fields byte by byte, the table of
R106 that they select a decode mode by, and that the encoder writes what the decoder reads. And which bytes HDR.FETCH
reads (R92). -/

namespace Sys2Proof.Machine

/-! ### Header fields -/

@[simp] theorem headerField_zero (bytes : List Byte) (off : Nat) : headerField bytes off 0 = 0 := rfl

/-- A field's low byte stands first; a byte that is not there counts as 0. -/
theorem headerField_succ (bytes : List Byte) (off n : Nat) :
    headerField bytes off (n + 1) = (bytes.getD off 0).toNat + 256 * headerField bytes (off + 1) n := by
  unfold headerField
  rcases Nat.lt_or_ge off bytes.length with hlt | hge
  · rw [List.drop_eq_getElem_cons hlt, List.take_succ_cons, leNat, List.getD_eq_getElem bytes 0 hlt]
  · rw [List.drop_eq_nil_of_le hge, List.drop_eq_nil_of_le (by omega), List.getD_eq_default bytes 0 hge]
    simp [leNat]

theorem headerField_two (bytes : List Byte) (off : Nat) :
    headerField bytes off 2 = (bytes.getD off 0).toNat + 256 * (bytes.getD (off + 1) 0).toNat := by
  simp only [headerField_succ, headerField_zero, Nat.mul_zero, Nat.add_zero]

theorem headerField_four (bytes : List Byte) (off : Nat) :
    headerField bytes off 4 = (bytes.getD off 0).toNat + 256 * (bytes.getD (off + 1) 0).toNat +
      65536 * (bytes.getD (off + 2) 0).toNat + 16777216 * (bytes.getD (off + 3) 0).toNat := by
  simp only [headerField_succ, headerField_zero]
  ring

/-! ### The table of R106 -/

/-- The decode mode of R106, by bitcount and colorsUsed alone. -/
def modeByTable (size bitcount clrused : Nat) : Except DecodeError Instr :=
  match bitcount with
  | 1 => .ok (.decP1 (BitVec.ofNat 32 size) (BitVec.ofNat 32 clrused))
  | 2 => .ok (.decP2 (BitVec.ofNat 32 size) (BitVec.ofNat 32 clrused))
  | 4 => .ok (.decP4 (BitVec.ofNat 32 size) (BitVec.ofNat 32 clrused))
  | 8 => .ok (.decP8 (BitVec.ofNat 32 size) (BitVec.ofNat 32 clrused))
  | 24 => if clrused = 0 then .ok (.decT24 (BitVec.ofNat 32 size)) else .error (.unsupportedColorDepth 24)
  | 32 => if clrused = 0 then .ok (.decT32 (BitVec.ofNat 32 size)) else .error (.unsupportedColorDepth 32)
  | b => .error (.unsupportedColorDepth b)

section Table

variable {size bitcount clrused : Nat}

theorem modeByTable_declared (hb : bitcount = 24 ∨ bitcount = 32) (hc : clrused ≠ 0) :
    modeByTable size bitcount clrused = .error (.unsupportedColorDepth bitcount) := by
  rcases hb with rfl | rfl
  · exact if_neg hc
  · exact if_neg hc

theorem modeByTable_unlisted (hb : bitcount ∉ [1, 2, 4, 8, 24, 32]) :
    modeByTable size bitcount clrused = .error (.unsupportedColorDepth bitcount) := by
  unfold modeByTable
  split
  case h_7 => rfl
  all_goals exact absurd (by decide) hb

/-- Above 8 bits there is a palette exactly where colorsUsed declares one (42_select.md R171). -/
theorem paletteCount_of_gt (hb : 8 < bitcount) : paletteCount bitcount clrused = clrused :=
  if_neg fun h => by omega

end Table

/-- The decoder reads the table: what it asks of NCOLORS (42_select.md R173, R174) is what R106 asks of colorsUsed. -/
theorem decode_header_eq_modeByTable {bytes : List Byte} (hl : 36 ≤ bytes.length) :
    decode (.header bytes) =
      modeByTable (headerField bytes 0 4) (headerField bytes 14 2) (headerField bytes 32 4) := by
  simp only [decode, decodeHeader, if_neg (show ¬bytes.length < headerBytes from Nat.not_lt.mpr hl)]
  generalize headerField bytes 0 4 = size
  generalize headerField bytes 14 2 = bitcount
  generalize headerField bytes 32 4 = clrused
  rcases Nat.lt_or_ge 8 bitcount with h8 | h8
  · rw [paletteCount_of_gt h8]
    by_cases hb : bitcount = 24 ∨ bitcount = 32
    · rcases hb with rfl | rfl
      · rfl
      · rfl
    · obtain ⟨h24, h32⟩ := not_or.mp hb
      have hlow (d : Nat) (hd : d ≤ 8) : bitcount ≠ d := by omega
      rw [modeByTable_unlisted (by simp [hlow, h24, h32])]
      simp [hlow, h24, h32]
  · rw [if_neg (paletteCount_ne_zero h8 clrused)]
    interval_cases bitcount <;> rfl

/-! ### The encoder's header -/

@[simp] theorem length_leBytes (n v : Nat) : (leBytes n v).length = n := by
  induction n generalizing v with
  | zero => rfl
  | succ n ih => simp [leBytes, ih]

theorem leNat_leBytes {n v : Nat} (hv : v < 256 ^ n) : leNat (leBytes n v) = v := by
  induction n generalizing v with
  | zero => exact (Nat.lt_one_iff.mp hv).symm
  | succ n ih =>
    have hq : v / 256 < 256 ^ n := Nat.div_lt_of_lt_mul (by rwa [pow_succ'] at hv)
    rw [leBytes, leNat, ih hq, BitVec.toNat_ofNat]
    exact Nat.mod_add_div v 256

/-- The three fields of R91, read back from the header that holds them. -/
theorem headerField_encodeHeader (size clrused : Word) {bitcount : Nat} (hb : bitcount < 65536) :
    headerField (encodeHeader size bitcount clrused) 0 4 = size.toNat ∧
    headerField (encodeHeader size bitcount clrused) 14 2 = bitcount ∧
    headerField (encodeHeader size bitcount clrused) 32 4 = clrused.toNat :=
  ⟨leNat_leBytes (n := 4) size.isLt, leNat_leBytes (n := 2) hb, leNat_leBytes (n := 4) clrused.isLt⟩

theorem decode_encodeHeader (size clrused : Word) {bitcount : Nat} (hb : bitcount < 65536) :
    decode (.header (encodeHeader size bitcount clrused)) = modeByTable size.toNat bitcount clrused.toNat := by
  obtain ⟨hsize, hbitcount, hclrused⟩ := headerField_encodeHeader size clrused hb
  rw [decode_header_eq_modeByTable (by simp [encodeHeader]), hsize, hbitcount, hclrused]

/-! ### Decode of encode -/

theorem decode_of_encode {i : Instr} {e : Encoding} (h : encode i = some e) : decode e = .ok i := by
  cases i with
  | decP1 size clrused => cases h; simp [decode_encodeHeader, modeByTable]
  | decP2 size clrused => cases h; simp [decode_encodeHeader, modeByTable]
  | decP4 size clrused => cases h; simp [decode_encodeHeader, modeByTable]
  | decP8 size clrused => cases h; simp [decode_encodeHeader, modeByTable]
  | decT24 size => cases h; simp [decode_encodeHeader, modeByTable]
  | decT32 size => cases h; simp [decode_encodeHeader, modeByTable]
  | smp1 | smp2 | smp4 | smpB8 | smpB16 | smpB24 | smpB32 => cases h; rfl
  | start | clear => cases h; rfl
  | hdrFetch | select | viewMake | pixPal | pixT24 | pixT32 => cases h

/-- The sequencer's operations are those that no encoded value selects (30_encoding.md R108). -/
theorem encode_eq_none_iff {i : Instr} :
    encode i = none ↔ i = .hdrFetch ∨ i = .select ∨ (∃ k o w h d f, i = .viewMake k o w h d f) ∨
      (∃ x y, i = .pixPal x y) ∨ (∃ x y, i = .pixT24 x y) ∨ ∃ x y, i = .pixT32 x y := by
  constructor
  · intro h
    cases i with
    | hdrFetch | select | viewMake | pixPal | pixT24 | pixT32 => simp
    | _ => cases h
  · rintro (rfl | rfl | ⟨k, o, w, h, d, f, rfl⟩ | ⟨x, y, rfl⟩ | ⟨x, y, rfl⟩ | ⟨x, y, rfl⟩) <;> rfl

/-- Settles O6, by the operation; whether its operands are well-formed plays no part. -/
theorem decodeOfEncodeIsTheOperation : Obligations.DecodeOfEncodeIsTheOperation :=
  fun _ _ => ⟨fun _ => decode_of_encode, encode_eq_none_iff⟩

/-- Settles O7, by the table that the decoder reads. -/
theorem headerSelectsModeByTable : Obligations.HeaderSelectsModeByTable := by
  intro bytes hl byte size bitcount clrused hs cu
  have hd : decode (.header bytes) = modeByTable size bitcount clrused := by
    rw [decode_header_eq_modeByTable hl, headerField_four, headerField_two, headerField_four]
  rw [hd]
  exact ⟨fun h => by rw [h]; rfl, fun h => by rw [h]; rfl, fun h => by rw [h]; rfl, fun h => by rw [h]; rfl,
    fun h hc => by rw [h]; exact if_pos hc, fun h hc => by rw [h]; exact if_pos hc,
    modeByTable_declared, modeByTable_unlisted⟩

/-- Settles O5, by evaluating the decoder on each word. -/
theorem writtenWordsDecode : Obligations.WrittenWordsDecode := by
  unfold Obligations.WrittenWordsDecode
  decide

/-! ### What HDR.FETCH reads -/

/-- Settles O8: it raises by LEN alone, and else latches the three fields, whose bytes are the ten given. -/
theorem headerFetchReadsThreeFieldsOnly : Obligations.HeaderFetchReadsThreeFieldsOnly := by
  intro s m hm
  simp only [exec, execHdrFetch]
  rcases Nat.lt_or_ge (len s) 36 with hl | hl
  · rw [fetchHeader_raises hl, fetchHeader_raises (s := { s with src := m }) hl]
    rfl
  · have hfield (a n : Nat) (ha : ∀ k ∈ List.range n, a + k ∈ [0, 1, 2, 3, 14, 15, 32, 33, 34, 35]) :
        ((List.range n).map fun k => Memory.get m (a + k)) = (List.range n).map fun k => s.src.get (a + k) :=
      List.map_congr_left fun k hk => hm _ (ha k hk)
    rw [fetchHeader_ok hl, fetchHeader_ok (s := { s with src := m }) hl, hfield 0 4 (by decide),
      hfield 14 2 (by decide), hfield 32 4 (by decide)]
    rfl

end Sys2Proof.Machine

/-! SUPPORT. VIEW.MAKE (40_view.md): the arithmetic of Stride (R131, R138), and what the step leaves, where the view
fits and where it does not (R130 to R133). -/

namespace Sys2Proof.Machine

/-! ### Stride -/

theorem stride_eq_rowBytes (w d : Nat) : stride w d = rowBytes w d := stride_eq w d

theorem viewSize_eq_rowBytes (w h d : Nat) : viewSize w h d = rowBytes w d * h :=
  congrArg (· * h) (stride_eq_rowBytes w d)

theorem ceilDiv_eight_le_stride (w d : Nat) : ceilDiv (w * d) 8 ≤ stride w d := by
  rw [stride_eq, ceilDiv]
  omega

theorem stride_lt_ceilDiv_eight (w d : Nat) : stride w d < ceilDiv (w * d) 8 + 4 := by
  rw [stride_eq, ceilDiv]
  omega

theorem stride_mono {v w : Nat} (d : Nat) (h : w ≤ v) : stride w d ≤ stride v d := by
  have hbits : w * d ≤ v * d := Nat.mul_le_mul_right d h
  rw [stride_eq, stride_eq]
  omega

/-- Settles O17: each fact from the form in bits, `stride_eq`; the closed forms by the number of pixels in 32 bits. -/
theorem strideFacts : Obligations.StrideFacts := by
  intro w d
  refine ⟨rfl, stride_eq w d, ?_, ceilDiv_eight_le_stride w d, stride_lt_ceilDiv_eight w d, ?_,
    fun _ => stride_mono d, ?_, ?_, ?_, ?_, ?_, ?_⟩
  · rw [stride_eq]
    exact Nat.mul_mod_left _ 4
  · rw [stride_eq, Nat.zero_mul]
  all_goals
    rw [stride_eq]
    omega

/-! ### The step after a view -/

/-- After the last view: the first pixel, or the end (43_composite.md R191, R212). -/
theorem firstPixel_startPixels (s : State) : FirstPixel s (startPixels s) := by
  unfold startPixels
  constructor
  · intro hs
    rw [if_pos hs]
    exact ⟨rfl, rfl, rfl⟩
  · intro hs
    rw [if_neg (by omega)]
    rfl

theorem firstPixel_startPixels_setView (k : Slot) (v : View) (s : State) :
    FirstPixel s (startPixels (setView k v s)) := by
  simpa only [FirstPixel, setView_imgW, setView_imgH] using firstPixel_startPixels (setView k v s)

theorem afterView_col_masked {s : State} (h : s.path = .palette ∨ s.hdrBitcount.toNat = 24) :
    afterView .col s = goto .vmsk s := if_pos h

theorem afterView_col_unmasked {s : State} (h : ¬(s.path = .palette ∨ s.hdrBitcount.toNat = 24)) :
    afterView .col s = startPixels s := if_neg h

theorem startPixels_frame (s : State) :
    startPixels s = { s with phase := (startPixels s).phase, y := (startPixels s).y, x := (startPixels s).x } := by
  unfold startPixels
  split <;> rfl

/-- What follows a view moves pc and nothing else. -/
theorem afterView_frame (k : Slot) (s : State) :
    afterView k s =
      { s with phase := (afterView k s).phase, y := (afterView k s).y, x := (afterView k s).x } := by
  cases k with
  | pal => rfl
  | col =>
    by_cases h : s.path = .palette ∨ s.hdrBitcount.toNat = 24
    · rw [afterView_col_masked h]
      rfl
    · rw [afterView_col_unmasked h]
      exact startPixels_frame s
  | msk => exact startPixels_frame s

/-- Building a view and moving on from it changes the slots and pc and nothing else. -/
theorem afterView_setView_frame (k : Slot) (v : View) (s : State) :
    let t := afterView k (setView k v s)
    t = { s with
      vPal := t.vPal, vCol := t.vCol, vMsk := t.vMsk, phase := t.phase, y := t.y, x := t.x } := by
  intro t
  have hpc : t = { setView k v s with phase := t.phase, y := t.y, x := t.x } := afterView_frame k (setView k v s)
  have hpal : t.vPal = (setView k v s).vPal := afterView_vPal k _
  have hcol : t.vCol = (setView k v s).vCol := afterView_vCol k _
  have hmsk : t.vMsk = (setView k v s).vMsk := afterView_vMsk k _
  rw [hpal, hcol, hmsk]
  refine hpc.trans ?_
  cases k <;> rfl

/-! ### VIEW.MAKE -/

section ViewMake

variable {s : State} {k : Slot} {o w h d : Nat} {f : Fmt}

theorem exec_viewMake_fits (hf : o + viewSize w h d ≤ len s) :
    exec (.viewMake k o w h d f) s = .next (afterView k (setView k (mkView o w h d f) s)) := by
  simp only [exec, execViewMake, makeView_fits hf, Flow.ok_andThen, Flow.outcome_ok]

theorem exec_viewMake_truncated (hf : len s < o + viewSize w h d) :
    exec (.viewMake k o w h d f) s = .next (enterFault .truncatedData (some k) o s) := by
  simp only [exec, execViewMake, makeView_truncated hf, Flow.raised_andThen, Flow.outcome_raised]

end ViewMake

/-- Settles O16, by the comparison with LEN: the descriptor and then pc, or the fault. -/
theorem viewMakeBuildsOrTruncates : Obligations.ViewMakeBuildsOrTruncates := by
  intro s k off w h d f
  rw [← viewSize_eq_rowBytes, ← stride_eq_rowBytes]
  constructor
  · intro hfit
    refine ⟨_, exec_viewMake_fits hfit, ?descriptor, fun l hl => ?otherSlots, ?afterPal, ?afterColMasked,
      ?afterColUnmasked, ?afterMsk, fun a => ?bytes, afterView_setView_frame k _ s⟩
    case descriptor =>
      rw [viewOf_afterView, viewOf_setView_same]
      rfl
    case otherSlots => rw [viewOf_afterView, viewOf_setView_other hl]
    case afterPal =>
      rintro rfl
      rfl
    case afterColMasked =>
      rintro rfl hmask
      rw [afterView_col_masked (by simpa only [setView_path, setView_hdrBitcount] using hmask)]
      rfl
    case afterColUnmasked =>
      rintro rfl hmask
      rw [afterView_col_unmasked (by simpa only [setView_path, setView_hdrBitcount] using hmask)]
      exact firstPixel_startPixels_setView .col _ s
    case afterMsk =>
      rintro rfl
      exact firstPixel_startPixels_setView .msk _ s
    case bytes => simp only [afterView_src, afterView_out, setView_src, setView_out, and_self]
  · intro hshort
    exact ⟨_, exec_viewMake_truncated hshort, rfl, fun _ => ⟨rfl, rfl⟩, rfl⟩

end Sys2Proof.Machine

/-! SUPPORT. The sample operations (41_sample.md): the byte or bit-field they return inside a view of the window (R151 to
R158), and the refusals outside the preconditions (R150, R161). -/

namespace Sys2Proof.Machine

/-! ### Inside a view of the window -/

/-- A sample operation whose sample answers keeps the value, and changes nothing else (41_sample.md R150). -/
theorem returnSample_ok (b : Byte) (s : State) : returnSample (.ok b) s = .next (keepSample b s) := rfl

section Ready

variable {s : State} {v : View} {d x y : Nat} {ch : Channel}

theorem ViewReady.end_le (h : ViewReady s v d) : v.off + stride v.width d * v.height ≤ len s := by
  obtain ⟨hmk, hfit⟩ := h
  rw [hmk] at hfit
  exact hfit

theorem subByteSample_of_ready (h : ViewReady s v d) (hd : d = 1 ∨ d = 2 ∨ d = 4) (hx : x < v.width)
    (hy : y < v.height) (hc : ch ∈ fmtLetters v.fmt) :
    subByteSample v d x y ch s =
      .ok (bitField (s.src.get (v.off + y * v.stride + x / (8 / d))) (8 - d - x % (8 / d) * d) d) := by
  rw [h.1]
  exact subByteSample_ok hd hx hy hc h.end_le

theorem wholeByteSample_of_ready (h : ViewReady s v d) (hd : d = 8 ∨ d = 16 ∨ d = 24 ∨ d = 32) (hx : x < v.width)
    (hy : y < v.height) (hc : ch ∈ fmtLetters v.fmt) (hroom : (fmtLetters v.fmt).length ≤ d / 8) :
    wholeByteSample v d x y ch s =
      .ok (s.src.get (v.off + y * v.stride + x * (d / 8) + channelIdx v.fmt ch)) := by
  rw [h.1]
  exact wholeByteSample_ok hd hx hy hc ((channelIdx_lt hc).trans_le hroom) h.end_le

/-- A sub-byte sample operation returns the lane of the covering byte, the smallest x in the most significant bits
(41_sample.md R162). -/
theorem returnSample_subByte (h : ViewReady s v d) (hd : d = 1 ∨ d = 2 ∨ d = 4) (hx : x < v.width) (hy : y < v.height)
    (hc : ch ∈ fmtLetters v.fmt) :
    ∃ t, returnSample (subByteSample v d x y ch s) s = .next t ∧
      t.sampled.toNat = srcByte s (v.off + y * v.stride + x / (8 / d)) / 2 ^ (8 - d - x % (8 / d) * d) % 2 ^ d ∧
      SameBytes s t ∧ t = { s with sampled := t.sampled } := by
  rw [subByteSample_of_ready h hd hx hy hc, returnSample_ok]
  exact ⟨_, rfl, bitField_toNat _ _ d (by omega), fun _ => ⟨rfl, rfl⟩, rfl⟩

/-- A whole-byte sample operation returns the channel's byte of the pixel (41_sample.md R158). -/
theorem returnSample_wholeByte (h : ViewReady s v d) (hd : d = 8 ∨ d = 16 ∨ d = 24 ∨ d = 32) (hx : x < v.width)
    (hy : y < v.height) (hc : ch ∈ fmtLetters v.fmt) (hroom : (fmtLetters v.fmt).length ≤ d / 8) :
    ∃ t, returnSample (wholeByteSample v d x y ch s) s = .next t ∧
      t.sampled = s.src.get (v.off + y * v.stride + d / 8 * x + channelIdx v.fmt ch) ∧
      SameBytes s t ∧ t = { s with sampled := t.sampled } := by
  rw [wholeByteSample_of_ready h hd hx hy hc hroom, returnSample_ok, Nat.mul_comm x]
  exact ⟨_, rfl, rfl, fun _ => ⟨rfl, rfl⟩, rfl⟩

end Ready

/-- Settles O19, mode by mode, from the one lane formula of the three depths (41_sample.md R162). -/
theorem subByteSampleIsBitField : Obligations.SubByteSampleIsBitField := by
  intro s k x y ch _ hx hy hc row
  refine ⟨fun h => ?smp1, fun h => ?smp2, fun h => ?smp4⟩
  case smp1 =>
    have hlane := returnSample_subByte h (by decide) hx hy hc
    rw [Nat.mul_one] at hlane
    exact hlane
  case smp2 => exact returnSample_subByte h (by decide) hx hy hc
  case smp4 => exact returnSample_subByte h (by decide) hx hy hc

/-- Settles O20, mode by mode, from the one address formula of the four depths (41_sample.md R158). -/
theorem wholeByteSampleIsChannelByte : Obligations.WholeByteSampleIsChannelByte := by
  intro s k x y ch _ hx hy hc row letters i
  refine ⟨fun h hroom => ?smpB8, fun h hroom => ?smpB16, fun h hroom => ?smpB24, fun h hroom => ?smpB32⟩
  case smpB8 =>
    have hbyte := returnSample_wholeByte h (by decide) hx hy hc hroom
    rw [Nat.div_self (by decide), Nat.one_mul] at hbyte
    exact hbyte
  case smpB16 => exact returnSample_wholeByte h (by decide) hx hy hc hroom
  case smpB24 => exact returnSample_wholeByte h (by decide) hx hy hc hroom
  case smpB32 => exact returnSample_wholeByte h (by decide) hx hy hc hroom

/-! ### Outside the preconditions -/

section Guard

variable {v : View} {d x y : Nat} {ch : Channel}

theorem sampleGuard_viewInvalid (hv : v.valid = false) : sampleGuard v d x y ch = some .sampleViewInvalid := if_pos hv

theorem sampleGuard_depthMismatch (hv : v.valid = true) (hd : v.depth ≠ d) :
    sampleGuard v d x y ch = some .sampleDepthMismatch := by
  simp [sampleGuard, hv, hd]

theorem sampleGuard_outsideGrid (hv : v.valid = true) (hd : v.depth = d) (hxy : v.width ≤ x ∨ v.height ≤ y) :
    sampleGuard v d x y ch = some .sampleOutsideGrid := by
  have hgrid : ¬(x < v.width ∧ y < v.height) := by omega
  simp [sampleGuard, hv, hd, hgrid]

theorem sampleGuard_channelNotInFormat (hv : v.valid = true) (hd : v.depth = d) (hx : x < v.width) (hy : y < v.height)
    (hc : ch ∉ fmtLetters v.fmt) : sampleGuard v d x y ch = some .sampleChannelNotInFormat := by
  simp [sampleGuard, hv, hd, hx, hy, hc]

theorem returnSample_guarded_refused {m : Flow Byte} {r : Refusal} (h : sampleGuard v d x y ch = some r) (s : State) :
    returnSample (guarded v d x y ch m) s = .refused r := by
  unfold guarded
  rw [h]
  rfl

end Guard

/-- The seven sample operations of a call, each with its depth (41_sample.md R150). -/
def sampleModes (k : Slot) (x y : Nat) (ch : Channel) : List (Nat × Instr) :=
  [(1, .smp1 k x y ch), (2, .smp2 k x y ch), (4, .smp4 k x y ch), (8, .smpB8 k x y ch), (16, .smpB16 k x y ch),
    (24, .smpB24 k x y ch), (32, .smpB32 k x y ch)]

/-- Every sample operation is guarded by the preconditions at its own depth. -/
theorem exec_sampleModes_guarded {k : Slot} {x y : Nat} {ch : Channel} {p : Nat × Instr}
    (hp : p ∈ sampleModes k x y ch) (s : State) :
    ∃ m, exec p.2 s = returnSample (guarded (viewOf k s) p.1 x y ch m) s := by
  simp only [sampleModes, List.mem_cons, List.not_mem_nil, or_false] at hp
  rcases hp with rfl | rfl | rfl | rfl | rfl | rfl | rfl <;> exact ⟨_, rfl⟩

/-- A sample operation refuses as its guard does. -/
theorem exec_sampleModes_refused {k : Slot} {x y : Nat} {ch : Channel} {p : Nat × Instr} {s : State} {r : Refusal}
    (hp : p ∈ sampleModes k x y ch) (h : sampleGuard (viewOf k s) p.1 x y ch = some r) : exec p.2 s = .refused r := by
  obtain ⟨m, hm⟩ := exec_sampleModes_guarded hp s
  rw [hm]
  exact returnSample_guarded_refused h s

theorem decodeSample_noMode {d : Nat} (hd : d ∉ [1, 2, 4, 8, 16, 24, 32]) (k : SampleCall) :
    decodeSample d k = .error (.noSampleMode d) := by
  simp only [List.mem_cons, List.not_mem_nil, or_false, not_or] at hd
  obtain ⟨h1, h2, h4, h8, h16, h24, h32⟩ := hd
  simp only [decodeSample, h1, h2, h4, h8, h16, h24, h32, if_false]

/-- A pending call of the row reader that selects no operation is refused (41_sample.md R150). -/
theorem step_call_noMode {s : State} {k : SampleCall} {e : DecodeError} (hi : s.inbox = []) (hc : s.call = some k)
    (h : decodeSample (viewOf k.slot s).depth k = .error e) :
    step s = .refused (.noSampleMode (viewOf k.slot s).depth) := by
  simp [step, runFetched, fetch, fetchBlock, hi, hc, h]

/-- Settles O21: each refusal is the guard's, in the order in which it looks, the same for every mode; a depth with no
mode has no operation to run. -/
theorem sampleRefusesOutsidePreconditions : Obligations.SampleRefusesOutsidePreconditions := by
  refine ⟨fun s k x y ch p hp => ⟨fun hv => ?viewInvalid, fun hv hd => ?depthMismatch, fun hv hd hxy => ?outsideGrid,
    fun hv hd hx hy hc => ?channelNotInFormat⟩, fun s k hi hc hd => ?noMode⟩
  case viewInvalid => exact exec_sampleModes_refused hp (sampleGuard_viewInvalid hv)
  case depthMismatch => exact exec_sampleModes_refused hp (sampleGuard_depthMismatch hv hd)
  case outsideGrid => exact exec_sampleModes_refused hp (sampleGuard_outsideGrid hv hd hxy)
  case channelNotInFormat => exact exec_sampleModes_refused hp (sampleGuard_channelNotInFormat hv hd hx hy hc)
  case noMode => exact step_call_noMode hi hc (decodeSample_noMode hd k)

end Sys2Proof.Machine

/-! SUPPORT. HDR.FETCH and SELECT (42_select.md): what each latches where its checks pass (R170 to R173), and the fault
where one does not (R174, 60_exceptions.md R231). -/

namespace Sys2Proof.Machine

/-- A natural below 2^32 is what its register holds. -/
theorem toNat_ofNat_word {n : Nat} (h : n < 2 ^ 32) : (BitVec.ofNat 32 n).toNat = n :=
  (BitVec.toNat_ofNat n 32).trans (Nat.mod_eq_of_lt h)

/-! ### HDR.FETCH -/

section Header

variable {s : State}

theorem le16_lt {a : Nat} (h : a + 2 ≤ len s) : le16 s a < 2 ^ 16 := memRead_lt (memRead_two h)

theorem le32_lt {a : Nat} (h : a + 4 ≤ len s) : le32 s a < 2 ^ 32 := memRead_lt (memRead_four h)

/-- The three header fields in the place values of 20_memory.md R62. -/
theorem fetchHeader_eq_latchHeader (h : 36 ≤ len s) :
    fetchHeader s = .ok (latchHeader (le32 s 0) (le16 s 14) (le32 s 32) s) := by
  unfold fetchHeader
  rw [memRead_four (by omega), memRead_two (by omega), memRead_four (by omega)]
  rfl

theorem exec_hdrFetch_latches (h : 36 ≤ len s) :
    exec .hdrFetch s = .next (goto .sel (latchHeader (le32 s 0) (le16 s 14) (le32 s 32) s)) := by
  simp only [exec, execHdrFetch, fetchHeader_eq_latchHeader h, Flow.ok_andThen, Flow.outcome_ok]

theorem exec_hdrFetch_raises (h : len s < 36) :
    exec .hdrFetch s = .next (enterFault .outOfBounds none
      (if len s < 4 then 0 else if len s < 16 then 14 else 32) s) := by
  simp only [exec, execHdrFetch, fetchHeader_raises h, Flow.raised_andThen, Flow.outcome_raised]

end Header

/-- Settles O13: a window of 36 bytes holds all three fields, and each fits its register. -/
theorem hdrFetchLatchesFields : Obligations.HdrFetchLatchesFields := by
  intro s hl
  refine ⟨_, exec_hdrFetch_latches hl, ?size, ?bitcount, ?clrused, rfl, fun _ => ⟨rfl, rfl⟩, rfl⟩
  case size => exact toNat_ofNat_word (le32_lt (by omega))
  case bitcount => exact toNat_ofNat_word ((le16_lt (by omega)).trans (by decide))
  case clrused => exact toNat_ofNat_word (le32_lt hl)

/-- Settles O14: the first read that does not fit gives its offset, and nothing was latched before it. -/
theorem hdrFetchShortWindowOutOfBounds : Obligations.HdrFetchShortWindowOutOfBounds := by
  intro s hl
  refine ⟨_, exec_hdrFetch_raises hl, rfl, rfl, rfl, fun h4 => ?first, fun h4 h16 => ?second, fun h16 => ?third,
    fun _ => ⟨rfl, rfl⟩, rfl⟩
  case first => exact congrArg (BitVec.ofNat 32) (if_pos h4)
  case second => exact congrArg (BitVec.ofNat 32) ((if_neg (by omega)).trans (if_pos h16))
  case third => exact congrArg (BitVec.ofNat 32) ((if_neg (by omega)).trans (if_neg (by omega)))

/-! ### SELECT -/

theorem paletteDepth_iff {d : Nat} : paletteDepth d = true ↔ d ∈ [1, 2, 4, 8] := List.contains_iff_mem

theorem trueColourDepth_iff {d : Nat} : trueColourDepth d = true ↔ d ∈ [24, 32] := List.contains_iff_mem

theorem paletteDepth_cases {d : Nat} (h : paletteDepth d = true) : d = 1 ∨ d = 2 ∨ d = 4 ∨ d = 8 := by
  simpa using paletteDepth_iff.mp h

theorem paletteDepth_le {d : Nat} (h : paletteDepth d = true) : d ≤ 8 := by
  rcases paletteDepth_cases h with h | h | h | h <;> omega

/-- NCOLORS at a palette depth: the declared count, or every value an index can have (42_select.md R171). -/
theorem paletteCount_of_le {b c : Nat} (hb : b ≤ 8) : paletteCount b c = if c = 0 then 2 ^ b else c := by
  simp only [paletteCount, hb, and_true]

section Select

variable {s : State}

/-- The pairs that R173 does not list are those that R174 rejects (42_select.md). -/
theorem selectPath_raises (h : s.hdrBitcount.toNat ∉ [1, 2, 4, 8, 24, 32] ∨
      (s.hdrBitcount.toNat ∈ [24, 32] ∧ s.hdrClrused.toNat ≠ 0)) :
    selectPath s = .raised (enterFault .unsupportedColorDepth none s.hdrBitcount.toNat s) := by
  rcases selectPath_cases s with ⟨-, hd, -⟩ | ⟨hn, hd, -⟩ | ⟨-, -, hs⟩
  · rw [paletteDepth_iff] at hd
    simp only [List.mem_cons, List.not_mem_nil, or_false] at h hd
    omega
  · have hc := eq_zero_of_paletteCount hn
    rw [trueColourDepth_iff] at hd
    simp only [List.mem_cons, List.not_mem_nil, or_false] at h hd
    omega
  · exact hs

theorem exec_select_of_ok {t : State} (h : selectPath s = .ok t) : exec .select s = .next (afterSelect t) := by
  simp only [exec, execSelect, h, Flow.ok_andThen, Flow.outcome_ok]

theorem exec_select_of_raised {t : State} (h : selectPath s = .raised t) : exec .select s = .next t := by
  simp only [exec, execSelect, h, Flow.raised_andThen, Flow.outcome_raised]

end Select

/-- Settles O15, by the three rows of the pairs: the palette path, the true-colour path, the fault. -/
theorem selectAdmitsOrFaults : Obligations.SelectAdmitsOrFaults := by
  intro s b c
  refine ⟨fun hb => ?palette, fun hb hc => ?trueColour, fun h => ?rejected⟩
  case palette =>
    have hd : paletteDepth b = true := paletteDepth_iff.mpr hb
    refine ⟨_, exec_select_of_ok (selectPath_palette (paletteCount_ne_zero (paletteDepth_le hd) c) hd), ?_,
      fun _ => ⟨rfl, rfl⟩, rfl⟩
    rw [← paletteCount_of_le (paletteDepth_le hd)]
    exact toNat_ofNat_word (paletteCount_lt s.hdrClrused.isLt)
  case trueColour =>
    have hd : trueColourDepth b = true := trueColourDepth_iff.mpr hb
    have h8 : 8 < b := by rcases trueColour_cases hd with h | h <;> omega
    have hn : paletteCount b c = 0 := (paletteCount_of_gt h8).trans hc
    have hs := selectPath_trueColour hn hd
    rw [hn] at hs
    exact ⟨_, exec_select_of_ok hs, fun _ => ⟨rfl, rfl⟩, rfl⟩
  case rejected =>
    refine ⟨_, exec_select_of_raised (selectPath_raises h), ?_, fun _ => ⟨rfl, rfl⟩, rfl⟩
    rw [enterFault_errInfo, BitVec.ofNat_toNat, BitVec.setWidth_eq]

end Sys2Proof.Machine

/-! SUPPORT. A palette mode whose views fit and whose indices all have their entry in the palette (43_composite.md R190,
R196, R208): no pixel raises or stops, so it ends in DONE; and that a palette of 2^depth entries has one for every
index. -/

namespace Sys2Proof.Machine

/-! ### Indices -/

section Index

variable {v : View} {d x y : Nat} {ch : Channel} {s : State} {b : Byte}

/-- A lane of a byte is as many bits as the depth says (41_sample.md R162). -/
theorem subByteSample_lt_two_pow (hd : d ≤ 8) (h : subByteSample v d x y ch s = .ok b) : b.toNat < 2 ^ d := by
  unfold subByteSample guarded at h
  split at h
  · cases h
  · obtain ⟨c, -, hc⟩ := Flow.andThen_eq_ok.mp h
    cases hc
    rw [bitField_toNat _ _ _ hd]
    exact Nat.mod_lt _ (Nat.two_pow_pos d)

/-- A sample at a palette depth is below 2^depth, the number of entries of a full palette (43_composite.md R208). -/
theorem sample_lt_two_pow (hd : paletteDepth v.depth = true) (h : sample v x y ch s = .ok b) :
    b.toNat < 2 ^ v.depth := by
  rcases paletteDepth_cases hd with e | e | e | e <;> rw [e] <;> simp only [sample, e] at h
  · exact subByteSample_lt_two_pow (d := 1) (by decide) h
  · exact subByteSample_lt_two_pow (d := 2) (by decide) h
  · exact subByteSample_lt_two_pow (d := 4) (by decide) h
  · exact b.isLt

end Index

/-! ### A palette picture without a fault -/

/-- What the pixels of a palette mode need (43_composite.md R192, R196): the three views lie in the window with the
dimensions of the palette and of the picture, and every index is below NCOLORS. -/
structure PaletteReady (s : State) : Prop where
  views : ViewsOk s
  pal : ∃ o, s.vPal = mkView o s.nColors.toNat 1 32 .bgra
  col : ∃ o d, s.vCol = mkView o (imgW s) (imgH s) d .c
  msk : ∃ o, s.vMsk = mkView o (imgW s) (imgH s) 1 .a
  index : ∀ x y i, sample s.vCol x (sourceRow (imgH s) y) .c s = .ok i → i.toNat < s.nColors.toNat

section Ready

variable {s : State} {x y : Nat}

/-- The pixels write OUT, on which nothing of it depends. -/
theorem PaletteReady.setOut (h : PaletteReady s) (m : Memory) : PaletteReady (setOut m s) :=
  ⟨h.views, h.pal, h.col, h.msk, h.index⟩

/-- A sample of a view of the window, by the dimensions and the format the view was built with. -/
theorem sample_mkView_of_viewsOk {k : Slot} {o w h d : Nat} {f : Fmt} {ch : Channel} (hs : ViewsOk s)
    (hk : viewOf k s = mkView o w h d f) (hx : x < w) (hy : y < h) (hc : ch ∈ fmtLetters f) :
    ∃ b, sample (viewOf k s) x y ch s = .ok b := by
  rw [hk]
  exact sample_of_viewsOk hs hk rfl hx hy hc

theorem PaletteReady.colour (h : PaletteReady s) (hx : x < imgW s) (hy : y < imgH s) :
    ∃ i, sample s.vCol x (sourceRow (imgH s) y) .c s = .ok i := by
  obtain ⟨o, d, hv⟩ := h.col
  exact sample_mkView_of_viewsOk (k := .col) h.views hv hx (sourceRow_lt hy) (List.mem_singleton.mpr rfl)

theorem PaletteReady.mask (h : PaletteReady s) (hx : x < imgW s) (hy : y < imgH s) :
    ∃ m, sample s.vMsk x (sourceRow (imgH s) y) .a s = .ok m := by
  obtain ⟨o, hv⟩ := h.msk
  exact sample_mkView_of_viewsOk (k := .msk) h.views hv hx (sourceRow_lt hy) (List.mem_singleton.mpr rfl)

theorem PaletteReady.entry (h : PaletteReady s) {i : Nat} (hi : i < s.nColors.toNat) {ch : Channel}
    (hc : ch ∈ fmtLetters .bgra) : ∃ b, sample s.vPal i 0 ch s = .ok b := by
  obtain ⟨o, hv⟩ := h.pal
  exact sample_mkView_of_viewsOk (k := .pal) h.views hv hi Nat.one_pos hc

/-- PIX.PAL writes its pixel and nothing else. -/
theorem PaletteReady.palettePixel (h : PaletteReady s) (hx : x < imgW s) (hy : y < imgH s) :
    ∃ m, palettePixel x y s = .ok (Machine.setOut m s) := by
  obtain ⟨i, hi⟩ := h.colour hx hy
  have hn : i.toNat < s.nColors.toNat := h.index x y i hi
  obtain ⟨r, hr⟩ := h.entry hn (ch := .r) (by decide)
  obtain ⟨g, hg⟩ := h.entry hn (ch := .g) (by decide)
  obtain ⟨b, hb⟩ := h.entry hn (ch := .b) (by decide)
  obtain ⟨a, ha⟩ := h.mask hx hy
  unfold Machine.palettePixel
  rw [onImage_ok hx hy]
  simp only [hi, hr, hg, hb, ha, Flow.ok_andThen, if_neg (Nat.not_le_of_lt hn)]
  exact ⟨_, emit_ok hx hy⟩

/-- All pixels are written, and the operation ends well (43_composite.md R209). -/
theorem PaletteReady.produce (h : PaletteReady s) :
    ∃ m, produce Machine.palettePixel s = .ok (finish (Machine.setOut m s)) := by
  have hpixel (x y : Nat) (u : State) (hu : ∃ m, u = Machine.setOut m s) (hx : x < imgW s) (hy : y < imgH s) :
      ∃ t, Machine.palettePixel x y u = .ok t ∧ ∃ m, t = Machine.setOut m s := by
    obtain ⟨m, rfl⟩ := hu
    obtain ⟨n, hn⟩ := (h.setOut m).palettePixel hx hy
    exact ⟨_, hn, n, rfl⟩
  obtain ⟨t, ht, m, rfl⟩ := imageLoop_answers hpixel (imgH s) 0 s ⟨s.out, rfl⟩ (by omega)
  refine ⟨m, ?_⟩
  unfold Machine.produce
  rw [ht, Flow.ok_andThen]

end Ready

/-! ### The views of a palette mode -/

/-- The block in a palette mode after SELECT (43_composite.md R190). -/
def paletteSelected (d : Nat) (size clrused : Word) (s : State) : State :=
  { s with
    path := .palette, hdrSize := size, hdrBitcount := BitVec.ofNat 32 d, hdrClrused := clrused
    nColors := BitVec.ofNat 32 (paletteCount d clrused.toNat) }

/-- The block in a palette mode before its first pixel, with the three views end to end (43_composite.md R192). -/
def paletteBuilt (d : Nat) (size clrused : Word) (s : State) : State :=
  { paletteSelected d size clrused s with
    vPal := mkView size.toNat (paletteCount d clrused.toNat) 1 32 .bgra
    vCol := mkView (palColOff size clrused d) (imgW s) (imgH s) d .c
    vMsk := mkView (planeEnd s (palColOff size clrused d) d) (imgW s) (imgH s) 1 .a }

section Built

variable {d : Nat} {size clrused : Word} {s : State}

@[simp] theorem paletteSelected_hdrSize : (paletteSelected d size clrused s).hdrSize = size := rfl
@[simp] theorem paletteSelected_len : len (paletteSelected d size clrused s) = len s := rfl
@[simp] theorem paletteSelected_imgW : imgW (paletteSelected d size clrused s) = imgW s := rfl
@[simp] theorem paletteSelected_imgH : imgH (paletteSelected d size clrused s) = imgH s := rfl

@[simp] theorem paletteSelected_nColors :
    (paletteSelected d size clrused s).nColors.toNat = paletteCount d clrused.toNat :=
  toNat_ofNat_word (paletteCount_lt clrused.isLt)

theorem paletteBuilt_nColors : (paletteBuilt d size clrused s).nColors.toNat = paletteCount d clrused.toNat :=
  paletteSelected_nColors (s := s) (size := size)

/-- SELECT takes every header of a palette depth to the palette path (42_select.md R173). -/
theorem selectPath_latchHeader_palette (hd : paletteDepth d = true) :
    selectPath (latchHeader size.toNat d clrused.toNat s) = .ok (paletteSelected d size clrused s) := by
  have hd8 := paletteDepth_le hd
  have hb : (latchHeader size.toNat d clrused.toNat s).hdrBitcount.toNat = d := toNat_ofNat_word (by omega)
  rw [selectPath_palette (by rw [hb]; exact paletteCount_ne_zero hd8 _) (by rw [hb]; exact hd), hb]
  simp only [setSelection, latchHeader, paletteSelected, BitVec.ofNat_toNat, BitVec.setWidth_eq]

/-- The palette ends where the colour plane starts: an entry is 4 bytes (43_composite.md R192). -/
theorem palette_end : size.toNat + viewSize (paletteCount d clrused.toNat) 1 32 = palColOff size clrused d := by
  rw [viewSize, stride_eq, palColOff]
  omega

theorem plane_end (o : Nat) : o + viewSize (imgW s) (imgH s) d = planeEnd s o d := by
  rw [viewSize_eq_rowBytes, planeEnd]

theorem viewEnd_palette :
    viewEnd (mkView size.toNat (paletteCount d clrused.toNat) 1 32 .bgra) = palColOff size clrused d := palette_end

theorem viewEnd_plane (o : Nat) (f : Fmt) : viewEnd (mkView o (imgW s) (imgH s) d f) = planeEnd s o d := plane_end o

theorem le_planeEnd (o : Nat) : o ≤ planeEnd s o d := Nat.le_add_right _ _

/-- The views lie end to end, so where the last one fits, the two before it do. -/
theorem palette_planes_fit (hf : planeEnd s (planeEnd s (palColOff size clrused d) d) 1 ≤ len s) :
    size.toNat + viewSize (paletteCount d clrused.toNat) 1 32 ≤ len s ∧
    palColOff size clrused d + viewSize (imgW s) (imgH s) d ≤ len s ∧
    planeEnd s (palColOff size clrused d) d + viewSize (imgW s) (imgH s) 1 ≤ len s := by
  rw [palette_end, plane_end, plane_end]
  have hcol : planeEnd s (palColOff size clrused d) d ≤ len s := (le_planeEnd _).trans hf
  exact ⟨(le_planeEnd _).trans hcol, hcol, hf⟩

theorem viewsOk_paletteBuilt (hd : paletteDepth d = true)
    (hf : planeEnd s (planeEnd s (palColOff size clrused d) d) 1 ≤ len s) : ViewsOk (paletteBuilt d size clrused s) := by
  obtain ⟨hpal, hcol, hmsk⟩ := palette_planes_fit hf
  intro k _
  cases k with
  | pal => exact ⟨rfl, hpal, rfl⟩
  | col => exact ⟨rfl, hcol, hd⟩
  | msk => exact ⟨rfl, hmsk, rfl⟩

/-- A palette mode on a payload that holds its views is what its pixels do. -/
theorem decodePalette_of_fits (hd : paletteDepth d = true)
    (hf : planeEnd s (planeEnd s (palColOff size clrused d) d) 1 ≤ len s) :
    decodePalette d size clrused s = produce palettePixel (paletteBuilt d size clrused s) := by
  obtain ⟨hpal, hcol, hmsk⟩ := palette_planes_fit hf
  unfold decodePalette
  rw [selectPath_latchHeader_palette hd, Flow.ok_andThen, paletteSelected_hdrSize, paletteSelected_nColors,
    makeView_fits (by simpa using hpal), Flow.ok_andThen]
  simp only [setView_pal_vPal, viewEnd_palette, setView_imgW, setView_imgH, paletteSelected_imgW, paletteSelected_imgH]
  rw [makeView_fits (by simpa using hcol), Flow.ok_andThen]
  simp only [setView_col_vCol, viewEnd_plane, setView_imgW, setView_imgH, paletteSelected_imgW, paletteSelected_imgH]
  rw [makeView_fits (by simpa using hmsk), Flow.ok_andThen]
  rfl

/-- Where every index of the colour plane is below NCOLORS, the pixels have all they need. -/
theorem paletteReady_paletteBuilt (hd : paletteDepth d = true)
    (hf : planeEnd s (planeEnd s (palColOff size clrused d) d) 1 ≤ len s)
    (hindex : ∀ x y i, sample (mkView (palColOff size clrused d) (imgW s) (imgH s) d .c) x (sourceRow (imgH s) y) .c s =
      .ok i → i.toNat < paletteCount d clrused.toNat) : PaletteReady (paletteBuilt d size clrused s) where
  views := viewsOk_paletteBuilt hd hf
  pal := ⟨size.toNat, by rw [paletteBuilt_nColors]; rfl⟩
  col := ⟨_, d, rfl⟩
  msk := ⟨_, rfl⟩
  index x y i hi := by rw [paletteBuilt_nColors]; exact hindex x y i hi

end Built

/-- The operation of a palette mode is that of its depth (43_composite.md R200 to R203). -/
theorem exec_paletteMode {d : Nat} {size clrused : Word} {i : Instr} (h : paletteMode d size clrused i) (s : State) :
    paletteDepth d = true ∧ exec i s = (decodePalette d size clrused s).outcome := by
  rcases h with ⟨rfl, rfl⟩ | ⟨rfl, rfl⟩ | ⟨rfl, rfl⟩ | ⟨rfl, rfl⟩ <;> exact ⟨rfl, rfl⟩

/-- Settles O33: NCOLORS is 2^depth, which no index of that depth reaches. -/
theorem fullPaletteNeverIndexRange : Obligations.FullPaletteNeverIndexRange := by
  intro s d size i hi hf
  obtain ⟨hd, he⟩ := exec_paletteMode hi s
  have hn : paletteCount d (0 : Word).toNat = 2 ^ d := paletteCount_of_le (c := 0) (paletteDepth_le hd)
  have hoff : palColOff size 0 d = size.toNat + 4 * 2 ^ d := by rw [palColOff, hn]
  rw [← hoff] at hf
  have hready : PaletteReady (paletteBuilt d size 0 s) :=
    paletteReady_paletteBuilt hd hf fun x y b hb => by
      rw [hn]
      exact sample_lt_two_pow (v := mkView (palColOff size 0 d) (imgW s) (imgH s) d .c) hd hb
  have hcolors : (paletteBuilt d size 0 s).nColors.toNat = 2 ^ d := paletteBuilt_nColors.trans hn
  obtain ⟨m, hm⟩ := hready.produce
  rw [he, decodePalette_of_fits hd hf, hm]
  exact ⟨_, rfl, rfl, hcolors⟩

end Sys2Proof.Machine

/-! SUPPORT. A picture painted pixel by pixel (43_composite.md R190, R199, R206): where a pixel stands in OUT, and what
the loops leave there when each body writes the pixel that a picture gives. -/

namespace Sys2Proof.Machine

/-! ### One pixel -/

/-- The four bytes of an output pixel (30_encoding.md R102). -/
structure Rgba where
  r : Byte
  g : Byte
  b : Byte
  a : Byte

/-- A memory with pixel (x, y) of a picture of width w written, in the order of Emit (43_composite.md R199). -/
def paint (w x y : Nat) (p : Rgba) (m : Memory) : Memory :=
  let o := outAddr w x y
  (((m.set o p.r).set (o + 1) p.g).set (o + 2) p.b).set (o + 3) p.a

/-- The four bytes of pixel (x, y) read as p. -/
def Shows (w x y : Nat) (p : Rgba) (m : Memory) : Prop :=
  let o := outAddr w x y
  m.get o = p.r ∧ m.get (o + 1) = p.g ∧ m.get (o + 2) = p.b ∧ m.get (o + 3) = p.a

/-- Pixel (x, y) comes before pixel (x', y') in row-major order (43_composite.md R206). -/
abbrev RowMajor (x y x' y' : Nat) : Prop := y < y' ∨ (y = y' ∧ x < x')

theorem emit_eq_paint {x y : Nat} {p : Rgba} {s : State} (hx : x < imgW s) (hy : y < imgH s) :
    emit x y p.r p.g p.b p.a s = .ok (setOut (paint (imgW s) x y p s.out) s) := emit_ok hx hy

section Paint

variable {w x y x' y' : Nat} {p q : Rgba} {m : Memory}

theorem paint_wf (hm : m.wf) : (paint w x y p m).wf :=
  Memory.wf_set (Memory.wf_set (Memory.wf_set (Memory.wf_set hm _ _) _ _) _ _) _ _

theorem shows_paint (hm : m.wf) : Shows w x y p (paint w x y p m) := by
  simp [Shows, paint, get_emit hm]

theorem get_paint_outside (hm : m.wf) {a : Nat} (ha : ¬(outAddr w x y ≤ a ∧ a < outAddr w x y + 4)) :
    (paint w x y p m).get a = m.get a := by
  unfold paint
  rw [get_emit hm, if_neg (by omega), if_neg (by omega), if_neg (by omega), if_neg (by omega)]

/-- Pixels stand in OUT in row-major order, four bytes each (20_memory.md R72). -/
theorem outAddr_add_four_le (hx : x < w) (h : RowMajor x y x' y') : outAddr w x y + 4 ≤ outAddr w x' y' := by
  unfold outAddr
  rcases h with hy | ⟨rfl, hx'⟩
  · have hrow : y * w + x < w * y' := row_inside hy hx
    rw [Nat.mul_comm w y'] at hrow
    omega
  · omega

theorem Shows.paint_later (h : Shows w x y q m) (hm : m.wf) (hx : x < w) (hxy : RowMajor x y x' y') :
    Shows w x y q (paint w x' y' p m) := by
  have hle := outAddr_add_four_le hx hxy
  obtain ⟨hr, hg, hb, ha⟩ := h
  exact ⟨(get_paint_outside hm (by omega)).trans hr, (get_paint_outside hm (by omega)).trans hg,
    (get_paint_outside hm (by omega)).trans hb, (get_paint_outside hm (by omega)).trans ha⟩

end Paint

/-! ### A picture, painted up to a pixel -/

/-- OUT is m after the pixels of s before (x, y): each shows what the picture gives, and no byte from the address of
(x, y) on has been written. The premise is the canonical form that every write keeps. -/
def Painted (pic : Nat → Nat → Rgba) (s : State) (x y : Nat) (m : Memory) : Prop :=
  s.out.wf → m.wf ∧
    (∀ x' y', x' < imgW s → RowMajor x' y' x y → Shows (imgW s) x' y' (pic x' y') m) ∧
    ∀ a, outAddr (imgW s) x y ≤ a → m.get a = s.out.get a

section Painted

variable {pic : Nat → Nat → Rgba} {s : State} {x y : Nat} {m : Memory}

theorem painted_start : Painted pic s 0 0 s.out := fun hw =>
  ⟨hw, fun _ _ _ h => by omega, fun _ _ => rfl⟩

theorem Painted.pixel (h : Painted pic s x y m) : Painted pic s (x + 1) y (paint (imgW s) x y (pic x y) m) := by
  intro hw
  obtain ⟨hm, hbefore, hfrom⟩ := h hw
  refine ⟨paint_wf hm, fun x' y' hx' hxy => ?_, fun a ha => ?_⟩
  · by_cases hlast : x' = x ∧ y' = y
    · obtain ⟨rfl, rfl⟩ := hlast
      exact shows_paint hm
    · have hxy' : RowMajor x' y' x y := by omega
      exact (hbefore x' y' hx' hxy').paint_later hm hx' hxy'
  · have hnext : outAddr (imgW s) (x + 1) y = outAddr (imgW s) x y + 4 := by unfold outAddr; omega
    rw [get_paint_outside hm (by omega)]
    exact hfrom a (by omega)

/-- The end of a row is the start of the next. -/
theorem Painted.row (h : Painted pic s (imgW s) y m) : Painted pic s 0 (y + 1) m := by
  intro hw
  obtain ⟨hm, hbefore, hfrom⟩ := h hw
  refine ⟨hm, fun x' y' hx' hxy => hbefore x' y' hx' (by omega), fun a ha => hfrom a ?_⟩
  have hnext : outAddr (imgW s) 0 (y + 1) = outAddr (imgW s) (imgW s) y := by unfold outAddr; ring
  omega

theorem painted_of_no_picture (hs : imgW s * imgH s = 0) : Painted pic s 0 (imgH s) s.out := by
  refine fun hw => ⟨hw, fun x' y' hx' hxy => ?_, fun _ _ => rfl⟩
  rcases Nat.mul_eq_zero.mp hs with h | h <;> omega

end Painted

/-! ### The loops -/

/-- Each body at a pixel before (x₀, y₀) writes what the picture gives, whatever the pixels before it wrote. -/
def PaintsBefore (body : Nat → Nat → State → Flow State) (pic : Nat → Nat → Rgba) (s : State) (x₀ y₀ : Nat) : Prop :=
  ∀ m x y, x < imgW s → y < imgH s → RowMajor x y x₀ y₀ →
    body x y (setOut m s) = .ok (setOut (paint (imgW s) x y (pic x y) m) s)

section Loops

variable {body : Nat → Nat → State → Flow State} {pic : Nat → Nat → Rgba} {s : State} {x₀ y₀ : Nat}

/-- Along a row. -/
theorem PaintsBefore.along_row (h : PaintsBefore body pic s x₀ y₀) {x y n : Nat} (hx : x + n ≤ imgW s)
    (hy : y < imgH s) (hxy : y < y₀ ∨ (y = y₀ ∧ x + n ≤ x₀)) {m : Memory} (hm : Painted pic s x y m) :
    ∃ m', Painted pic s (x + n) y m' ∧ pixelsFrom body (imgW s) (imgH s) x y (setOut m s) =
      pixelsFrom body (imgW s) (imgH s) (x + n) y (setOut m' s) := by
  induction n generalizing x m with
  | zero => exact ⟨m, hm, rfl⟩
  | succ n ih =>
    obtain ⟨m', hm', he⟩ := ih (x := x + 1) (by omega) (by omega) hm.pixel
    rw [show x + 1 + n = x + (n + 1) by omega] at hm' he
    refine ⟨m', hm', ?_⟩
    rw [pixelsFrom_pixel (by omega), h m x y (by omega) hy (by omega), Flow.ok_andThen, he]

/-- From the first pixel to the start of a row. -/
theorem PaintsBefore.to_row (h : PaintsBefore body pic s x₀ y₀) {y : Nat} (hy : y < imgH s) (hy₀ : y ≤ y₀) :
    ∃ m, Painted pic s 0 y m ∧ pixelsFrom body (imgW s) (imgH s) 0 0 s =
      pixelsFrom body (imgW s) (imgH s) 0 y (setOut m s) := by
  induction y with
  | zero => exact ⟨s.out, painted_start, rfl⟩
  | succ y ih =>
    obtain ⟨m, hm, he⟩ := ih (by omega) (by omega)
    obtain ⟨m', hm', he'⟩ := h.along_row (n := imgW s) (by omega) (by omega) (.inl hy₀) hm
    rw [Nat.zero_add] at hm' he'
    exact ⟨m', hm'.row, by rw [he, he', pixelsFrom_row hy]⟩

/-- All pixels before (x₀, y₀) are painted, and the rest is still to do. -/
theorem PaintsBefore.reaches (h : PaintsBefore body pic s x₀ y₀) (hx : x₀ ≤ imgW s) (hy : y₀ < imgH s)
    (hs : imgW s * imgH s > 0) :
    ∃ m, Painted pic s x₀ y₀ m ∧ produce body s = pixelsFrom body (imgW s) (imgH s) x₀ y₀ (setOut m s) := by
  obtain ⟨m, hm, he⟩ := h.to_row hy le_rfl
  obtain ⟨m', hm', he'⟩ := h.along_row (n := x₀) (by omega) hy (.inr ⟨rfl, by omega⟩) hm
  rw [Nat.zero_add] at hm' he'
  exact ⟨m', hm', by rw [produce_of_picture hs, he, he']⟩

/-- Where every pixel is painted, the operation ends well with the whole picture in OUT (43_composite.md R209). -/
theorem PaintsBefore.produce (h : PaintsBefore body pic s 0 (imgH s)) :
    ∃ m, Painted pic s 0 (imgH s) m ∧ Machine.produce body s = .ok (finish (setOut m s)) := by
  rcases Nat.eq_zero_or_pos (imgW s * imgH s) with hs | hs
  · exact ⟨s.out, painted_of_no_picture hs, produce_of_no_picture hs⟩
  · have hh : 0 < imgH s := Nat.pos_of_mul_pos_left hs
    have hlast : PaintsBefore body pic s (imgW s) (imgH s - 1) := fun m x y hx hy _ => h m x y hx hy (.inl hy)
    obtain ⟨m, hm, he⟩ := hlast.reaches le_rfl (by omega) hs
    refine ⟨m, ?_, by rw [he, pixelsFrom_end (by omega)]⟩
    simpa only [Nat.sub_add_cancel hh] using hm.row

/-- Where the first pixel that is not painted raises, the operation ends in its fault. -/
theorem PaintsBefore.produce_raised (h : PaintsBefore body pic s x₀ y₀) (hx : x₀ < imgW s) (hy : y₀ < imgH s)
    {f : State → State} (hf : ∀ m, body x₀ y₀ (setOut m s) = .raised (f (setOut m s))) :
    ∃ m, Painted pic s x₀ y₀ m ∧ Machine.produce body s = .raised (f (setOut m s)) := by
  obtain ⟨m, hm, he⟩ := h.reaches hx.le hy (Nat.mul_pos (by omega) (by omega))
  exact ⟨m, hm, by rw [he, pixelsFrom_pixel hx, hf, Flow.raised_andThen]⟩

end Loops

end Sys2Proof.Machine

/-! SUPPORT. The pixel bodies PIX.PAL, PIX.T24 and PIX.T32 on planes that lie in the window (43_composite.md R196 to
R198): the pixel that each writes, from the bytes of SRC, and where PIX.PAL raises IndexRange instead (R208). -/

namespace Sys2Proof.Machine

/-! ### Samples as the rules write them -/

section Samples

variable {s : State} {o h d x y : Nat} {f : Fmt} {ch : Channel}

theorem laneAt_lt (s : State) (d o x y : Nat) : laneAt s d o x y < 2 ^ d := Nat.mod_lt _ (Nat.two_pow_pos d)

/-- Every index of a palette mode is a byte's value. -/
theorem laneAt_lt_word (hd : paletteDepth d = true) (s : State) (o x y : Nat) : laneAt s d o x y < 2 ^ 32 :=
  (laneAt_lt s d o x y).trans_le (Nat.pow_le_pow_right (by decide) ((paletteDepth_le hd).trans (by decide)))

theorem rowBytes_32 (n : Nat) : rowBytes n 32 = 4 * n := by unfold rowBytes; omega

/-- A sample at a palette depth of a plane as wide as the picture is a lane (41_sample.md R162). -/
theorem sample_lane (hd : paletteDepth d = true) (hf : fmtLetters f = [ch]) (hx : x < imgW s) (hy : y < h)
    (hfit : o + viewSize (imgW s) h d ≤ len s) :
    ∃ b, sample (mkView o (imgW s) h d f) x y ch s = .ok b ∧ b.toNat = laneAt s d o x y := by
  have hc : ch ∈ fmtLetters f := by rw [hf]; exact List.mem_singleton.mpr rfl
  unfold laneAt
  rw [← stride_eq_rowBytes]
  have hsub (h4 : d = 1 ∨ d = 2 ∨ d = 4) := sample_subByte h4 hx hy hc hfit
  rcases paletteDepth_cases hd with rfl | rfl | rfl | rfl
  · exact ⟨_, hsub (by decide), bitField_toNat _ _ _ (by decide)⟩
  · exact ⟨_, hsub (by decide), bitField_toNat _ _ _ (by decide)⟩
  · exact ⟨_, hsub (by decide), bitField_toNat _ _ _ (by decide)⟩
  · have hi : channelIdx f ch = 0 := by simp [channelIdx, hf]
    refine ⟨_, sample_wholeByte (by decide) hx hy hc (by rw [hi]; decide) hfit, ?_⟩
    have hbyte (b : Byte) : b.toNat = b.toNat / 2 ^ 0 % 2 ^ 8 := by have := b.isLt; omega
    simpa [hi, srcByte, Nat.mod_one] using hbyte _

/-- The alpha of a mask lane (43_composite.md R195). -/
def alphaByte (m : Nat) : Byte := if m = 1 then 0 else 255

theorem alphaByte_toNat (m : Nat) : (alphaByte m).toNat = alphaOfBit m := by
  unfold alphaByte alphaOfBit
  split <;> rfl

theorem alphaFromMask_eq (b : Byte) : alphaFromMask b = alphaByte b.toNat := by
  unfold alphaFromMask alphaByte
  simp only [BitVec.toNat_eq]
  rfl

/-- A sample of a mask plane, as the alpha that it stands for. -/
theorem sample_alpha (hx : x < imgW s) (hy : y < h) (hfit : o + viewSize (imgW s) h 1 ≤ len s) :
    ∃ m, sample (mkView o (imgW s) h 1 .a) x y .a s = .ok m ∧ alphaFromMask m = alphaByte (laneAt s 1 o x y) := by
  obtain ⟨m, hm, hlane⟩ := sample_lane (f := .a) rfl rfl hx hy hfit
  exact ⟨m, hm, by rw [alphaFromMask_eq, hlane]⟩

end Samples

/-! ### PIX.PAL -/

/-- The pixel of the palette path (43_composite.md R196). -/
def palettePic (s : State) (d palOff colOff mskOff x y : Nat) : Rgba :=
  let sy := sourceRow (imgH s) y
  let e := palOff + 4 * laneAt s d colOff x sy
  ⟨s.src.get (e + 2), s.src.get (e + 1), s.src.get e, alphaByte (laneAt s 1 mskOff x sy)⟩

/-- The palette path's three views lie in the window, with NCOLORS entries and the picture's dimensions
(43_composite.md R192). -/
structure PalettePlanes (s : State) (d palOff colOff mskOff : Nat) : Prop where
  depth : paletteDepth d = true
  pal : s.vPal = mkView palOff s.nColors.toNat 1 32 .bgra
  col : s.vCol = mkView colOff (imgW s) (imgH s) d .c
  msk : s.vMsk = mkView mskOff (imgW s) (imgH s) 1 .a
  palFits : palOff + viewSize s.nColors.toNat 1 32 ≤ len s
  colFits : colOff + viewSize (imgW s) (imgH s) d ≤ len s
  mskFits : mskOff + viewSize (imgW s) (imgH s) 1 ≤ len s

section Palette

variable {s : State} {d palOff colOff mskOff x y : Nat}

/-- The pixels write OUT, on which the views do not depend. -/
theorem PalettePlanes.setOut (h : PalettePlanes s d palOff colOff mskOff) (m : Memory) :
    PalettePlanes (setOut m s) d palOff colOff mskOff :=
  ⟨h.depth, h.pal, h.col, h.msk, h.palFits, h.colFits, h.mskFits⟩

theorem PalettePlanes.sample_index (h : PalettePlanes s d palOff colOff mskOff) (hx : x < imgW s) (hy : y < imgH s) :
    ∃ i, sample s.vCol x (sourceRow (imgH s) y) .c s = .ok i ∧
      i.toNat = laneAt s d colOff x (sourceRow (imgH s) y) := by
  rw [h.col]
  exact sample_lane h.depth rfl hx (sourceRow_lt hy) h.colFits

theorem PalettePlanes.sample_mask (h : PalettePlanes s d palOff colOff mskOff) (hx : x < imgW s) (hy : y < imgH s) :
    ∃ m, sample s.vMsk x (sourceRow (imgH s) y) .a s = .ok m ∧
      alphaFromMask m = alphaByte (laneAt s 1 mskOff x (sourceRow (imgH s) y)) := by
  rw [h.msk]
  exact sample_alpha hx (sourceRow_lt hy) h.mskFits

/-- A channel of a palette entry: 4 bytes an entry, in the order B, G, R (30_encoding.md R103). -/
theorem PalettePlanes.sample_entry (h : PalettePlanes s d palOff colOff mskOff) {i : Nat} (hi : i < s.nColors.toNat)
    {ch : Channel} (hc : ch ∈ fmtLetters .bgra) :
    sample s.vPal i 0 ch s = .ok (s.src.get (palOff + 4 * i + channelIdx .bgra ch)) := by
  rw [h.pal, sample_wholeByte (by decide) hi Nat.one_pos hc (channelIdx_lt hc) h.palFits]
  rw [Nat.zero_mul, Nat.add_zero, Nat.mul_comm i]

/-- PIX.PAL at a pixel whose index has an entry. -/
theorem PalettePlanes.pixel (h : PalettePlanes s d palOff colOff mskOff) (hx : x < imgW s) (hy : y < imgH s)
    (hi : laneAt s d colOff x (sourceRow (imgH s) y) < s.nColors.toNat) :
    palettePixel x y s =
      .ok (Machine.setOut (paint (imgW s) x y (palettePic s d palOff colOff mskOff x y) s.out) s) := by
  obtain ⟨i, hcol, hlane⟩ := h.sample_index hx hy
  obtain ⟨m, hmsk, halpha⟩ := h.sample_mask hx hy
  unfold palettePixel
  rw [onImage_ok hx hy]
  simp only [hcol, Flow.ok_andThen, if_neg (Nat.not_le_of_lt hi), h.sample_entry hi (ch := .r) (by decide),
    h.sample_entry hi (ch := .g) (by decide), h.sample_entry hi (ch := .b) (by decide), hmsk, halpha, hlane]
  exact emit_eq_paint (p := palettePic s d palOff colOff mskOff x y) hx hy

/-- PIX.PAL at a pixel whose index has none (43_composite.md R208). -/
theorem PalettePlanes.pixel_raised (h : PalettePlanes s d palOff colOff mskOff) (hx : x < imgW s) (hy : y < imgH s)
    (hi : s.nColors.toNat ≤ laneAt s d colOff x (sourceRow (imgH s) y)) :
    palettePixel x y s =
      .raised (enterFault .indexRange none (laneAt s d colOff x (sourceRow (imgH s) y)) s) := by
  obtain ⟨i, hcol, hlane⟩ := h.sample_index hx hy
  rw [← hlane] at hi ⊢
  unfold palettePixel
  rw [onImage_ok hx hy]
  simp only [hcol, Flow.ok_andThen, if_pos hi]
  rfl

end Palette

/-! ### PIX.T24 and PIX.T32 -/

/-- The pixel of depth 24 (43_composite.md R197). -/
def pic24 (s : State) (colOff mskOff x y : Nat) : Rgba :=
  let sy := sourceRow (imgH s) y
  let p := colOff + sy * rowBytes (imgW s) 24 + 3 * x
  ⟨s.src.get (p + 2), s.src.get (p + 1), s.src.get p, alphaByte (laneAt s 1 mskOff x sy)⟩

/-- The pixel of depth 32 (43_composite.md R198). -/
def pic32 (s : State) (colOff x y : Nat) : Rgba :=
  let p := colOff + sourceRow (imgH s) y * (4 * imgW s) + 4 * x
  ⟨s.src.get (p + 2), s.src.get (p + 1), s.src.get p, s.src.get (p + 3)⟩

/-- The two views of depth 24 lie in the window (43_composite.md R193). -/
structure Planes24 (s : State) (colOff mskOff : Nat) : Prop where
  col : s.vCol = mkView colOff (imgW s) (imgH s) 24 .bgr
  msk : s.vMsk = mkView mskOff (imgW s) (imgH s) 1 .a
  colFits : colOff + viewSize (imgW s) (imgH s) 24 ≤ len s
  mskFits : mskOff + viewSize (imgW s) (imgH s) 1 ≤ len s

/-- The one view of depth 32 lies in the window. -/
structure Plane32 (s : State) (colOff : Nat) : Prop where
  col : s.vCol = mkView colOff (imgW s) (imgH s) 32 .bgra
  colFits : colOff + viewSize (imgW s) (imgH s) 32 ≤ len s

section TrueColour

variable {s : State} {colOff mskOff x y : Nat}

theorem Planes24.setOut (h : Planes24 s colOff mskOff) (m : Memory) : Planes24 (setOut m s) colOff mskOff :=
  ⟨h.col, h.msk, h.colFits, h.mskFits⟩

theorem Plane32.setOut (h : Plane32 s colOff) (m : Memory) : Plane32 (setOut m s) colOff := ⟨h.col, h.colFits⟩

theorem Planes24.sample_channel (h : Planes24 s colOff mskOff) (hx : x < imgW s) (hy : y < imgH s) {ch : Channel}
    (hc : ch ∈ fmtLetters .bgr) :
    sample s.vCol x (sourceRow (imgH s) y) ch s = .ok (s.src.get
      (colOff + sourceRow (imgH s) y * rowBytes (imgW s) 24 + 3 * x + channelIdx .bgr ch)) := by
  rw [h.col, sample_wholeByte (by decide) hx (sourceRow_lt hy) hc (channelIdx_lt hc) h.colFits, stride_eq_rowBytes,
    Nat.mul_comm x]

theorem Planes24.sample_mask (h : Planes24 s colOff mskOff) (hx : x < imgW s) (hy : y < imgH s) :
    ∃ m, sample s.vMsk x (sourceRow (imgH s) y) .a s = .ok m ∧
      alphaFromMask m = alphaByte (laneAt s 1 mskOff x (sourceRow (imgH s) y)) := by
  rw [h.msk]
  exact sample_alpha hx (sourceRow_lt hy) h.mskFits

theorem Plane32.sample_channel (h : Plane32 s colOff) (hx : x < imgW s) (hy : y < imgH s) {ch : Channel}
    (hc : ch ∈ fmtLetters .bgra) :
    sample s.vCol x (sourceRow (imgH s) y) ch s = .ok (s.src.get
      (colOff + sourceRow (imgH s) y * (4 * imgW s) + 4 * x + channelIdx .bgra ch)) := by
  rw [h.col, sample_wholeByte (by decide) hx (sourceRow_lt hy) hc (channelIdx_lt hc) h.colFits, stride_eq_rowBytes,
    rowBytes_32, Nat.mul_comm x]

theorem Planes24.pixel (h : Planes24 s colOff mskOff) (hx : x < imgW s) (hy : y < imgH s) :
    trueColour24Pixel x y s = .ok (Machine.setOut (paint (imgW s) x y (pic24 s colOff mskOff x y) s.out) s) := by
  obtain ⟨m, hmsk, halpha⟩ := h.sample_mask hx hy
  unfold trueColour24Pixel
  rw [onImage_ok hx hy]
  simp only [h.sample_channel hx hy (ch := .r) (by decide), h.sample_channel hx hy (ch := .g) (by decide),
    h.sample_channel hx hy (ch := .b) (by decide), hmsk, halpha, Flow.ok_andThen]
  exact emit_eq_paint (p := pic24 s colOff mskOff x y) hx hy

theorem Plane32.pixel (h : Plane32 s colOff) (hx : x < imgW s) (hy : y < imgH s) :
    trueColour32Pixel x y s = .ok (Machine.setOut (paint (imgW s) x y (pic32 s colOff x y) s.out) s) := by
  unfold trueColour32Pixel
  rw [onImage_ok hx hy]
  simp only [h.sample_channel hx hy (ch := .r) (by decide), h.sample_channel hx hy (ch := .g) (by decide),
    h.sample_channel hx hy (ch := .b) (by decide), h.sample_channel hx hy (ch := .a) (by decide), Flow.ok_andThen]
  exact emit_eq_paint (p := pic32 s colOff x y) hx hy

end TrueColour
end Sys2Proof.Machine

/-! SUPPORT. The pixel bodies as the sequencer's steps (43_composite.md R191, R196 to R198): in P_PIX the views of the
invariant are the planes of the path, so each step writes its pixel and goes to the next one. -/

namespace Sys2Proof.Machine

/-! ### The planes of a block in P_PIX -/

section Planes

variable {s : State}

/-- A valid view of the invariant lies in the window. -/
theorem fits_of_viewsOk {k : Slot} {o w h d : Nat} {f : Fmt} (hs : ViewsOk s) (hk : viewOf k s = mkView o w h d f) :
    o + viewSize w h d ≤ len s := by
  obtain ⟨-, hfit, -⟩ := hs k (by rw [hk]; rfl)
  rw [hk] at hfit
  exact hfit

theorem viewEnd_paletteView (s : State) : viewEnd (paletteView s) = s.hdrSize.toNat + 4 * s.nColors.toNat := by
  show s.hdrSize.toNat + viewSize s.nColors.toNat 1 32 = _
  rw [viewSize_eq_rowBytes, rowBytes_32, Nat.mul_one]

theorem palettePlanes_of_inv (h : BlockInv s) (hp : s.phase = .pix) (hpath : s.path = .palette) :
    let colOff := s.hdrSize.toNat + 4 * s.nColors.toNat
    PalettePlanes s s.hdrBitcount.toNat s.hdrSize.toNat colOff (planeEnd s colOff s.hdrBitcount.toNat) := by
  intro colOff
  obtain ⟨-, -, -, -, hpal, hcol, hmsk⟩ := h.pc
  obtain ⟨-, hhdr⟩ := h.header
  obtain ⟨-, hdepth, -⟩ := hhdr (by rw [hp]; rfl)
  have epal : s.vPal = paletteView s := (hpal (.inr (.inr (.inl hp)))).1 hpath
  have ecol : s.vCol = mkView colOff (imgW s) (imgH s) s.hdrBitcount.toNat .c := by
    rw [hcol (.inr (.inl hp)), colourPlane, if_pos hpath, viewEnd_paletteView]
  have emsk : s.vMsk = mkView (planeEnd s colOff s.hdrBitcount.toNat) (imgW s) (imgH s) 1 .a := by
    rw [(hmsk (.inl hp)).1 (.inl hpath), maskPlane, ← hcol (.inr (.inl hp)), ecol, viewEnd_plane]
  exact ⟨(hdepth hpath).2, epal, ecol, emsk, fits_of_viewsOk (k := .pal) h.views epal,
    fits_of_viewsOk (k := .col) h.views ecol, fits_of_viewsOk (k := .msk) h.views emsk⟩

theorem colourPlane_trueColour (h : BlockInv s) (hp : s.phase = .pix) (hpath : s.path = .trueColour) :
    s.vCol = mkView s.hdrSize.toNat (imgW s) (imgH s) s.hdrBitcount.toNat (trueColourFmt s.hdrBitcount.toNat) := by
  obtain ⟨-, -, -, -, -, hcol, -⟩ := h.pc
  rw [hcol (.inr (.inl hp)), colourPlane, if_neg (by rw [hpath]; decide)]

theorem planes24_of_inv (h : BlockInv s) (hp : s.phase = .pix) (hpath : s.path = .trueColour)
    (hb : s.hdrBitcount.toNat = 24) : Planes24 s s.hdrSize.toNat (planeEnd s s.hdrSize.toNat 24) := by
  obtain ⟨-, -, -, -, -, hcol, hmsk⟩ := h.pc
  have ecol := colourPlane_trueColour h hp hpath
  rw [hb] at ecol
  have emsk : s.vMsk = mkView (planeEnd s s.hdrSize.toNat 24) (imgW s) (imgH s) 1 .a := by
    rw [(hmsk (.inl hp)).1 (.inr hb), maskPlane, ← hcol (.inr (.inl hp)), ecol, viewEnd_plane]
  exact ⟨ecol, emsk, fits_of_viewsOk (k := .col) h.views ecol, fits_of_viewsOk (k := .msk) h.views emsk⟩

theorem plane32_of_inv (h : BlockInv s) (hp : s.phase = .pix) (hpath : s.path = .trueColour)
    (hb : s.hdrBitcount.toNat = 32) : Plane32 s s.hdrSize.toNat := by
  have ecol := colourPlane_trueColour h hp hpath
  rw [hb] at ecol
  exact ⟨ecol, fits_of_viewsOk (k := .col) h.views ecol⟩

end Planes

/-! ### The step after a pixel -/

section Step

variable {s t : State} {x y : Nat} {p : Rgba}

theorem nextPixel_advancePixel (s : State) (x y : Nat) : NextPixel s (advancePixel x y s) x y := by
  unfold advancePixel
  refine ⟨fun hx => ?_, fun hx hy => ?_, fun hx hy => ?_⟩
  · rw [if_pos hx]
    exact ⟨rfl, rfl, rfl⟩
  · rw [if_neg (by omega), if_pos hy]
    exact ⟨rfl, rfl, rfl⟩
  · rw [if_neg (by omega), if_neg (by omega)]
    rfl

theorem advancePixel_frame (x y : Nat) (s : State) :
    advancePixel x y s = { s with
      phase := (advancePixel x y s).phase, y := (advancePixel x y s).y, x := (advancePixel x y s).x } := by
  unfold advancePixel
  split
  · rfl
  split <;> rfl

/-- A body that writes its pixel, as a step: the four bytes, pc at the next pixel, and all else as it was. -/
theorem pixelStep_of_paint {m : Flow State} (hw : s.out.wf)
    (hm : m = .ok (setOut (paint (imgW s) x y p s.out) s)) :
    ∃ t, (m.andThen fun u => .ok (advancePixel x y u)).outcome = .next t ∧ Shows (imgW t) x y p t.out ∧
      NextPixel s t x y ∧ SameBytesButPixel s t x y ∧
      t = { s with out := t.out, phase := t.phase, y := t.y, x := t.x } := by
  subst hm
  have hnext := nextPixel_advancePixel (setOut (paint (imgW s) x y p s.out) s) x y
  refine ⟨_, rfl, ?_, hnext, ⟨fun a => ?_, fun a ha => ?_⟩, ?_⟩
  · rw [advancePixel_imgW, setOut_imgW, advancePixel_out, setOut_out]
    exact shows_paint hw
  · rw [advancePixel_src, setOut_src]
  · rw [advancePixel_out, setOut_out]
    exact get_paint_outside hw ha
  · rw [advancePixel_out]
    exact advancePixel_frame ..

/-- A pixel that shows p, in the numbers of the statements. -/
theorem pixelIs_of_shows (h : Shows (imgW t) x y p t.out) :
    PixelIs t x y p.r.toNat p.g.toNat p.b.toNat p.a.toNat := by
  obtain ⟨hr, hg, hb, ha⟩ := h
  exact ⟨congrArg BitVec.toNat hr, congrArg BitVec.toNat hg, congrArg BitVec.toNat hb, congrArg BitVec.toNat ha⟩

theorem palettePixelIs_of_shows {d palOff colOff mskOff : Nat}
    (h : Shows (imgW t) x y (palettePic s d palOff colOff mskOff x y) t.out) :
    PalettePixelIs s t d palOff colOff mskOff x y := by
  have hp := pixelIs_of_shows h
  simp only [palettePic, alphaByte_toNat] at hp
  exact hp

theorem pixel24Is_of_shows {colOff mskOff : Nat} (h : Shows (imgW t) x y (pic24 s colOff mskOff x y) t.out) :
    Pixel24Is s t colOff mskOff x y := by
  have hp := pixelIs_of_shows h
  simp only [pic24, alphaByte_toNat] at hp
  exact hp

theorem pixel32Is_of_shows {colOff : Nat} (h : Shows (imgW t) x y (pic32 s colOff x y) t.out) :
    Pixel32Is s t colOff x y := pixelIs_of_shows h

end Step

/-- Settles O23: the index has its entry, so the pixel is written. -/
theorem pixPalWritesPaletteColour : Obligations.PixPalWritesPaletteColour := by
  intro s x y h hp hpath hx hy d colOff hi
  have hpix := (palettePlanes_of_inv h hp hpath).pixel hx hy hi
  obtain ⟨t, ht, hshows, hrest⟩ := pixelStep_of_paint h.memory.2 hpix
  exact ⟨t, ht, palettePixelIs_of_shows hshows, hrest⟩

/-- Settles O24: the index has no entry, so PIX.PAL raises before it writes. -/
theorem pixPalIndexRange : Obligations.PixPalIndexRange := by
  intro s x y h hp hpath hx hy i hi
  have hplanes := palettePlanes_of_inv h hp hpath
  have hpix : palettePixel x y s = .raised (enterFault .indexRange none i s) := hplanes.pixel_raised hx hy hi
  refine ⟨enterFault .indexRange none i s, ?_, toNat_ofNat_word (laneAt_lt_word hplanes.depth ..),
    fun _ => ⟨rfl, rfl⟩, rfl⟩
  simp only [exec, execPixPal, hpix, Flow.raised_andThen, Flow.outcome_raised]

/-- Settles O25: the planes of depth 24 are those of the invariant. -/
theorem pixT24WritesColourAndMask : Obligations.PixT24WritesColourAndMask := by
  intro s x y h hp hpath hb hx hy
  obtain ⟨t, ht, hshows, hrest⟩ := pixelStep_of_paint h.memory.2 ((planes24_of_inv h hp hpath hb).pixel hx hy)
  exact ⟨t, ht, pixel24Is_of_shows hshows, hrest⟩

/-- Settles O26: the plane of depth 32 is that of the invariant. -/
theorem pixT32CopiesColourAndAlpha : Obligations.PixT32CopiesColourAndAlpha := by
  intro s x y h hp hpath hb hx hy
  obtain ⟨t, ht, hshows, hrest⟩ := pixelStep_of_paint h.memory.2 ((plane32_of_inv h hp hpath hb).pixel hx hy)
  exact ⟨t, ht, pixel32Is_of_shows hshows, hrest⟩

/-- Settles O27: each body looks at its operands first. -/
theorem pixelOutsidePictureRefused : Obligations.PixelOutsidePictureRefused := by
  intro s x y hxy
  have hout (m : Flow State) : onImage x y s m = .refused .pixelOutsideImage := if_neg (by omega)
  simp only [exec, execPixPal, execPixT24, execPixT32, palettePixel, trueColour24Pixel, trueColour32Pixel, hout,
    Flow.refused_andThen, Flow.outcome_refused, and_self]

/-- Settles O39: in each of the three phases the sequencer invokes nothing. -/
theorem nothingMovesOutsideBusy : Obligations.NothingMovesOutsideBusy := by
  intro s hi hc hp
  have hnone : sequencer s = none := by
    rcases hp with hp | hp | hp
    · exact sequencer_idle hp
    · exact sequencer_done hp
    · exact sequencer_fault hp
  exact step_waits hi hc hnone

end Sys2Proof.Machine

/-! SUPPORT. The decode modes as wholes (43_composite.md R190, R200 to R208): the views with their operands written out,
the truncation of one of them, and, where all fit, the picture that the pixels paint, up to the first whose index has no
palette entry. -/

namespace Sys2Proof.Machine

/-! ### What a painted picture leaves in OUT -/

theorem Painted.picture {pic : Nat → Nat → Rgba} {s : State} {m : Memory} (h : Painted pic s 0 (imgH s) m)
    (hw : s.out.wf) :
    (∀ x y, x < imgW s → y < imgH s → Shows (imgW s) x y (pic x y) m) ∧
      ∀ a, imgW s * imgH s * 4 ≤ a → m.get a = s.out.get a := by
  obtain ⟨-, hshows, hfrom⟩ := h hw
  refine ⟨fun x y hx hy => hshows x y hx (.inl hy), fun a ha => hfrom a ?_⟩
  rwa [outAddr, Nat.add_zero, Nat.mul_comm (imgH s)]

/-! ### A view that does not fit -/

/-- This part of an operation ends in TruncatedData (40_view.md R133). -/
def Truncates (m : Flow State) : Prop := ∃ k o u, m = .raised (enterFault .truncatedData (some k) o u)

theorem makeView_andThen_truncates {k : Slot} {o w h d : Nat} {f : Fmt} {s : State} {rest : State → Flow State}
    (hrest : o + viewSize w h d ≤ len s → Truncates (rest (setView k (mkView o w h d f) s))) :
    Truncates ((makeView k o w h d f s).andThen rest) := by
  rcases makeView_cases k o w h d f s with ⟨hfit, hm⟩ | ⟨-, hm⟩ <;> rw [hm]
  · exact hrest hfit
  · exact ⟨k, o, s, rfl⟩

/-! ### The palette modes -/

section Palette

variable {d : Nat} {size clrused : Word} {s : State}

/-- The three views end to end, each operand written out (43_composite.md R192). -/
theorem decodePalette_eq (hd : paletteDepth d = true) :
    decodePalette d size clrused s =
      (makeView .pal size.toNat (paletteCount d clrused.toNat) 1 32 .bgra (paletteSelected d size clrused s)).andThen
        fun t => (makeView .col (palColOff size clrused d) (imgW s) (imgH s) d .c t).andThen
        fun t => (makeView .msk (planeEnd s (palColOff size clrused d) d) (imgW s) (imgH s) 1 .a t).andThen
        (produce palettePixel) := by
  unfold decodePalette
  rw [selectPath_latchHeader_palette hd, Flow.ok_andThen, paletteSelected_hdrSize, paletteSelected_nColors]
  refine Flow.andThen_congr fun t ht => ?_
  obtain rfl := makeView_eq_ok ht
  rw [setView_pal_vPal, viewEnd_palette, setView_imgW, setView_imgH, paletteSelected_imgW, paletteSelected_imgH]
  refine Flow.andThen_congr fun u hu => ?_
  obtain rfl := makeView_eq_ok hu
  rw [setView_col_vCol, viewEnd_plane]
  simp only [setView_imgW, setView_imgH, paletteSelected_imgW, paletteSelected_imgH]

theorem decodePalette_truncates (hd : paletteDepth d = true)
    (hf : len s < planeEnd s (planeEnd s (palColOff size clrused d) d) 1) :
    Truncates (decodePalette d size clrused s) := by
  rw [decodePalette_eq hd]
  refine makeView_andThen_truncates fun _ => makeView_andThen_truncates fun _ =>
    makeView_andThen_truncates fun hfit => absurd hfit ?_
  rw [plane_end]
  simpa using hf

/-- The palette view, the first of the three, does not fit. -/
theorem decodePalette_pal_truncated (hd : paletteDepth d = true) (hf : len s < palColOff size clrused d) :
    decodePalette d size clrused s =
      .raised (enterFault .truncatedData (some .pal) size.toNat (paletteSelected d size clrused s)) := by
  rw [decodePalette_eq hd, makeView_truncated (by rw [palette_end]; exact hf), Flow.raised_andThen]

theorem palettePlanes_built (hd : paletteDepth d = true)
    (hf : planeEnd s (planeEnd s (palColOff size clrused d) d) 1 ≤ len s) :
    PalettePlanes (paletteBuilt d size clrused s) d size.toNat (palColOff size clrused d)
      (planeEnd s (palColOff size clrused d) d) := by
  obtain ⟨hpal, hcol, hmsk⟩ := palette_planes_fit hf
  refine ⟨hd, ?_, rfl, rfl, ?_, hcol, hmsk⟩
  · rw [paletteBuilt_nColors]
    rfl
  · rw [paletteBuilt_nColors]
    exact hpal

/-- PIX.PAL paints every pixel before the first whose index has no entry. -/
theorem PalettePlanes.paintsBefore {palOff colOff mskOff x₀ y₀ : Nat} (h : PalettePlanes s d palOff colOff mskOff)
    (hi : ∀ x y, x < imgW s → y < imgH s → RowMajor x y x₀ y₀ →
      laneAt s d colOff x (sourceRow (imgH s) y) < s.nColors.toNat) :
    PaintsBefore palettePixel (palettePic s d palOff colOff mskOff) s x₀ y₀ :=
  fun m x y hx hy hxy => (h.setOut m).pixel hx hy (hi x y hx hy hxy)

/-- Every index has its entry: the whole picture is painted (43_composite.md R210 (c)). -/
theorem decodePalette_paints (hd : paletteDepth d = true)
    (hf : planeEnd s (planeEnd s (palColOff size clrused d) d) 1 ≤ len s)
    (hi : ∀ x y, x < imgW s → y < imgH s →
      laneAt s d (palColOff size clrused d) x (sourceRow (imgH s) y) < paletteCount d clrused.toNat) :
    ∃ m, Painted (palettePic s d size.toNat (palColOff size clrused d) (planeEnd s (palColOff size clrused d) d)) s
        0 (imgH s) m ∧
      decodePalette d size clrused s = .ok (finish (setOut m (paletteBuilt d size clrused s))) := by
  rw [decodePalette_of_fits hd hf]
  exact PaintsBefore.produce ((palettePlanes_built hd hf).paintsBefore fun x y hx hy _ => by
    rw [paletteBuilt_nColors]
    exact hi x y hx hy)

/-- The first index without an entry: IndexRange, with the pixels before it painted (60_exceptions.md R237, R239). -/
theorem decodePalette_indexRange {x₀ y₀ : Nat} (hd : paletteDepth d = true)
    (hf : planeEnd s (planeEnd s (palColOff size clrused d) d) 1 ≤ len s) (hx : x₀ < imgW s) (hy : y₀ < imgH s)
    (hbad : paletteCount d clrused.toNat ≤ laneAt s d (palColOff size clrused d) x₀ (sourceRow (imgH s) y₀))
    (hi : ∀ x y, x < imgW s → RowMajor x y x₀ y₀ →
      laneAt s d (palColOff size clrused d) x (sourceRow (imgH s) y) < paletteCount d clrused.toNat) :
    ∃ m, Painted (palettePic s d size.toNat (palColOff size clrused d) (planeEnd s (palColOff size clrused d) d)) s
        x₀ y₀ m ∧
      decodePalette d size clrused s = .raised
        (enterFault .indexRange none (laneAt s d (palColOff size clrused d) x₀ (sourceRow (imgH s) y₀))
          (setOut m (paletteBuilt d size clrused s))) := by
  have hplanes := palettePlanes_built hd hf
  rw [decodePalette_of_fits hd hf]
  refine PaintsBefore.produce_raised (hplanes.paintsBefore fun x y hx _ hxy => ?_) hx hy fun m =>
    (hplanes.setOut m).pixel_raised hx hy ?_
  · rw [paletteBuilt_nColors]
    exact hi x y hx hxy
  · rw [setOut_nColors, paletteBuilt_nColors]
    exact hbad

end Palette

/-! ### Depths 24 and 32 -/

/-- The block in a true-colour mode after SELECT (43_composite.md R190). -/
def trueColourSelected (d : Nat) (size : Word) (s : State) : State :=
  { s with path := .trueColour, hdrSize := size, hdrBitcount := BitVec.ofNat 32 d, hdrClrused := 0, nColors := 0 }

/-- The block at depth 24 before its first pixel (43_composite.md R193). -/
def built24 (size : Word) (s : State) : State :=
  { trueColourSelected 24 size s with
    vCol := mkView size.toNat (imgW s) (imgH s) 24 .bgr
    vMsk := mkView (planeEnd s size.toNat 24) (imgW s) (imgH s) 1 .a }

/-- The block at depth 32 before its first pixel; no mask is built (43_composite.md R193). -/
def built32 (size : Word) (s : State) : State :=
  { trueColourSelected 32 size s with vCol := mkView size.toNat (imgW s) (imgH s) 32 .bgra }

section TrueColour

variable {d : Nat} {size : Word} {s : State}

@[simp] theorem trueColourSelected_hdrSize : (trueColourSelected d size s).hdrSize = size := rfl
@[simp] theorem trueColourSelected_len : len (trueColourSelected d size s) = len s := rfl
@[simp] theorem trueColourSelected_imgW : imgW (trueColourSelected d size s) = imgW s := rfl
@[simp] theorem trueColourSelected_imgH : imgH (trueColourSelected d size s) = imgH s := rfl

theorem selectPath_latchHeader_trueColour (hd : trueColourDepth d = true) :
    selectPath (latchHeader size.toNat d 0 s) = .ok (trueColourSelected d size s) := by
  have hd32 : 8 < d ∧ d ≤ 32 := by rcases trueColour_cases hd with h | h <;> omega
  have hb : (latchHeader size.toNat d 0 s).hdrBitcount.toNat = d := toNat_ofNat_word (by omega)
  have hn : paletteCount d (latchHeader size.toNat d 0 s).hdrClrused.toNat = 0 := paletteCount_of_gt hd32.1
  rw [selectPath_trueColour (by rw [hb]; exact hn) (by rw [hb]; exact hd), hb, hn]
  simp only [setSelection, latchHeader, trueColourSelected, BitVec.ofNat_toNat, BitVec.setWidth_eq]
  rfl

/-- DEC.T24 after SELECT: its two views end to end, then the pixels (43_composite.md R193). -/
def decode24 (size : Word) (s : State) : Flow State :=
  (makeView .col size.toNat (imgW s) (imgH s) 24 .bgr (trueColourSelected 24 size s)).andThen fun t =>
    (makeView .msk (planeEnd s size.toNat 24) (imgW s) (imgH s) 1 .a t).andThen (produce trueColour24Pixel)

/-- DEC.T32 after SELECT: its one view, then the pixels (43_composite.md R193). -/
def decode32 (size : Word) (s : State) : Flow State :=
  (makeView .col size.toNat (imgW s) (imgH s) 32 .bgra (trueColourSelected 32 size s)).andThen
    (produce trueColour32Pixel)

theorem execDecT24_eq : execDecT24 size s = (decode24 size s).outcome := by
  unfold execDecT24 decode24
  rw [selectPath_latchHeader_trueColour rfl, Flow.ok_andThen, trueColourSelected_hdrSize, trueColourSelected_imgW,
    trueColourSelected_imgH]
  refine congrArg Flow.outcome (Flow.andThen_congr fun t ht => ?_)
  obtain rfl := makeView_eq_ok ht
  rw [setView_col_vCol, viewEnd_plane]
  simp only [setView_imgW, setView_imgH, trueColourSelected_imgW, trueColourSelected_imgH]

theorem execDecT32_eq : execDecT32 size s = (decode32 size s).outcome := by
  unfold execDecT32
  rw [selectPath_latchHeader_trueColour rfl, Flow.ok_andThen]
  rfl

theorem decode24_truncates (hf : len s < planeEnd s (planeEnd s size.toNat 24) 1) : Truncates (decode24 size s) := by
  refine makeView_andThen_truncates fun _ => makeView_andThen_truncates fun hfit => absurd hfit ?_
  rw [plane_end]
  simpa using hf

theorem decode32_truncates (hf : len s < planeEnd s size.toNat 32) : Truncates (decode32 size s) := by
  refine makeView_andThen_truncates fun hfit => absurd hfit ?_
  rw [plane_end]
  simpa using hf

/-- The colour view, the first of the two, does not fit. -/
theorem decode24_col_truncated (hf : len s < planeEnd s size.toNat 24) :
    decode24 size s =
      .raised (enterFault .truncatedData (some .col) size.toNat (trueColourSelected 24 size s)) := by
  rw [decode24, makeView_truncated (by rw [plane_end]; exact hf), Flow.raised_andThen]

theorem decode32_col_truncated (hf : len s < planeEnd s size.toNat 32) :
    decode32 size s =
      .raised (enterFault .truncatedData (some .col) size.toNat (trueColourSelected 32 size s)) := by
  rw [decode32, makeView_truncated (by rw [plane_end]; exact hf), Flow.raised_andThen]

/-- The two views lie end to end, so where the mask fits, the colour view does (40_view.md R135). -/
theorem planes24_fit (hf : planeEnd s (planeEnd s size.toNat 24) 1 ≤ len s) :
    size.toNat + viewSize (imgW s) (imgH s) 24 ≤ len s ∧
    planeEnd s size.toNat 24 + viewSize (imgW s) (imgH s) 1 ≤ len s := by
  rw [plane_end, plane_end]
  exact ⟨(le_planeEnd _).trans hf, hf⟩

theorem decode24_of_fits (hf : planeEnd s (planeEnd s size.toNat 24) 1 ≤ len s) :
    decode24 size s = produce trueColour24Pixel (built24 size s) := by
  obtain ⟨hcol, hmsk⟩ := planes24_fit hf
  rw [decode24, makeView_fits (by simpa using hcol), Flow.ok_andThen, makeView_fits (by simpa using hmsk)]
  rfl

theorem decode32_of_fits (hf : planeEnd s size.toNat 32 ≤ len s) :
    decode32 size s = produce trueColour32Pixel (built32 size s) := by
  rw [decode32, makeView_fits (by rw [plane_end]; exact hf)]
  rfl

/-- Where both views fit, the whole picture is painted (43_composite.md R210 (b)). -/
theorem decode24_paints (hf : planeEnd s (planeEnd s size.toNat 24) 1 ≤ len s) :
    ∃ m, Painted (pic24 s size.toNat (planeEnd s size.toNat 24)) s 0 (imgH s) m ∧
      decode24 size s = .ok (finish (setOut m (built24 size s))) := by
  obtain ⟨hcol, hmsk⟩ := planes24_fit hf
  have hplanes : Planes24 (built24 size s) size.toNat (planeEnd s size.toNat 24) := ⟨rfl, rfl, hcol, hmsk⟩
  rw [decode24_of_fits hf]
  exact PaintsBefore.produce fun m x y hx hy _ => (hplanes.setOut m).pixel hx hy

/-- Where the view fits, the whole picture is painted (43_composite.md R210 (a)). -/
theorem decode32_paints (hf : planeEnd s size.toNat 32 ≤ len s) :
    ∃ m, Painted (pic32 s size.toNat) s 0 (imgH s) m ∧
      decode32 size s = .ok (finish (setOut m (built32 size s))) := by
  have hplane : Plane32 (built32 size s) size.toNat := ⟨rfl, by rw [← plane_end] at hf; exact hf⟩
  rw [decode32_of_fits hf]
  exact PaintsBefore.produce fun m x y hx hy _ => (hplane.setOut m).pixel hx hy

/-- The plane of depth 32 has no padding: 4 bytes a pixel. -/
theorem planeEnd_32 (o : Nat) : planeEnd s o 32 = o + 4 * imgW s * imgH s := by rw [planeEnd, rowBytes_32]

end TrueColour

/-! ### The whole picture -/

section Whole

variable {s t : State} {m : Memory} {pic : Nat → Nat → Rgba}

/-- A whole picture in OUT, beyond which every byte of both memories is as it was. -/
theorem Painted.sameBytesButPicture (h : Painted pic s 0 (imgH s) m) (hw : s.out.wf) (hsrc : t.src = s.src)
    (hout : t.out = m) : SameBytesButPicture s t := by
  obtain ⟨-, hbeyond⟩ := h.picture hw
  subst hout
  exact ⟨fun a => by rw [hsrc], hbeyond⟩

end Whole

/-- Settles O28: every pixel is painted on the three planes, which lie end to end. -/
theorem paletteModesProduceThePicture : Obligations.PaletteModesProduceThePicture := by
  intro s d size clrused i hi hw n colOff mskOff hf hindex
  obtain ⟨hd, he⟩ := exec_paletteMode hi s
  obtain ⟨m, hm, hdec⟩ := decodePalette_paints hd hf hindex
  rw [he, hdec]
  refine ⟨_, rfl, fun x y hx hy => ?_, hm.sameBytesButPicture hw rfl rfl, rfl⟩
  exact palettePixelIs_of_shows ((hm.picture hw).1 x y hx hy)

/-- Settles O29: every pixel is painted on the two planes. -/
theorem t24ProducesThePicture : Obligations.T24ProducesThePicture := by
  intro s size hw mskOff hf
  obtain ⟨m, hm, hdec⟩ := decode24_paints hf
  rw [exec, execDecT24_eq, hdec]
  refine ⟨_, rfl, fun x y hx hy => ?_, hm.sameBytesButPicture hw rfl rfl, rfl⟩
  exact pixel24Is_of_shows ((hm.picture hw).1 x y hx hy)

/-- Settles O30: every pixel is painted on the one plane. -/
theorem t32ProducesThePicture : Obligations.T32ProducesThePicture := by
  intro s size hw hf
  obtain ⟨m, hm, hdec⟩ := decode32_paints (by rwa [planeEnd_32])
  rw [exec, execDecT32_eq, hdec]
  refine ⟨_, rfl, fun x y hx hy => ?_, hm.sameBytesButPicture hw rfl rfl, rfl⟩
  exact pixel32Is_of_shows ((hm.picture hw).1 x y hx hy)

/-- Settles O32: the pixels before the first without an entry are painted, and that one raises. -/
theorem indexRangeAtFirstOffendingPixel : Obligations.IndexRangeAtFirstOffendingPixel := by
  intro s d size clrused i x₀ y₀ hi hw n colOff mskOff hf hx hy hbad hindex
  obtain ⟨hd, he⟩ := exec_paletteMode hi s
  obtain ⟨m, hm, hdec⟩ := decodePalette_indexRange hd hf hx hy hbad hindex
  obtain ⟨-, hshows, hfrom⟩ := hm hw
  rw [he, hdec]
  exact ⟨_, rfl, rfl, rfl, rfl, toNat_ofNat_word (laneAt_lt_word hd ..),
    fun x y hx hxy => palettePixelIs_of_shows (hshows x y hx hxy), hfrom⟩

/-! ### Every decode mode ends -/

/-- Of the pixels with a property, where there are any, one comes first in row-major order. -/
theorem exists_first_rowMajor {bad : Nat → Nat → Prop} {w h : Nat} (hb : ∃ x y, x < w ∧ y < h ∧ bad x y) :
    ∃ x₀ y₀, x₀ < w ∧ y₀ < h ∧ bad x₀ y₀ ∧ ∀ x y, x < w → RowMajor x y x₀ y₀ → ¬bad x y := by
  classical
  have hrow : ∃ y, y < h ∧ ∃ x, x < w ∧ bad x y := by
    obtain ⟨x, y, hx, hy, hxy⟩ := hb
    exact ⟨y, hy, x, hx, hxy⟩
  obtain ⟨hy₀, hcol⟩ := Nat.find_spec hrow
  obtain ⟨hx₀, hxy₀⟩ := Nat.find_spec hcol
  refine ⟨Nat.find hcol, Nat.find hrow, hx₀, hy₀, hxy₀, fun x y hx hxy hbad => ?_⟩
  rcases hxy with hy | ⟨rfl, hx'⟩
  · exact Nat.find_min hrow hy ⟨hy.trans hy₀, x, hx, hbad⟩
  · exact Nat.find_min hcol hx' ⟨hx, hbad⟩

/-- An index without an entry shows that colorsUsed declares a palette of fewer than 2^depth entries
(43_composite.md R208). -/
theorem clrused_of_short_palette {d c i : Nat} (hd : paletteDepth d = true) (hi : i < 2 ^ d)
    (hn : paletteCount d c ≤ i) : 0 < c ∧ c < 2 ^ d := by
  rw [paletteCount_of_le (paletteDepth_le hd)] at hn
  split at hn <;> omega

/-- This part of an operation ends in DONE or in TruncatedData. -/
def DoneOrTruncates (m : Flow State) : Prop := (∃ t, m = .ok t ∧ t.phase = .done) ∨ Truncates m

/-- A palette mode ends in DONE, in TruncatedData, or, with a short palette, in IndexRange. -/
theorem decodePalette_ends {d : Nat} (hd : paletteDepth d = true) (size clrused : Word) (s : State) :
    DoneOrTruncates (decodePalette d size clrused s) ∨
      ∃ t, decodePalette d size clrused s = .raised t ∧ t.phase = .fault ∧ t.err = .indexRange ∧
        0 < clrused.toNat ∧ clrused.toNat < 2 ^ d := by
  rcases Nat.lt_or_ge (len s) (planeEnd s (planeEnd s (palColOff size clrused d) d) 1) with hf | hf
  · exact .inl (.inr (decodePalette_truncates hd hf))
  by_cases hb : ∃ x y, x < imgW s ∧ y < imgH s ∧
      paletteCount d clrused.toNat ≤ laneAt s d (palColOff size clrused d) x (sourceRow (imgH s) y)
  · obtain ⟨x₀, y₀, hx, hy, hbad, hfirst⟩ := exists_first_rowMajor hb
    obtain ⟨m, -, hdec⟩ := decodePalette_indexRange hd hf hx hy hbad fun x y hx hxy =>
      Nat.lt_of_not_le (hfirst x y hx hxy)
    exact .inr ⟨_, hdec, rfl, rfl, clrused_of_short_palette hd (laneAt_lt ..) hbad⟩
  · obtain ⟨m, -, hdec⟩ := decodePalette_paints hd hf fun x y hx hy =>
      Nat.lt_of_not_le fun hn => hb ⟨x, y, hx, hy, hn⟩
    exact .inl (.inl ⟨_, hdec, rfl⟩)

theorem decode24_ends (size : Word) (s : State) : DoneOrTruncates (decode24 size s) := by
  rcases Nat.lt_or_ge (len s) (planeEnd s (planeEnd s size.toNat 24) 1) with hf | hf
  · exact .inr (decode24_truncates hf)
  · obtain ⟨m, -, hdec⟩ := decode24_paints hf
    exact .inl ⟨_, hdec, rfl⟩

theorem decode32_ends (size : Word) (s : State) : DoneOrTruncates (decode32 size s) := by
  rcases Nat.lt_or_ge (len s) (planeEnd s size.toNat 32) with hf | hf
  · exact .inr (decode32_truncates hf)
  · obtain ⟨m, -, hdec⟩ := decode32_paints hf
    exact .inl ⟨_, hdec, rfl⟩

/-- The next state of a mode that ends in DONE or in TruncatedData; what else `P` another fault would need is open. -/
theorem DoneOrTruncates.outcome {m : Flow State} (h : DoneOrTruncates m) {P : State → Prop} :
    ∃ t, m.outcome = .next t ∧ (t.phase = .done ∨ (t.phase = .fault ∧ (t.err = .truncatedData ∨ P t))) := by
  rcases h with ⟨t, rfl, ht⟩ | ⟨k, o, u, rfl⟩
  · exact ⟨t, rfl, .inl ht⟩
  · exact ⟨_, rfl, .inr ⟨rfl, .inl rfl⟩⟩

/-- Settles O35: each mode truncates or all its views fit; then all pixels are painted, or one of a palette mode is the
first without an entry. -/
theorem decodeModesAlwaysEnd : Obligations.DecodeModesAlwaysEnd := by
  intro s i hi
  rcases hi with ⟨d, size, clrused, hi⟩ | ⟨size, rfl⟩ | ⟨size, rfl⟩
  · obtain ⟨hd, he⟩ := exec_paletteMode hi s
    rw [he]
    rcases decodePalette_ends hd size clrused s with h | ⟨t, ht, hphase, herr, hc⟩
    · exact h.outcome
    · rw [ht]
      exact ⟨t, rfl, .inr ⟨hphase, .inr ⟨herr, d, size, clrused, hi, hc⟩⟩⟩
  · rw [exec, execDecT24_eq]
    exact (decode24_ends size s).outcome
  · rw [exec, execDecT32_eq]
    exact (decode32_ends size s).outcome

/-! ### The empty picture -/

section Empty

variable {s : State}

/-- A plane of no pixels has no bytes (40_view.md R137). -/
theorem planeEnd_of_no_picture (hs : imgW s = 0 ∨ imgH s = 0) (o d : Nat) : planeEnd s o d = o := by
  have hbytes : rowBytes (imgW s) d * imgH s = 0 := by
    rcases hs with h | h
    · simp [rowBytes, h]
    · simp [h]
  rw [planeEnd, hbytes, Nat.add_zero]

theorem outSize_of_no_picture (hs : imgW s = 0 ∨ imgH s = 0) : outSize s = 0 := by
  rcases hs with h | h <;> simp [outSize, h]

end Empty

/-- Settles O34: planes without bytes all start where the first does, so they fit or truncate by that one offset. -/
theorem emptyPictureEndsWithoutPixels : Obligations.EmptyPictureEndsWithoutPixels := by
  intro s size hs
  have hplane := planeEnd_of_no_picture hs
  have hout := outSize_of_no_picture hs
  have hpixels : imgW s * imgH s = 0 := Nat.mul_eq_zero.mpr hs
  have hsize : BitVec.ofNat 32 size.toNat = size := by rw [BitVec.ofNat_toNat, BitVec.setWidth_eq]
  refine ⟨fun d clrused i hi => ?palette, fun hf => ⟨?depth24, ?depth32⟩, ?truncated⟩
  case palette =>
    intro n off
    obtain ⟨hd, he⟩ := exec_paletteMode hi s
    rw [he]
    refine ⟨fun hf => ?_, fun hf => ?_⟩
    · rw [decodePalette_of_fits hd (by rwa [hplane, hplane]),
        produce_of_no_picture (s := paletteBuilt d size clrused s) hpixels]
      refine ⟨_, rfl, fun _ => ⟨rfl, rfl⟩, hout, rfl, rfl, rfl, ?_⟩
      exact congrArg (mkView · (imgW s) (imgH s) 1 .a) (hplane off d)
    · rw [decodePalette_pal_truncated hd hf]
      exact ⟨_, rfl, fun _ => ⟨rfl, rfl⟩, hout, rfl, rfl, rfl, hsize⟩
  case depth24 =>
    rw [exec, execDecT24_eq, decode24_of_fits (by rwa [hplane, hplane]),
      produce_of_no_picture (s := built24 size s) hpixels]
    refine ⟨_, rfl, fun _ => ⟨rfl, rfl⟩, hout, rfl, rfl, rfl, ?_⟩
    exact congrArg (mkView · (imgW s) (imgH s) 1 .a) (hplane size.toNat 24)
  case depth32 =>
    rw [exec, execDecT32_eq, decode32_of_fits (by rwa [hplane]),
      produce_of_no_picture (s := built32 size s) hpixels]
    exact ⟨_, rfl, fun _ => ⟨rfl, rfl⟩, hout, rfl, rfl, rfl, rfl⟩
  case truncated =>
    intro hf i hi
    rcases hi with rfl | rfl
    · rw [exec, execDecT24_eq, decode24_col_truncated (by rwa [hplane])]
      exact ⟨_, rfl, fun _ => ⟨rfl, rfl⟩, hout, rfl, rfl, rfl, hsize⟩
    · rw [exec, execDecT32_eq, decode32_col_truncated (by rwa [hplane])]
      exact ⟨_, rfl, fun _ => ⟨rfl, rfl⟩, hout, rfl, rfl, rfl, hsize⟩

end Sys2Proof.Machine

/-! SUPPORT. The host's commands (44_host_commands.md R220 to R223): which command a CTRL word issues, and what START
and CLEAR do while BUSY and outside BUSY. -/

namespace Sys2Proof.Machine

/-! ### The command of a CTRL word (R222) -/

section CtrlWord

variable {w : Word}

/-- Bit 0 alone decides for START: nothing is asked of bit 1 (R222). -/
theorem decode_ctrl_start (h0 : w.getLsbD 0 = true) : decode (.ctrl w) = .ok .start := if_pos h0

theorem decode_ctrl_clear (h0 : w.getLsbD 0 = false) (h1 : w.getLsbD 1 = true) :
    decode (.ctrl w) = .ok .clear :=
  (if_neg (ne_true_of_eq_false h0)).trans (if_pos h1)

theorem decode_ctrl_noCommand (h0 : w.getLsbD 0 = false) (h1 : w.getLsbD 1 = false) :
    decode (.ctrl w) = .error (.noCommand w) :=
  (if_neg (ne_true_of_eq_false h0)).trans (if_neg (ne_true_of_eq_false h1))

end CtrlWord

/-- Settles O9: the step runs what the CTRL word decodes to, and takes the write out of the queue. -/
theorem ctrlWordSelectsCommand : Obligations.CtrlWordSelectsCommand := by
  intro s w rest hi
  refine ⟨fun h0 => ?start, fun h0 h1 => ?clear, fun h0 h1 => ?nothing⟩
  case start => exact step_ctrl hi (decode_ctrl_start h0)
  case clear => exact step_ctrl hi (decode_ctrl_clear h0 h1)
  case nothing => exact step_ctrl_none hi (decode_ctrl_noCommand h0 h1)

/-! ### START and CLEAR, while BUSY and outside BUSY -/

section Commands

variable {s : State}

/-- The three phases outside BUSY, in which a command is accepted (10_state.md R30). -/
theorem busy_eq_false_iff : busy s = false ↔ s.phase = .idle ∨ s.phase = .done ∨ s.phase = .fault := by
  unfold busy
  cases s.phase <;> simp

theorem exec_start_ignored (hb : busy s = true) : exec .start s = .next s := if_pos hb

theorem exec_start_accepted (hb : busy s = false) :
    exec .start s = .next (goto .hdr (clearStatus (invalidateViews (latchOperands s)))) :=
  if_neg (ne_true_of_eq_false hb)

theorem exec_clear_ignored (hb : busy s = true) : exec .clear s = .next s := if_pos hb

theorem exec_clear_accepted (hb : busy s = false) : exec .clear s = .next (goto .idle (clearStatus s)) :=
  if_neg (ne_true_of_eq_false hb)

/-- With the stored fields cleared, only STATE is left in STATUS (10_state.md R23). -/
theorem statusWord_goto_clearStatus (p : Phase) (s : State) :
    statusWord (goto p (clearStatus s)) = (stateCode p).setWidth 32 := by
  have hp := (stateCode p).isLt
  apply BitVec.eq_of_toNat_eq
  rw [statusWord, statusWith_toNat, BitVec.toNat_setWidth, Nat.mod_eq_of_lt (by omega)]
  simp [errViewBits, errCodeBits, pathBits]

end Commands

/-- Settles O10: the accepted START is the four named updates, each of which writes its own registers only. -/
theorem startLatchesOperands : Obligations.StartLatchesOperands := by
  intro s hp
  refine ⟨_, exec_start_accepted (busy_eq_false_iff.mpr hp), ?status, fun a => ⟨?src, ?out⟩, ?frame⟩
  case status => exact statusWord_goto_clearStatus .hdr _
  case src => rw [goto_src, clearStatus_src, invalidateViews_src, latchOperands_src]
  case out => rw [goto_out, clearStatus_out, invalidateViews_out, latchOperands_out]
  case frame => rfl

/-- Settles O11: the accepted CLEAR is `clearStatus` and the way to P_IDLE. -/
theorem clearReturnsToIdle : Obligations.ClearReturnsToIdle := by
  intro s hp
  refine ⟨_, exec_clear_accepted (busy_eq_false_iff.mpr hp), ?status, ?errInfo, fun a => ⟨?src, ?out⟩, ?frame⟩
  case status => exact statusWord_goto_clearStatus .idle s
  case errInfo => rw [goto_errInfo, clearStatus_errInfo]
  case src => rw [goto_src, clearStatus_src]
  case out => rw [goto_out, clearStatus_out]
  case frame => rfl

/-- Settles O12: the commands are ignored, and the operand writes are the register writes of O46, which BUSY does not
hold up. -/
theorem busyIgnoresCommands : Obligations.BusyIgnoresCommands := by
  intro s hb
  refine ⟨exec_start_ignored hb, exec_clear_ignored hb, fun w rest hi => ?srcLen, fun w rest hi => ?cfgW,
    fun w rest hi => ?cfgH⟩
  case srcLen =>
    obtain ⟨hsrcLen, -, -, -⟩ := hostWriteReachesOperandsOnly s 3 w rest hi (by decide)
    exact hsrcLen rfl
  case cfgW =>
    obtain ⟨-, hcfgW, -, -⟩ := hostWriteReachesOperandsOnly s 4 w rest hi (by decide)
    exact hcfgW rfl
  case cfgH =>
    obtain ⟨-, -, hcfgH, -⟩ := hostWriteReachesOperandsOnly s 5 w rest hi (by decide)
    exact hcfgH rfl

end Sys2Proof.Machine

/-! SUPPORT. The faults (60_exceptions.md R230 to R239): in each phase of the sequencer the one fault its step can take,
with the cause; the view that a truncated decode mode names; and the level outputs (R236). -/

namespace Sys2Proof.Machine

theorem ofNat_toNat_word (w : Word) : BitVec.ofNat 32 w.toNat = w := by
  rw [BitVec.ofNat_toNat, BitVec.setWidth_eq]

/-- An offset that the window reaches is what ERRINFO holds (60_exceptions.md R238): LEN is a word. -/
theorem toNat_ofNat_of_le_len {s : State} {o : Nat} (h : o ≤ len s) : (BitVec.ofNat 32 o).toNat = o :=
  toNat_ofNat_word (h.trans_lt s.lLen.isLt)

/-! ### The level outputs -/

section Outputs

variable (s : State)

theorem busyOut_iff : busyOut s = true ↔ stateCode s.phase = 1 := by
  unfold busyOut busy
  cases s.phase <;> decide

theorem doneOut_iff : doneOut s = true ↔ stateCode s.phase = 2 := by
  unfold doneOut
  cases s.phase <;> decide

theorem faultOut_iff : faultOut s = true ↔ stateCode s.phase = 3 := by
  unfold faultOut
  cases s.phase <;> decide

end Outputs

/-- Settles O50: STATE stands in the two lowest bits of STATUS, and each output is one of its values. -/
theorem levelOutputsMirrorState : Obligations.LevelOutputsMirrorState := by
  intro s
  obtain ⟨hstate, -, -, -, -, -⟩ := statusWith_fields s (pathBits s.path)
  rw [statusWord, hstate, busyOut_iff, doneOut_iff, faultOut_iff]
  exact ⟨BitVec.toNat_eq, BitVec.toNat_eq, BitVec.toNat_eq⟩

/-! ### The first view of a decode mode that does not fit -/

/-- This part of an operation on `s` ends in TruncatedData for the view in slot `k` at offset `o`, with no byte
written. -/
def TruncatesAt (s : State) (k : Slot) (o : Nat) (m : Flow State) : Prop :=
  ∃ u, SameBytes s u ∧ m = .raised (enterFault .truncatedData (some k) o u)

section Truncation

variable {s u : State} {k : Slot} {o w h d : Nat} {f : Fmt} {size clrused : Word} {rest : State → Flow State}

theorem makeView_andThen_truncatesAt (hf : len u < o + viewSize w h d) (hu : SameBytes s u) :
    TruncatesAt s k o ((makeView k o w h d f u).andThen rest) :=
  ⟨u, hu, by rw [makeView_truncated hf, Flow.raised_andThen]⟩

/-- What the truncation shows of itself where its offset fits ERRINFO. -/
theorem TruncatesAt.outcome {m : Flow State} (hm : TruncatesAt s k o m) (ho : (BitVec.ofNat 32 o).toNat = o) :
    ∃ t, m.outcome = .next t ∧ SameBytes s t ∧ t.phase = .fault ∧ t.err = .truncatedData ∧
      t.errView = some k ∧ t.errInfo.toNat = o := by
  obtain ⟨u, hu, rfl⟩ := hm
  exact ⟨_, rfl, hu, rfl, rfl, rfl, ho⟩

theorem decodePalette_truncatesAt_pal (hd : paletteDepth d = true) (hf : len s < palColOff size clrused d) :
    TruncatesAt s .pal size.toNat (decodePalette d size clrused s) :=
  ⟨paletteSelected d size clrused s, fun _ => ⟨rfl, rfl⟩, decodePalette_pal_truncated hd hf⟩

theorem decodePalette_truncatesAt_col (hd : paletteDepth d = true) (hpal : palColOff size clrused d ≤ len s)
    (hf : len s < planeEnd s (palColOff size clrused d) d) :
    TruncatesAt s .col (palColOff size clrused d) (decodePalette d size clrused s) := by
  rw [← plane_end] at hf
  rw [decodePalette_eq hd, makeView_fits (by rw [palette_end]; exact hpal), Flow.ok_andThen]
  exact makeView_andThen_truncatesAt hf fun _ => ⟨rfl, rfl⟩

theorem decodePalette_truncatesAt_msk (hd : paletteDepth d = true)
    (hcol : planeEnd s (palColOff size clrused d) d ≤ len s)
    (hf : len s < planeEnd s (planeEnd s (palColOff size clrused d) d) 1) :
    TruncatesAt s .msk (planeEnd s (palColOff size clrused d) d) (decodePalette d size clrused s) := by
  have hpal : palColOff size clrused d ≤ len s := (le_planeEnd _).trans hcol
  rw [← plane_end] at hf
  rw [decodePalette_eq hd, makeView_fits (by rw [palette_end]; exact hpal), Flow.ok_andThen,
    makeView_fits (by rw [plane_end]; exact hcol), Flow.ok_andThen]
  exact makeView_andThen_truncatesAt hf fun _ => ⟨rfl, rfl⟩

theorem decode24_truncatesAt_col (hf : len s < planeEnd s size.toNat 24) :
    TruncatesAt s .col size.toNat (decode24 size s) :=
  ⟨trueColourSelected 24 size s, fun _ => ⟨rfl, rfl⟩, decode24_col_truncated hf⟩

theorem decode24_truncatesAt_msk (hcol : planeEnd s size.toNat 24 ≤ len s)
    (hf : len s < planeEnd s (planeEnd s size.toNat 24) 1) :
    TruncatesAt s .msk (planeEnd s size.toNat 24) (decode24 size s) := by
  rw [← plane_end] at hf
  rw [decode24, makeView_fits (by rw [plane_end]; exact hcol), Flow.ok_andThen]
  exact makeView_andThen_truncatesAt hf fun _ => ⟨rfl, rfl⟩

theorem decode32_truncatesAt_col (hf : len s < planeEnd s size.toNat 32) :
    TruncatesAt s .col size.toNat (decode32 size s) :=
  ⟨trueColourSelected 32 size s, fun _ => ⟨rfl, rfl⟩, decode32_col_truncated hf⟩

end Truncation

/-- Settles O31: the views before the first that does not fit are built, and building them writes no byte. Each offset
fits ERRINFO: it is headerSize, or the end of a view that fits. -/
theorem truncationNamesFirstView : Obligations.TruncationNamesFirstView := by
  have hsize (size : Word) : (BitVec.ofNat 32 size.toNat).toNat = size.toNat := toNat_ofNat_word size.isLt
  refine ⟨fun s d size clrused i hi => ?palette, fun s size => ?depth24, fun s size hf => ?depth32⟩
  case palette =>
    obtain ⟨hd, he⟩ := exec_paletteMode hi s
    intro colOff mskOff
    rw [he]
    refine ⟨fun hf => ?pal, fun hpal hf => ?col, fun hcol hf => ?msk⟩
    case pal => exact (decodePalette_truncatesAt_pal hd hf).outcome (hsize size)
    case col => exact (decodePalette_truncatesAt_col hd hpal hf).outcome (toNat_ofNat_of_le_len hpal)
    case msk => exact (decodePalette_truncatesAt_msk hd hcol hf).outcome (toNat_ofNat_of_le_len hcol)
  case depth24 =>
    intro mskOff
    rw [exec, execDecT24_eq]
    refine ⟨fun hf => ?col, fun hcol hf => ?msk⟩
    case col => exact (decode24_truncatesAt_col hf).outcome (hsize size)
    case msk => exact (decode24_truncatesAt_msk hcol hf).outcome (toNat_ofNat_of_le_len hcol)
  case depth32 =>
    rw [exec, execDecT32_eq]
    exact (decode32_truncatesAt_col (by rwa [planeEnd_32])).outcome (hsize size)

/-! ### A step that ends in FAULT -/

theorem startPixels_not_fault (s : State) : (startPixels s).phase ≠ .fault := by
  rcases startPixels_phase s with ⟨-, -, hp⟩ | ⟨-, hp⟩ <;> rw [hp] <;> decide

theorem afterSelect_not_fault (s : State) : (afterSelect s).phase ≠ .fault := by
  unfold afterSelect
  split <;> simp

theorem afterView_not_fault (k : Slot) (s : State) : (afterView k s).phase ≠ .fault := by
  cases k with
  | pal => simp [afterView]
  | col =>
    by_cases hm : s.path = .palette ∨ s.hdrBitcount.toNat = 24
    · rw [afterView_col_masked hm]
      simp
    · rw [afterView_col_unmasked hm]
      exact startPixels_not_fault s
  | msk => exact startPixels_not_fault s

theorem advancePixel_not_fault (x y : Nat) (s : State) : (advancePixel x y s).phase ≠ .fault := by
  unfold advancePixel
  split
  · simp
  split <;> simp

/-- A step whose pc moves on to other phases ends in FAULT only where its part of the operation raised. -/
theorem raised_of_step_fault {m : Flow State} {g : State → State} {t : State} (hg : ∀ u, (g u).phase ≠ .fault)
    (he : (m.andThen fun u => .ok (g u)).outcome = .next t) (hf : t.phase = .fault) : m = .raised t := by
  cases m with
  | ok u =>
    cases he
    exact absurd hf (hg u)
  | raised u =>
    cases he
    rfl
  | fault f => cases he
  | refused r => cases he

section Rows

variable {s t : State}

theorem exec_hdrFetch_fault (he : exec .hdrFetch s = .next t) (hf : t.phase = .fault) :
    len s < 36 ∧ t = enterFault .outOfBounds none (if len s < 4 then 0 else if len s < 16 then 14 else 32) s := by
  rcases Nat.lt_or_ge (len s) 36 with hl | hl
  · rw [exec_hdrFetch_raises hl] at he
    cases he
    exact ⟨hl, rfl⟩
  · rw [exec_hdrFetch_latches hl] at he
    cases he
    cases hf

/-- SELECT raises only on the pairs that R174 rejects (42_select.md). -/
theorem rejected_of_selectPath_raised (h : selectPath s = .raised t) :
    s.hdrBitcount.toNat ∉ [1, 2, 4, 8, 24, 32] ∨ (s.hdrBitcount.toNat ∈ [24, 32] ∧ s.hdrClrused.toNat ≠ 0) := by
  rw [or_iff_not_imp_left, not_not]
  intro hb
  rcases (List.mem_append (s := [1, 2, 4, 8]) (t := [24, 32])).mp hb with hb | hb
  · have hd := paletteDepth_iff.mpr hb
    rw [selectPath_palette (paletteCount_ne_zero (paletteDepth_le hd) _) hd] at h
    cases h
  · refine ⟨hb, fun hc => ?_⟩
    have hd := trueColourDepth_iff.mpr hb
    have h8 : 8 < s.hdrBitcount.toNat := by rcases trueColour_cases hd with h | h <;> omega
    rw [selectPath_trueColour ((paletteCount_of_gt h8).trans hc) hd] at h
    cases h

theorem exec_select_fault (he : exec .select s = .next t) (hf : t.phase = .fault) :
    t = enterFault .unsupportedColorDepth none s.hdrBitcount.toNat s ∧
      (s.hdrBitcount.toNat ∉ [1, 2, 4, 8, 24, 32] ∨
        (s.hdrBitcount.toNat ∈ [24, 32] ∧ s.hdrClrused.toNat ≠ 0)) := by
  have hr := raised_of_step_fault afterSelect_not_fault he hf
  exact ⟨selectPath_eq_raised hr, rejected_of_selectPath_raised hr⟩

theorem exec_viewMake_fault {k : Slot} {o w h d : Nat} {f : Fmt} (he : exec (.viewMake k o w h d f) s = .next t)
    (hf : t.phase = .fault) :
    len s < viewEnd (mkView o w h d f) ∧ t = enterFault .truncatedData (some k) o s := by
  rcases Nat.lt_or_ge (len s) (o + viewSize w h d) with hl | hl
  · rw [exec_viewMake_truncated hl] at he
    cases he
    exact ⟨hl, rfl⟩
  · rw [exec_viewMake_fits hl] at he
    cases he
    exact absurd hf (afterView_not_fault _ _)

/-- Of the three pixel bodies only PIX.PAL raises, for an index without an entry (43_composite.md R208). -/
theorem exec_pixelOperation_fault (he : exec (pixelOperation s) s = .next t) (hf : t.phase = .fault) :
    s.path = .palette ∧ ∃ i : Byte, sample s.vCol s.x (sourceRow (imgH s) s.y) .c s = .ok i ∧
      s.nColors.toNat ≤ i.toNat ∧ t = enterFault .indexRange none i.toNat s := by
  rw [exec_pixelOperation] at he
  have hr := raised_of_step_fault (advancePixel_not_fault _ _) he hf
  unfold pixelBody at hr
  split at hr
  next hpath => exact ⟨hpath, palettePixel_eq_raised hr⟩
  split at hr
  · exact absurd hr trueColour24Pixel_not_raised
  · exact absurd hr trueColour32Pixel_not_raised

/-! ### The views of the invariant in each phase -/

theorem viewEnd_le_of_viewsOk (h : ViewsOk s) {k : Slot} (hv : (viewOf k s).valid = true) :
    viewEnd (viewOf k s) ≤ len s := by
  obtain ⟨-, hfit, -⟩ := h k hv
  exact hfit

/-- In P_VCOL the palette path has its palette view (43_composite.md R192). -/
theorem vPal_of_vcol (h : BlockInv s) (hp : s.phase = .vcol) (hpath : s.path = .palette) : s.vPal = paletteView s := by
  obtain ⟨-, -, -, -, hpal, -, -⟩ := h.pc
  exact (hpal (.inl hp)).1 hpath

theorem vCol_of_vmsk (h : BlockInv s) (hp : s.phase = .vmsk) : s.vCol = colourPlane s := by
  obtain ⟨-, -, -, -, -, hcol, -⟩ := h.pc
  exact hcol (.inl hp)

/-- The view that P_VCOL makes is the colour plane of the running operation. -/
theorem colourPlane_of_vcol (h : BlockInv s) (hp : s.phase = .vcol) :
    colourPlane s = mkView (colourOff s) (imgW s) (imgH s) s.hdrBitcount.toNat (colourFmt s) := by
  unfold colourPlane colourOff colourFmt
  split
  next hpath => rw [vPal_of_vcol h hp hpath]
  next => rfl

/-- It starts at headerSize or at the end of the palette, which fits (43_composite.md R192, R193). -/
theorem toNat_ofNat_colourOff (h : BlockInv s) (hp : s.phase = .vcol) :
    (BitVec.ofNat 32 (colourOff s)).toNat = colourOff s := by
  unfold colourOff
  split
  next hpath =>
    have hvalid : s.vPal.valid = true := by
      rw [vPal_of_vcol h hp hpath]
      rfl
    exact toNat_ofNat_of_le_len (viewEnd_le_of_viewsOk (k := .pal) h.views hvalid)
  next => exact toNat_ofNat_word s.hdrSize.isLt

theorem toNat_ofNat_maskOff (h : BlockInv s) (hp : s.phase = .vmsk) :
    (BitVec.ofNat 32 (viewEnd s.vCol)).toNat = viewEnd s.vCol := by
  have hvalid : s.vCol.valid = true := by
    rw [vCol_of_vmsk h hp]
    exact colourPlane_valid s
  exact toNat_ofNat_of_le_len (viewEnd_le_of_viewsOk (k := .col) h.views hvalid)

/-- The index that PIX.PAL samples, as the lane of the colour plane (41_sample.md R162). -/
theorem index_eq_laneAt (h : BlockInv s) (hp : s.phase = .pix) (hpath : s.path = .palette) {i : Byte}
    (hi : sample s.vCol s.x (sourceRow (imgH s) s.y) .c s = .ok i) :
    i.toNat = laneAt s s.hdrBitcount.toNat (colourPlane s).off s.x (imgH s - 1 - s.y) := by
  obtain ⟨hin, -⟩ := h.pc
  obtain ⟨hy, hx⟩ := hin hp
  obtain ⟨j, hj, hlane⟩ := (palettePlanes_of_inv h hp hpath).sample_index hx hy
  have hoff : (colourPlane s).off = s.hdrSize.toNat + 4 * s.nColors.toNat := by
    rw [colourPlane, if_pos hpath, mkView_off, viewEnd_paletteView]
  rw [hoff, ← Flow.ok.inj (hj.symm.trans hi), hlane]
  rfl

end Rows

/-- Settles O40, phase by phase: the one fault that the phase's operation takes, on the views of the invariant. -/
theorem raisedFaultIsATableRow : Obligations.RaisedFaultIsATableRow := by
  intro s t h hb hi hc hg he hf
  have hstep {i : Instr} (hq : sequencer s = some i) : exec i s = .next t := by
    rw [← step_sequencer hi hc hq, he]
  cases hp : s.phase with
  | idle => simp [busy, hp] at hb
  | hdr =>
    have hop := hstep (sequencer_hdr hp)
    rw [headerOperation_sequencer hg] at hop
    obtain ⟨hl, rfl⟩ := exec_hdrFetch_fault hop hf
    refine ⟨rfl, .inl ⟨rfl, rfl, rfl, hl, toNat_ofNat_word ?_⟩⟩
    split_ifs <;> decide
  | sel =>
    obtain ⟨rfl, hrejected⟩ := exec_select_fault (hstep (sequencer_sel hp)) hf
    exact ⟨rfl, .inr (.inl ⟨rfl, rfl, rfl, ofNat_toNat_word _, hrejected⟩)⟩
  | vpal =>
    obtain ⟨hl, rfl⟩ := exec_viewMake_fault (hstep (sequencer_vpal hp)) hf
    exact ⟨rfl, .inr (.inr (.inl ⟨rfl, rfl, rfl, hl, ofNat_toNat_word _⟩))⟩
  | vcol =>
    have hop := hstep (sequencer_vcol hp)
    rw [colourView_eq_viewMake] at hop
    obtain ⟨hl, rfl⟩ := exec_viewMake_fault hop hf
    have hplane := colourPlane_of_vcol h hp
    rw [← hplane] at hl
    refine ⟨rfl, .inr (.inr (.inr (.inl ⟨rfl, rfl, rfl, hl, ?_⟩)))⟩
    rw [hplane]
    exact toNat_ofNat_colourOff h hp
  | vmsk =>
    obtain ⟨hl, rfl⟩ := exec_viewMake_fault (hstep (sequencer_vmsk hp)) hf
    have hoff := toNat_ofNat_maskOff h hp
    have hcol := vCol_of_vmsk h hp
    refine ⟨rfl, .inr (.inr (.inr (.inr (.inl ⟨rfl, rfl, rfl, ?_, ?_⟩))))⟩
    · rwa [hcol] at hl
    · rwa [enterFault_errInfo, maskPlane, mkView_off, ← hcol]
  | pix =>
    obtain ⟨hpath, i, hsample, hn, rfl⟩ := exec_pixelOperation_fault (hstep (sequencer_pix hp)) hf
    have hinfo : (BitVec.ofNat 32 i.toNat).toNat = i.toNat := toNat_ofNat_word (i.isLt.trans (by decide))
    refine ⟨rfl, .inr (.inr (.inr (.inr (.inr ⟨rfl, rfl, rfl, hpath, ?_, ?_⟩))))⟩
    · exact hinfo.trans (index_eq_laneAt h hp hpath hsample)
    · exact hn.trans_eq hinfo.symm
  | done => simp [busy, hp] at hb
  | fault => simp [busy, hp] at hb

end Sys2Proof.Machine

/-! SUPPORT. That every operation ends (70_reset_and_hazards.md R271): how many steps of the sequencer (43_composite.md
R191) a block has before it at most, that each step of a BUSY block leaves fewer, and that the views of P_PIX bound the
picture by the window. -/

namespace Sys2Proof.Machine

/-! ### The steps that are left -/

/-- The steps before DONE or FAULT, at most: one for each phase up to the last view, then one for each pixel from
(X, Y) on, in row-major order (43_composite.md R191, R206). -/
def stepsLeft (s : State) : Nat :=
  match s.phase with
  | .hdr => imgW s * imgH s + 5
  | .sel => imgW s * imgH s + 4
  | .vpal => imgW s * imgH s + 3
  | .vcol => imgW s * imgH s + 2
  | .vmsk => imgW s * imgH s + 1
  | .pix => imgW s * imgH s - (s.y * imgW s + s.x)
  | .idle | .done | .fault => 0

section StepsLeft

variable {s : State}

theorem stepsLeft_le (s : State) : stepsLeft s ≤ 5 + imgW s * imgH s := by
  unfold stepsLeft
  cases s.phase <;> dsimp only <;> omega

theorem stepsLeft_of_ended (h : s.phase = .done ∨ s.phase = .fault) : stepsLeft s = 0 := by
  rcases h with h | h <;> simp [stepsLeft, h]

theorem stepsLeft_startPixels_le (s : State) : stepsLeft (startPixels s) ≤ imgW s * imgH s := by
  unfold startPixels
  split
  · exact Nat.sub_le ..
  · exact Nat.zero_le _

theorem stepsLeft_afterSelect_le (s : State) : stepsLeft (afterSelect s) ≤ imgW s * imgH s + 3 := by
  unfold afterSelect
  split
  · exact le_rfl
  · exact Nat.add_le_add_left (by decide) _

theorem stepsLeft_afterView_col_le (s : State) : stepsLeft (afterView .col s) ≤ imgW s * imgH s + 1 := by
  by_cases hm : s.path = .palette ∨ s.hdrBitcount.toNat = 24
  · rw [afterView_col_masked hm]
    exact le_rfl
  · rw [afterView_col_unmasked hm]
    exact (stepsLeft_startPixels_le s).trans (Nat.le_succ _)

/-- The next pixel, or the first of the next row, or the end, is one further in row-major order. -/
theorem stepsLeft_advancePixel_lt {x y : Nat} (hx : x < imgW s) (hy : y < imgH s) :
    stepsLeft (advancePixel x y s) < imgW s * imgH s - (y * imgW s + x) := by
  have hin : y * imgW s + x < imgW s * imgH s := row_inside hy hx
  unfold advancePixel
  split
  · show imgW s * imgH s - (y * imgW s + (x + 1)) < _
    omega
  split
  · show imgW s * imgH s - ((y + 1) * imgW s + 0) < _
    have hrow : (y + 1) * imgW s = y * imgW s + imgW s := Nat.succ_mul ..
    omega
  · exact Nat.sub_pos_of_lt hin

end StepsLeft

/-! ### Every step of a BUSY block leaves fewer -/

/-- A part of an operation that does not stop the model, done as a step that moves pc by `g`: a fault leaves no step. -/
theorem Flow.NoStop.stepsLeft_lt {m : Flow State} {g : State → State} {t : State} {n : Nat} (hm : m.NoStop)
    (hn : 0 < n) (hg : ∀ u, m = .ok u → stepsLeft (g u) < n)
    (he : (m.andThen fun u => .ok (g u)).outcome = .next t) : stepsLeft t < n := by
  cases hm with
  | ok u =>
    cases he
    exact hg u rfl
  | raised hp =>
    cases he
    rwa [stepsLeft_of_ended (.inr hp)]

theorem decodeMode_of_modeByTable {size bitcount clrused : Nat} {i : Instr}
    (h : modeByTable size bitcount clrused = .ok i) : decodeMode i := by
  unfold modeByTable at h
  split at h
  · cases h; exact .inl ⟨1, _, _, .inl ⟨rfl, rfl⟩⟩
  · cases h; exact .inl ⟨2, _, _, .inr (.inl ⟨rfl, rfl⟩)⟩
  · cases h; exact .inl ⟨4, _, _, .inr (.inr (.inl ⟨rfl, rfl⟩))⟩
  · cases h; exact .inl ⟨8, _, _, .inr (.inr (.inr ⟨rfl, rfl⟩))⟩
  · split at h
    · cases h; exact .inr (.inl ⟨_, rfl⟩)
    · cases h
  · split at h
    · cases h; exact .inr (.inr ⟨_, rfl⟩)
    · cases h
  · cases h

theorem decodeMode_of_headerMode {s : State} {i : Instr} (h : headerMode s = some i) : decodeMode i := by
  obtain ⟨-, hd⟩ := headerMode_eq_some.mp h
  rw [decode_header_eq_modeByTable (by simp [headerWindow, headerBytes])] at hd
  exact decodeMode_of_modeByTable hd

section Decrease

variable {s t : State}

/-- P_HDR goes to P_SEL or to a fault; in the big-step view a whole mode goes to its end. -/
theorem stepsLeft_headerOperation_lt (he : exec (headerOperation s) s = .next t) :
    stepsLeft t < imgW s * imgH s + 5 := by
  rcases headerOperation_cases s with hf | hm
  · rw [hf] at he
    rcases Nat.lt_or_ge (len s) 36 with hl | hl
    · rw [exec_hdrFetch_raises hl] at he
      cases he
      rw [stepsLeft_of_ended (.inr rfl)]
      exact Nat.succ_pos _
    · rw [exec_hdrFetch_latches hl] at he
      cases he
      exact Nat.add_lt_add_left (by decide) _
  · obtain ⟨u, hu, hend⟩ := decodeModesAlwaysEnd s _ (decodeMode_of_headerMode hm)
    rw [hu] at he
    cases he
    rw [stepsLeft_of_ended (hend.imp_right And.left)]
    exact Nat.succ_pos _

theorem stepsLeft_select_lt (he : exec .select s = .next t) : stepsLeft t < imgW s * imgH s + 4 := by
  refine (selectPath_noStop s).stepsLeft_lt (Nat.succ_pos _) (fun u hu => ?_) he
  obtain ⟨n, p, rfl⟩ := selectPath_eq_ok hu
  exact Nat.lt_succ_of_le (stepsLeft_afterSelect_le (setSelection n p s))

/-- VIEW.MAKE is one step more than what is left after its view. -/
theorem stepsLeft_viewMake_lt {k : Slot} {o w h d c : Nat} {f : Fmt}
    (hk : ∀ u, stepsLeft (afterView k u) ≤ imgW u * imgH u + c) (he : exec (.viewMake k o w h d f) s = .next t) :
    stepsLeft t < imgW s * imgH s + c + 1 := by
  refine (makeView_noStop k o w h d f s).stepsLeft_lt (Nat.succ_pos _) (fun u hu => ?_) he
  obtain rfl := makeView_eq_ok hu
  have hle := hk (setView k (mkView o w h d f) s)
  rw [setView_imgW, setView_imgH] at hle
  exact Nat.lt_succ_of_le hle

theorem stepsLeft_pixelOperation_lt (h : BlockInv s) (hp : s.phase = .pix)
    (he : exec (pixelOperation s) s = .next t) : stepsLeft t < imgW s * imgH s - (s.y * imgW s + s.x) := by
  obtain ⟨hin, -⟩ := h.pc
  obtain ⟨hy, hx⟩ := hin hp
  rw [exec_pixelOperation] at he
  refine (pixelBody_noStop h hp hx hy).stepsLeft_lt (Nat.sub_pos_of_lt (row_inside hy hx)) (fun u hu => ?_) he
  rw [pixelBody_eq_ok hu]
  exact stepsLeft_advancePixel_lt (s := setOut u.out s) hx hy

/-- Whatever the sequencer invokes leaves fewer steps, phase by phase. -/
theorem stepsLeft_sequencer_lt (h : BlockInv s) {i : Instr} (hq : sequencer s = some i) (he : exec i s = .next t) :
    stepsLeft t < stepsLeft s := by
  unfold stepsLeft
  cases hp : s.phase with
  | idle => simp [sequencer_idle hp] at hq
  | hdr => rw [sequencer_hdr hp] at hq; cases hq; exact stepsLeft_headerOperation_lt he
  | sel => rw [sequencer_sel hp] at hq; cases hq; exact stepsLeft_select_lt he
  | vpal =>
    rw [sequencer_vpal hp] at hq
    cases hq
    exact stepsLeft_viewMake_lt (fun _ => le_rfl) he
  | vcol =>
    rw [sequencer_vcol hp, colourView_eq_viewMake] at hq
    cases hq
    exact stepsLeft_viewMake_lt stepsLeft_afterView_col_le he
  | vmsk =>
    rw [sequencer_vmsk hp] at hq
    cases hq
    exact stepsLeft_viewMake_lt (k := .msk) (c := 0) stepsLeft_startPixels_le he
  | pix => rw [sequencer_pix hp] at hq; cases hq; exact stepsLeft_pixelOperation_lt h hp he
  | done => simp [sequencer_done hp] at hq
  | fault => simp [sequencer_fault hp] at hq

/-- A BUSY block that is left alone takes a step, has fewer steps left after it, and has not gone back to IDLE. -/
theorem busy_step (h : BlockInv s) (ha : Alone s) (hb : busy s = true) :
    ∃ t, step s = .next t ∧ BlockInv t ∧ Alone t ∧ t.phase ≠ .idle ∧ stepsLeft t < stepsLeft s := by
  obtain ⟨t, ht, hidle⟩ := blockStepNeverStops s h ha.inbox ha.call
  obtain ⟨ht', -⟩ := ha.step h.memory.2 ht
  obtain ⟨i, hq⟩ := Option.isSome_iff_exists.mp ((sequencer_isSome s).trans hb)
  have he : exec i s = .next t := (step_sequencer ha.inbox ha.call hq).symm.trans ht
  exact ⟨t, ht, stepKeepsInv s t h ht, ht', hidle hb, stepsLeft_sequencer_lt h hq he⟩

/-- By induction on the steps that are left, which are a bound themselves. -/
theorem ends_within_stepsLeft (h : BlockInv s) (ha : Alone s) (hidle : s.phase ≠ .idle) :
    ∃ k t, k ≤ stepsLeft s ∧ Sys2Proof.core.run k s = .next t ∧ (t.phase = .done ∨ t.phase = .fault) := by
  induction hn : stepsLeft s using Nat.strong_induction_on generalizing s with
  | _ n ih =>
    cases hb : busy s with
    | false => exact ⟨0, s, Nat.zero_le _, rfl, (busy_eq_false_iff.mp hb).resolve_left hidle⟩
    | true =>
      obtain ⟨t, ht, hinv, hat, hidle', hlt⟩ := busy_step h ha hb
      obtain ⟨k, u, hk, hrun, hend⟩ := ih (stepsLeft t) (hn ▸ hlt) hinv hat hidle' rfl
      exact ⟨k + 1, u, by omega, (run_of_next ht k).trans hrun, hend⟩

end Decrease

/-! ### The picture against the window -/

theorem admittedView_depth_pos {k : Slot} {d : Nat} {f : Fmt} (h : admittedView k d f = true) : 0 < d := by
  have hd := admittedView_depth h
  omega

/-- A view has a bit at least for each of its pixels (40_view.md R131, R132). -/
theorem pixels_le_viewSize {d : Nat} (hd : 0 < d) (w h : Nat) : w * h ≤ 8 * viewSize w h d := by
  have hrow : w ≤ 8 * stride w d := (Nat.le_mul_of_pos_right w hd).trans (rowBytes_le_stride w d)
  calc w * h ≤ 8 * stride w d * h := Nat.mul_le_mul_right h hrow
    _ = 8 * viewSize w h d := Nat.mul_assoc ..

/-- A valid view lies in the window, so the window has a bit at least for each of its pixels (10_state.md R31). -/
theorem pixels_le_len {s : State} {k : Slot} {v : View} (hs : ViewsOk s) (hk : viewOf k s = v) (hv : v.valid = true) :
    v.width * v.height ≤ 8 * len s := by
  subst hk
  obtain ⟨hmk, hfit, hadm⟩ := hs k hv
  generalize viewOf k s = v at *
  have hsize : v.size = viewSize v.width v.height v.depth := by rw [hmk]; rfl
  have hpixels := pixels_le_viewSize (admittedView_depth_pos hadm) v.width v.height
  omega

/-- Settles O37, by the steps that are left and by the colour view of P_PIX, which has the picture's dimensions. -/
theorem everyOperationEnds : Obligations.EveryOperationEnds := by
  refine ⟨fun s h hb hi hc => ?_, fun s h hp => ?_⟩
  · have hidle : s.phase ≠ .idle := fun hp => absurd (busy_eq_false_iff.mpr (.inl hp)) (by simp [hb])
    obtain ⟨k, t, hk, hrun, hend⟩ := ends_within_stepsLeft h ⟨hi, hc⟩ hidle
    exact ⟨k, t, hk.trans (stepsLeft_le s), hrun, hend⟩
  · obtain ⟨-, -, -, -, -, hcol, -⟩ := h.pc
    have hle := pixels_le_len (k := .col) h.views (hcol (.inr (.inl hp))) (colourPlane_valid s)
    rwa [colourPlane_width, colourPlane_height] at hle

end Sys2Proof.Machine

/-! SUPPORT. That no operation writes outside OUT[0 .. W x H x 4 - 1] (70_reset_and_hazards.md R264): the one write
there is, MemWrite, checks its address (20_memory.md R72, R79), and every operation is made of it and of updates that
leave OUT alone. And the reset input in any state (R260 to R262). -/

namespace Sys2Proof.Machine

/-! ### What lies beyond the picture -/

/-- From `s` to `t` OUT stays in canonical form and, beyond the picture, reads as before; W and H stay. -/
structure KeepsBeyond (s t : State) : Prop where
  wf : t.out.wf
  lW : t.lW = s.lW
  lH : t.lH = s.lH
  bytes : ∀ a, outSize s ≤ a → t.out.get a = s.out.get a

section KeepsBeyond

variable {s t u : State}

theorem KeepsBeyond.refl (hw : s.out.wf) : KeepsBeyond s s := ⟨hw, rfl, rfl, fun _ _ => rfl⟩

/-- An update that leaves OUT, W and H alone. -/
theorem KeepsBeyond.update (h : KeepsBeyond s t) (ho : u.out = t.out) (hw : u.lW = t.lW) (hh : u.lH = t.lH) :
    KeepsBeyond s u := by
  refine ⟨?_, hw.trans h.lW, hh.trans h.lH, fun a ha => ?_⟩
  · rw [ho]
    exact h.wf
  · rw [ho]
    exact h.bytes a ha

theorem KeepsBeyond.outSize_eq (h : KeepsBeyond s t) : outSize t = outSize s := by
  simp only [outSize, imgW, imgH, h.lW, h.lH]

/-- Wherever this part of an operation answers or takes a fault, what lies beyond the picture of `s` is kept. -/
def StaysInside (s : State) (m : Flow State) : Prop := ∀ t, m.outcome = .next t → KeepsBeyond s t

theorem StaysInside.ok (h : KeepsBeyond s t) : StaysInside s (.ok t) := fun _ he => by
  cases he
  exact h

theorem StaysInside.andThen {m : Flow State} {k : State → Flow State} (hm : StaysInside s m)
    (hk : ∀ u, KeepsBeyond s u → StaysInside s (k u)) : StaysInside s (m.andThen k) := by
  cases m with
  | ok u => exact hk u (hm u rfl)
  | raised u => exact hm
  | fault f => exact hm
  | refused r => exact hm

/-! ### The pixels -/

theorem memWrite_staysInside (h : KeepsBeyond s t) (a : Nat) (b : Byte) : StaysInside s (memWrite a b t) := by
  unfold memWrite
  split
  next ha =>
    rw [h.outSize_eq] at ha
    refine .ok ⟨Memory.wf_set h.wf a b, h.lW, h.lH, fun c hc => ?_⟩
    exact (Memory.get_set_other h.wf b (by omega)).trans (h.bytes c hc)
  next => exact fun _ he => by cases he

theorem emit_staysInside (h : KeepsBeyond s t) (x y : Nat) (r g b a : Byte) : StaysInside s (emit x y r g b a t) :=
  (memWrite_staysInside h _ r).andThen fun _ h1 => (memWrite_staysInside h1 _ g).andThen fun _ h2 =>
    (memWrite_staysInside h2 _ b).andThen fun _ h3 => memWrite_staysInside h3 _ a

/-- A pixel body writes by one Emit, or takes IndexRange before it writes. -/
theorem staysInside_of_emit {m : Flow State} {x y : Nat} (h : KeepsBeyond s t)
    (hok : ∀ u, m = .ok u → ∃ r g b a, emit x y r g b a t = .ok u)
    (hr : ∀ u, m = .raised u → ∃ n, u = enterFault .indexRange none n t) : StaysInside s m := by
  cases m with
  | ok u =>
    obtain ⟨r, g, b, a, he⟩ := hok u rfl
    rw [← he]
    exact emit_staysInside h x y r g b a
  | raised u =>
    obtain ⟨n, rfl⟩ := hr u rfl
    exact .ok (h.update rfl rfl rfl)
  | fault f => exact fun _ he => by cases he
  | refused r => exact fun _ he => by cases he

theorem palettePixel_staysInside (x y : Nat) (t : State) (h : KeepsBeyond s t) :
    StaysInside s (palettePixel x y t) :=
  staysInside_of_emit h (fun _ => palettePixel_eq_ok) fun _ hr => by
    obtain ⟨i, -, -, hu⟩ := palettePixel_eq_raised hr
    exact ⟨_, hu⟩

theorem trueColour24Pixel_staysInside (x y : Nat) (t : State) (h : KeepsBeyond s t) :
    StaysInside s (trueColour24Pixel x y t) :=
  staysInside_of_emit h (fun _ => trueColour24Pixel_eq_ok) fun _ hr => absurd hr trueColour24Pixel_not_raised

theorem trueColour32Pixel_staysInside (x y : Nat) (t : State) (h : KeepsBeyond s t) :
    StaysInside s (trueColour32Pixel x y t) :=
  staysInside_of_emit h (fun _ => trueColour32Pixel_eq_ok) fun _ hr => absurd hr trueColour32Pixel_not_raised

/-- The loops stay inside where each pixel does. -/
theorem produce_staysInside {body : Nat → Nat → State → Flow State}
    (hb : ∀ x y u, KeepsBeyond s u → StaysInside s (body x y u)) (h : KeepsBeyond s t) :
    StaysInside s (produce body t) := by
  have hpixel : ∀ x y u v, KeepsBeyond s u → body x y u = .ok v → KeepsBeyond s v := fun x y u v hu he =>
    hb x y u hu v (by rw [he]; rfl)
  refine StaysInside.andThen (fun v hv => ?_) fun u hu => .ok (hu.update rfl rfl rfl)
  rcases Flow.outcome_eq_next.mp hv with hv | hv
  · exact imageLoop_keeps hpixel _ 0 t v h hv
  · obtain ⟨x, y, u, hu, -, -, hr⟩ := imageLoop_raised hpixel _ 0 t v h hv
    exact hb x y u hu v (by rw [hr]; rfl)

/-! ### The parts that leave OUT alone -/

theorem fetchHeader_staysInside (h : KeepsBeyond s t) : StaysInside s (fetchHeader t) := by
  rcases Nat.lt_or_ge (len t) 36 with hl | hl
  · rw [fetchHeader_raises hl]
    exact .ok (h.update rfl rfl rfl)
  · rw [fetchHeader_ok hl]
    exact .ok (h.update rfl rfl rfl)

theorem selectPath_staysInside (h : KeepsBeyond s t) : StaysInside s (selectPath t) := by
  rcases selectPath_cases t with ⟨-, -, hs⟩ | ⟨-, -, hs⟩ | ⟨-, -, hs⟩ <;> rw [hs]
  all_goals exact StaysInside.ok (h.update rfl rfl rfl)

theorem makeView_staysInside {k : Slot} {o w ht d : Nat} {f : Fmt} (h : KeepsBeyond s t) :
    StaysInside s (makeView k o w ht d f t) := by
  rcases makeView_cases k o w ht d f t with ⟨-, hm⟩ | ⟨-, hm⟩ <;> rw [hm]
  · exact .ok (h.update (setView_out ..) (setView_lW ..) (setView_lH ..))
  · exact StaysInside.ok (h.update rfl rfl rfl)

theorem goto_staysInside (p : Phase) (h : KeepsBeyond s t) : StaysInside s (.ok (goto p t)) :=
  .ok (h.update rfl rfl rfl)

theorem afterSelect_staysInside (h : KeepsBeyond s t) : StaysInside s (.ok (afterSelect t)) :=
  .ok (h.update (afterSelect_out _) (afterSelect_lW _) (afterSelect_lH _))

theorem afterView_staysInside (k : Slot) (h : KeepsBeyond s t) : StaysInside s (.ok (afterView k t)) :=
  .ok (h.update (afterView_out ..) (afterView_lW ..) (afterView_lH ..))

theorem advancePixel_staysInside (x y : Nat) (h : KeepsBeyond s t) : StaysInside s (.ok (advancePixel x y t)) :=
  .ok (h.update (advancePixel_out ..) (advancePixel_lW ..) (advancePixel_lH ..))

theorem returnSample_keepsBeyond {m : Flow Byte} (h : KeepsBeyond s s) (hm : ∀ u, m ≠ .raised u)
    (he : returnSample m s = .next t) : KeepsBeyond s t := by
  obtain ⟨b, rfl⟩ := returnSample_next hm he
  exact h.update rfl rfl rfl

/-! ### The decode modes -/

theorem decodePalette_staysInside (h : KeepsBeyond s t) (d : Nat) (size clrused : Word) :
    StaysInside s (decodePalette d size clrused t) := by
  have hl : KeepsBeyond s (latchHeader size.toNat d clrused.toNat t) := h.update rfl rfl rfl
  refine (selectPath_staysInside hl).andThen fun _ h1 => ?_
  refine (makeView_staysInside h1).andThen fun _ h2 => (makeView_staysInside h2).andThen fun _ h3 => ?_
  exact (makeView_staysInside h3).andThen fun _ h4 => produce_staysInside palettePixel_staysInside h4

theorem decode24_staysInside (h : KeepsBeyond s s) (size : Word) : StaysInside s (decode24 size s) := by
  have hl : KeepsBeyond s (trueColourSelected 24 size s) := h.update rfl rfl rfl
  refine (makeView_staysInside hl).andThen fun _ h1 => ?_
  exact (makeView_staysInside h1).andThen fun _ h2 => produce_staysInside trueColour24Pixel_staysInside h2

theorem decode32_staysInside (h : KeepsBeyond s s) (size : Word) : StaysInside s (decode32 size s) := by
  have hl : KeepsBeyond s (trueColourSelected 32 size s) := h.update rfl rfl rfl
  exact (makeView_staysInside hl).andThen fun _ h1 => produce_staysInside trueColour32Pixel_staysInside h1

/-! ### Every operation -/

/-- Every operation but START, which latches another W and H, keeps what lies beyond the picture. -/
theorem exec_keepsBeyond {i : Instr} (hw : s.out.wf) (hi : i ≠ .start) (he : exec i s = .next t) :
    KeepsBeyond s t := by
  have h := KeepsBeyond.refl hw
  cases i with
  | decP1 size clrused => exact decodePalette_staysInside h 1 size clrused t he
  | decP2 size clrused => exact decodePalette_staysInside h 2 size clrused t he
  | decP4 size clrused => exact decodePalette_staysInside h 4 size clrused t he
  | decP8 size clrused => exact decodePalette_staysInside h 8 size clrused t he
  | decT24 size => exact decode24_staysInside h size t (execDecT24_eq.symm.trans he)
  | decT32 size => exact decode32_staysInside h size t (execDecT32_eq.symm.trans he)
  | smp1 k x y ch => exact returnSample_keepsBeyond h (fun _ => subByteSample_not_raised) he
  | smp2 k x y ch => exact returnSample_keepsBeyond h (fun _ => subByteSample_not_raised) he
  | smp4 k x y ch => exact returnSample_keepsBeyond h (fun _ => subByteSample_not_raised) he
  | smpB8 k x y ch => exact returnSample_keepsBeyond h (fun _ => wholeByteSample_not_raised) he
  | smpB16 k x y ch => exact returnSample_keepsBeyond h (fun _ => wholeByteSample_not_raised) he
  | smpB24 k x y ch => exact returnSample_keepsBeyond h (fun _ => wholeByteSample_not_raised) he
  | smpB32 k x y ch => exact returnSample_keepsBeyond h (fun _ => wholeByteSample_not_raised) he
  | hdrFetch => exact (fetchHeader_staysInside h).andThen (fun _ hu => goto_staysInside .sel hu) t he
  | select => exact (selectPath_staysInside h).andThen (fun _ => afterSelect_staysInside) t he
  | viewMake k o w ht d f => exact (makeView_staysInside h).andThen (fun _ => afterView_staysInside k) t he
  | pixPal x y => exact (palettePixel_staysInside x y s h).andThen (fun _ => advancePixel_staysInside x y) t he
  | pixT24 x y => exact (trueColour24Pixel_staysInside x y s h).andThen (fun _ => advancePixel_staysInside x y) t he
  | pixT32 x y => exact (trueColour32Pixel_staysInside x y s h).andThen (fun _ => advancePixel_staysInside x y) t he
  | start => exact absurd rfl hi
  | clear =>
    cases hb : busy s with
    | true =>
      rw [exec_clear_ignored hb] at he
      cases he
      exact h
    | false =>
      rw [exec_clear_accepted hb] at he
      cases he
      exact h.update rfl rfl rfl

theorem exec_start_out (he : exec .start s = .next t) : t.out = s.out := by
  cases hb : busy s with
  | true =>
    rw [exec_start_ignored hb] at he
    cases he
    rfl
  | false =>
    rw [exec_start_accepted hb] at he
    cases he
    rfl

end KeepsBeyond

/-- Settles O42: START writes no byte of OUT, and every other operation keeps what lies beyond the picture. -/
theorem writesOnlyInsideOut : Obligations.WritesOnlyInsideOut := by
  intro i s t hw he a ha
  by_cases hi : i = .start
  · subst hi
    rw [exec_start_out he]
  · exact (exec_keepsBeyond hw hi he).bytes a ha

/-! ### The reset input -/

/-- The reset input clears what CLEAR clears of STATUS (10_state.md R38). -/
theorem statusWord_resetEvent (s : State) : statusWord (resetEvent s) = 0 := by
  have hclear : statusWord (resetEvent s) = statusWord (goto .idle (clearStatus s)) := rfl
  rw [hclear, statusWord_goto_clearStatus]
  rfl

/-- Settles O44: the step is `resetEvent`, whose last three updates clear STATUS, invalidate the views and go to
P_IDLE, over whatever values the other registers take. -/
theorem resetInputAbandonsOperation : Obligations.ResetInputAbandonsOperation := by
  intro s rest hi
  have hs : step s = .next (resetEvent (setInbox rest s)) := step_host hi (by simp) (by simp)
  exact ⟨_, hs, rfl, statusWord_resetEvent _, rfl, fun k => viewOf_resetEvent k _, rfl, rfl, rfl, rfl, rfl⟩

end Sys2Proof.Machine
